-- ==== Sys2Proof/Word.lean ====
section
/-! DEFINITION. The word types of the block: bytes, request words, bus addresses (spec/00_scope.md R10). -/

namespace Sys2Proof

/-- An 8-bit unsigned value 0..255 (R10). -/
abbrev Byte := BitVec 8

/-- The 32-bit host request word (R101). -/
abbrev ReqWord := BitVec 32

/-- A 16-bit buffer index as a request carries it (R102, format HW and HI). -/
abbrev BufIndex := BitVec 16

/-- The 7-bit device bus address (R41, S0). -/
abbrev DevAddr := BitVec 7

end Sys2Proof
end

