-- ==== Sys2Proof/Config.lean ====
section
/-! DEFINITION. The configuration record `CFG` (spec/00_scope.md R6, spec/10_state.md R41), the reset input that
carries it (spec/70_reset_and_hazards.md R280), the named bytes of the default initialization sequence
(spec/43_initialization.md R201), and the free values that stand for the bytes the spec leaves OPEN (D10a). -/

namespace Sys2Proof

/-- `COL_FRAMING` (R6, R41 S8): the two column command bytes in two transport writes or in one. -/
inductive ColFraming where
  | split
  | joined
  deriving DecidableEq, Repr

/-- `DIRTY_POLICY` (R6, R41 S9): what a successful UPDATE clears. -/
inductive DirtyPolicy where
  | global
  | range
  deriving DecidableEq, Repr

/-- The configuration record `CFG` (R6). The sizes are naturals; their legal ranges (R281) are a check, and R41's
widths follow from it (log 14). -/
structure Cfg where
  /-- `WIDTH` (S2), 9 bits, legal 1..256. -/
  width : Nat
  /-- `HEIGHT` (S3), 9 bits, legal 8..256, a multiple of 8. -/
  height : Nat
  /-- `DATA_SIZE` (S1), 16 bits, legal 1..65535. -/
  dataSize : Nat
  /-- `DEV_ADDR` (S0), 7 bits. -/
  devAddr : DevAddr
  /-- `REG_CMD` (S5). -/
  regCmd : Byte
  /-- `REG_DATA` (S6). -/
  regData : Byte
  /-- `PAGE_BASE` (S7). -/
  pageBase : Byte
  /-- `COL_FRAMING` (S8). -/
  colFraming : ColFraming
  /-- `DIRTY_POLICY` (S9). -/
  dirtyPolicy : DirtyPolicy
  /-- `INIT_SEQ` (S10): the entries of the initialization sequence. -/
  initSeq : List (List Byte)
  deriving DecidableEq, Repr

/-- What the reset input carries (R280): three parameters without a default, and seven that take their default when
the host omits them (`none`). -/
structure ResetInput where
  width : Nat
  height : Nat
  dataSize : Nat
  devAddr : Option Nat
  regCmd : Option Byte
  regData : Option Byte
  pageBase : Option Byte
  colFraming : Option ColFraming
  dirtyPolicy : Option DirtyPolicy
  initSeq : Option (List (List Byte))
  deriving DecidableEq, Repr

/-- The named bytes of the default initialization sequence that the source does not give (R201, D10a). A claim that
depends on one of them takes this record as an argument. -/
structure DefaultBytes where
  cmdAddrMode : Byte
  cmdContrast : Byte
  pContrast : Byte
  cmdSegRemap : Byte
  cmdMux : Byte
  pMux : Byte
  cmdEntireOff : Byte
  cmdNormal : Byte
  cmdOffset : Byte
  pOffset : Byte
  cmdDcdc : Byte
  pDcdc : Byte
  cmdComScan : Byte
  cmdPrecharge : Byte
  pPrecharge : Byte
  cmdVcomh : Byte
  pVcomh : Byte
  cmdStartLine : Byte
  pStartLine : Byte
  deriving DecidableEq, Repr

/-- P_CONTRAST, OPEN (R201 E5): a free value (log 7). -/
opaque Config.pContrast : Byte
/-- The low bit of CMD_SEG_REMAP, 0xA0 or 0xA1, OPEN (R201 E6): a free value (log 7). -/
opaque Config.segRemapBit : BitVec 1
/-- P_MUX, OPEN (R201 E7): a free value (log 7). -/
opaque Config.pMux : Byte
/-- P_OFFSET, OPEN (R201 E10): a free value (log 7). -/
opaque Config.pOffset : Byte
/-- P_DCDC, OPEN (R201 E11): a free value (log 7). -/
opaque Config.pDcdc : Byte
/-- Bit 3 of CMD_COM_SCAN, 0xC0 or 0xC8, OPEN (R201 E13): a free value (log 7). -/
opaque Config.comScanBit : BitVec 1
/-- P_PRECHARGE, OPEN (R201 E14): a free value (log 7). -/
opaque Config.pPrecharge : Byte
/-- P_VCOMH, OPEN (R201 E15): a free value (log 7). -/
opaque Config.pVcomh : Byte
/-- P_START_LINE, OPEN (R201 E16): a free value (log 7). -/
opaque Config.pStartLine : Byte

end Sys2Proof
end

