-- ==== Sys2Proof/Syntax.lean ====
section
/-! DEFINITION. The operations of the block, one constructor per row of spec/opcode_table.json: the 11 host requests
(spec/30_encoding.md R104) and the 18 controller command rows the block emits (R100 (c), R109 to R112). -/

namespace Sys2Proof

/-- The instruction type: one constructor per row of the opcode table. -/
inductive Instr where
  /-- SEND_COMMAND (R161): the payload bytes `P`. -/
  | sendCommand (payload : List Byte)
  /-- SEND_DATA (R164): the payload bytes `P`. -/
  | sendData (payload : List Byte)
  /-- SET_PAGE (R181). -/
  | setPage (page : Byte)
  /-- SET_COLUMN (R183). -/
  | setColumn (col : Byte)
  /-- SET_POSITION (R185), the column first, as in the document's `setPosition(column, page)`. -/
  | setPosition (col page : Byte)
  /-- INITIALIZE (R202). -/
  | initializeDisplay
  /-- UPDATE (R221), start page then end page. -/
  | update (first last : Byte)
  /-- BUF_WRITE (R240). -/
  | bufWrite (index : BufIndex) (value : Byte)
  /-- BUF_READ (R241). -/
  | bufRead (index : BufIndex)
  /-- SET_PIXEL (R242). -/
  | setPixel (x y : Byte) (on : Bool)
  /-- DIRTY_STATUS (R243). -/
  | dirtyStatus
  /-- CTL_SET_COLUMN_LOW (R110): `llll`. -/
  | ctlSetColumnLow (llll : BitVec 4)
  /-- CTL_SET_COLUMN_HIGH (R111): `hhhh`. -/
  | ctlSetColumnHigh (hhhh : BitVec 4)
  /-- CTL_SET_PAGE (R109): the page index; the byte is `PAGE_BASE + page`. -/
  | ctlSetPage (page : Byte)
  /-- CTL_DISPLAY_OFF (R201 E0). -/
  | ctlDisplayOff
  /-- CTL_DISPLAY_ON (R201 E17). -/
  | ctlDisplayOn
  /-- CTL_CLOCK_DIVIDE (R201 E1). -/
  | ctlClockDivide
  /-- CTL_ADDR_MODE (R201 E4). -/
  | ctlAddrMode
  /-- CTL_CONTRAST (R201 E5): the parameter byte. -/
  | ctlContrast (param : Byte)
  /-- CTL_SEG_REMAP (R201 E6): bit 0 of the command. -/
  | ctlSegRemap (r : BitVec 1)
  /-- CTL_MUX (R201 E7): the parameter byte. -/
  | ctlMux (param : Byte)
  /-- CTL_ENTIRE_OFF (R201 E8). -/
  | ctlEntireOff
  /-- CTL_NORMAL (R201 E9). -/
  | ctlNormal
  /-- CTL_OFFSET (R201 E10): the parameter byte. -/
  | ctlOffset (param : Byte)
  /-- CTL_DCDC (R201 E11): the parameter byte. -/
  | ctlDcdc (param : Byte)
  /-- CTL_COM_SCAN (R201 E13): bit 3 of the command. -/
  | ctlComScan (d : BitVec 1)
  /-- CTL_PRECHARGE (R201 E14): the parameter byte. -/
  | ctlPrecharge (param : Byte)
  /-- CTL_VCOMH (R201 E15): the parameter byte. -/
  | ctlVcomh (param : Byte)
  /-- CTL_START_LINE (R201 E16): the parameter byte. -/
  | ctlStartLine (param : Byte)
  deriving DecidableEq, Repr

/-- The host operations (R104). -/
inductive Op where
  | sendCommand
  | sendData
  | setPage
  | setColumn
  | setPosition
  | initializeDisplay
  | update
  | bufWrite
  | bufRead
  | setPixel
  | dirtyStatus
  deriving DecidableEq, Repr

/-- The request word formats (R102). -/
inductive Format where
  | h0
  | hn
  | hp
  | hc
  | hpc
  | hr
  | hw
  | hi
  | hx
  deriving DecidableEq, Repr

/-- What carries an operation: a host request (a word and a payload stream, R101) or the payload of a controller
command write (R100 (c)). -/
inductive Encoded where
  | request (word : ReqWord) (payload : List Byte)
  | command (bytes : List Byte)
  deriving DecidableEq, Repr

end Sys2Proof
end

