-- ==== Sys2Proof/WellFormed.lean ====
section
/-! DEFINITION. Which instructions have an encoding: the field limits the types do not already give
(spec/30_encoding.md R102, R106, R115, and the CTL_SET_PAGE row of spec/opcode_table.json). -/

namespace Sys2Proof

/-- An instruction the spec gives an encoding. A SEND_COMMAND payload has 1 to 65535 bytes and a SEND_DATA payload at
most 65535 (R106); the CTL_SET_PAGE row holds for pages 0 to 15 (its mask is 0xF0). -/
def Instr.wellFormed : Instr → Bool
  | .sendCommand p => decide (1 ≤ p.length ∧ p.length ≤ 65535)
  | .sendData p => decide (p.length ≤ 65535)
  | .setPage _ => true
  | .setColumn _ => true
  | .setPosition _ _ => true
  | .initializeDisplay => true
  | .update _ _ => true
  | .bufWrite _ _ => true
  | .bufRead _ => true
  | .setPixel _ _ _ => true
  | .dirtyStatus => true
  | .ctlSetColumnLow _ => true
  | .ctlSetColumnHigh _ => true
  | .ctlSetPage p => decide (p.toNat < 16)
  | .ctlDisplayOff => true
  | .ctlDisplayOn => true
  | .ctlClockDivide => true
  | .ctlAddrMode => true
  | .ctlContrast _ => true
  | .ctlSegRemap _ => true
  | .ctlMux _ => true
  | .ctlEntireOff => true
  | .ctlNormal => true
  | .ctlOffset _ => true
  | .ctlDcdc _ => true
  | .ctlComScan _ => true
  | .ctlPrecharge _ => true
  | .ctlVcomh _ => true
  | .ctlStartLine _ => true

end Sys2Proof
end

