-- ==== Sys2Proof/Decode.lean ====
section
/-! DEFINITION. Decoding and encoding (spec/30_encoding.md R100 to R117): host request words with their payload
streams, and the controller command rows. The encoder comes after the decoder and is written from the same tables. -/

namespace Sys2Proof

/-- Why a request or a command payload is no row of the opcode table (R117). -/
inductive DecodeError where
  /-- The opcode is unassigned (R105). -/
  | unknownOp
  /-- A reserved bit is 1 (R103). -/
  | reservedBits
  /-- The payload stream's length differs from N (R103). -/
  | lengthMismatch
  /-- The bytes of a command payload are no CTL8 or CTL16 row of the table (the block itself never decodes them, R113). -/
  | noCommandRow
  deriving DecidableEq, Repr

/-- Opcode assignment (R104), `w[31:24]`. -/
def Op.code : Op → Byte
  | .sendCommand => 0x01#8
  | .sendData => 0x02#8
  | .setPage => 0x10#8
  | .setColumn => 0x11#8
  | .setPosition => 0x12#8
  | .initializeDisplay => 0x20#8
  | .update => 0x30#8
  | .bufWrite => 0x40#8
  | .bufRead => 0x41#8
  | .setPixel => 0x42#8
  | .dirtyStatus => 0x50#8

/-- The operation an opcode names; every other value is unassigned (R105). -/
def Op.ofCode (c : Byte) : Option Op :=
  if c = 0x01#8 then some .sendCommand
  else if c = 0x02#8 then some .sendData
  else if c = 0x10#8 then some .setPage
  else if c = 0x11#8 then some .setColumn
  else if c = 0x12#8 then some .setPosition
  else if c = 0x20#8 then some .initializeDisplay
  else if c = 0x30#8 then some .update
  else if c = 0x40#8 then some .bufWrite
  else if c = 0x41#8 then some .bufRead
  else if c = 0x42#8 then some .setPixel
  else if c = 0x50#8 then some .dirtyStatus
  else none

/-- The format of each operation's request word (R104). -/
def Op.format : Op → Format
  | .sendCommand => .hn
  | .sendData => .hn
  | .setPage => .hp
  | .setColumn => .hc
  | .setPosition => .hpc
  | .initializeDisplay => .h0
  | .update => .hr
  | .bufWrite => .hw
  | .bufRead => .hi
  | .setPixel => .hx
  | .dirtyStatus => .h0

/-- The reserved bits of each format (R102), as a mask over the request word. -/
def Format.reserved : Format → ReqWord
  | .h0 => 0x00FFFFFF#32
  | .hn => 0x00FF0000#32
  | .hp => 0x00FFFF00#32
  | .hc => 0x00FFFF00#32
  | .hpc => 0x00FF0000#32
  | .hr => 0x00FF0000#32
  | .hw => 0x00000000#32
  | .hi => 0x000000FF#32
  | .hx => 0x00FE0000#32

/-- `w[31:24]` (R101). -/
def opcodeField (w : ReqWord) : Byte := w.extractLsb' 24 8

/-- `w[15:0]`, the payload byte count N of format HN (R102). -/
def countField (w : ReqWord) : Nat := (w.extractLsb' 0 16).toNat

/-- `w[7:0]` (R102). -/
def lowByteField (w : ReqWord) : Byte := w.extractLsb' 0 8

/-- `w[15:8]` (R102). -/
def midByteField (w : ReqWord) : Byte := w.extractLsb' 8 8

/-- `w[23:8]`, the buffer index of formats HW and HI (R102). -/
def indexField (w : ReqWord) : BufIndex := w.extractLsb' 8 16

/-- `w[16]`, the `on` bit of format HX (R102). -/
def onField (w : ReqWord) : Bool := w.getLsbD 16

/-- How many payload bytes follow the word: N for the payload-carrying format HN, none for the others (R101, R102; that
a payload behind another format is a length mismatch is log 12). -/
def payloadCount (f : Format) (w : ReqWord) : Nat :=
  match f with
  | .hn => countField w
  | .h0 | .hp | .hc | .hpc | .hr | .hw | .hi | .hx => 0

/-- The instruction that a request of operation `op` stands for, from the fields of its word (R102, R114). -/
def Op.build (op : Op) (w : ReqWord) (p : List Byte) : Instr :=
  match op with
  | .sendCommand => .sendCommand p
  | .sendData => .sendData p
  | .setPage => .setPage (lowByteField w)
  | .setColumn => .setColumn (lowByteField w)
  | .setPosition => .setPosition (lowByteField w) (midByteField w)
  | .initializeDisplay => .initializeDisplay
  | .update => .update (lowByteField w) (midByteField w)
  | .bufWrite => .bufWrite (indexField w) (lowByteField w)
  | .bufRead => .bufRead (indexField w)
  | .setPixel => .setPixel (lowByteField w) (midByteField w) (onField w)
  | .dirtyStatus => .dirtyStatus

/-- Decode a host request (R101 to R106), the checks in the order of R256. -/
def decodeRequest (w : ReqWord) (p : List Byte) : Except DecodeError Instr :=
  match Op.ofCode (opcodeField w) with
  | none => .error .unknownOp
  | some op =>
    if w &&& op.format.reserved ≠ 0#32 then .error .reservedBits
    else if p.length ≠ payloadCount op.format w then .error .lengthMismatch
    else .ok (op.build w p)

/-- The CTL8 rows of spec/opcode_table.json: one command byte. -/
def decodeCtl8 (b : Byte) : Except DecodeError Instr :=
  if b &&& 0xF0#8 = 0x00#8 then .ok (.ctlSetColumnLow (b.extractLsb' 0 4))
  else if b &&& 0xF0#8 = 0x10#8 then .ok (.ctlSetColumnHigh (b.extractLsb' 0 4))
  else if b &&& 0xF0#8 = 0xB0#8 then .ok (.ctlSetPage (b &&& 0x0F#8))
  else if b = 0xAE#8 then .ok .ctlDisplayOff
  else if b = 0xAF#8 then .ok .ctlDisplayOn
  else if b = 0x20#8 then .ok .ctlAddrMode
  else if b &&& 0xFE#8 = 0xA0#8 then .ok (.ctlSegRemap (b.extractLsb' 0 1))
  else if b = 0xA4#8 then .ok .ctlEntireOff
  else if b = 0xA6#8 then .ok .ctlNormal
  else if b &&& 0xF7#8 = 0xC0#8 then .ok (.ctlComScan (b.extractLsb' 3 1))
  else .error .noCommandRow

/-- The CTL16 rows of spec/opcode_table.json: a command byte and its parameter byte, sent in one write. -/
def decodeCtl16 (c p : Byte) : Except DecodeError Instr :=
  if c = 0xD5#8 ∧ p = 0x50#8 then .ok .ctlClockDivide
  else if c = 0x81#8 then .ok (.ctlContrast p)
  else if c = 0xA8#8 then .ok (.ctlMux p)
  else if c = 0xD3#8 then .ok (.ctlOffset p)
  else if c = 0xAD#8 then .ok (.ctlDcdc p)
  else if c = 0xD9#8 then .ok (.ctlPrecharge p)
  else if c = 0xDB#8 then .ok (.ctlVcomh p)
  else if c = 0xDC#8 then .ok (.ctlStartLine p)
  else .error .noCommandRow

/-- Read the payload of a command write by the controller command rows of the table, for `PAGE_BASE = 0xB0` (the
CTL_SET_PAGE row's note). The block never does this (R113); the rows describe what it emits. -/
def decodeCommand : List Byte → Except DecodeError Instr
  | [b] => decodeCtl8 b
  | [c, p] => decodeCtl16 c p
  | [] => .error .noCommandRow
  | _ :: _ :: _ :: _ => .error .noCommandRow

/-- The decoder, total on every word, payload and byte list. -/
def decode : Encoded → Except DecodeError Instr
  | .request w p => decodeRequest w p
  | .command bs => decodeCommand bs

/-- A request word from its opcode and its bits 23..0 (R101). -/
def requestWord (op : Op) (a b c : Byte) : ReqWord := op.code ++ a ++ b ++ c

/-- The bytes of a controller command row under a given `PAGE_BASE` (R109 to R112, R201); `none` for a host request.
The double-byte rows give the command byte first (R200). -/
def Instr.commandBytes (pageBase : Byte) : Instr → Option (List Byte)
  | .sendCommand _ => none
  | .sendData _ => none
  | .setPage _ => none
  | .setColumn _ => none
  | .setPosition _ _ => none
  | .initializeDisplay => none
  | .update _ _ => none
  | .bufWrite _ _ => none
  | .bufRead _ => none
  | .setPixel _ _ _ => none
  | .dirtyStatus => none
  | .ctlSetColumnLow l => some [0x0#4 ++ l]
  | .ctlSetColumnHigh h => some [0x1#4 ++ h]
  | .ctlSetPage p => some [pageBase + p]
  | .ctlDisplayOff => some [0xAE#8]
  | .ctlDisplayOn => some [0xAF#8]
  | .ctlClockDivide => some [0xD5#8, 0x50#8]
  | .ctlAddrMode => some [0x20#8]
  | .ctlContrast p => some [0x81#8, p]
  | .ctlSegRemap r => some [0b1010000#7 ++ r]
  | .ctlMux p => some [0xA8#8, p]
  | .ctlEntireOff => some [0xA4#8]
  | .ctlNormal => some [0xA6#8]
  | .ctlOffset p => some [0xD3#8, p]
  | .ctlDcdc p => some [0xAD#8, p]
  | .ctlComScan d => some [0xC#4 ++ d ++ 0#3]
  | .ctlPrecharge p => some [0xD9#8, p]
  | .ctlVcomh p => some [0xDB#8, p]
  | .ctlStartLine p => some [0xDC#8, p]

/-- The word and payload of a host request (R101 to R106); `none` for a controller command row. -/
def Instr.requestParts : Instr → Option (ReqWord × List Byte)
  | .sendCommand p => some (Op.sendCommand.code ++ 0#8 ++ BitVec.ofNat 16 p.length, p)
  | .sendData p => some (Op.sendData.code ++ 0#8 ++ BitVec.ofNat 16 p.length, p)
  | .setPage p => some (requestWord .setPage 0 0 p, [])
  | .setColumn c => some (requestWord .setColumn 0 0 c, [])
  | .setPosition c p => some (requestWord .setPosition 0 p c, [])
  | .initializeDisplay => some (requestWord .initializeDisplay 0 0 0, [])
  | .update a b => some (requestWord .update 0 b a, [])
  | .bufWrite i v => some (Op.bufWrite.code ++ i ++ v, [])
  | .bufRead i => some (Op.bufRead.code ++ i ++ 0#8, [])
  | .setPixel x y on => some (Op.setPixel.code ++ 0#7 ++ BitVec.ofBool on ++ y ++ x, [])
  | .dirtyStatus => some (requestWord .dirtyStatus 0 0 0, [])
  | .ctlSetColumnLow _ => none
  | .ctlSetColumnHigh _ => none
  | .ctlSetPage _ => none
  | .ctlDisplayOff => none
  | .ctlDisplayOn => none
  | .ctlClockDivide => none
  | .ctlAddrMode => none
  | .ctlContrast _ => none
  | .ctlSegRemap _ => none
  | .ctlMux _ => none
  | .ctlEntireOff => none
  | .ctlNormal => none
  | .ctlOffset _ => none
  | .ctlDcdc _ => none
  | .ctlComScan _ => none
  | .ctlPrecharge _ => none
  | .ctlVcomh _ => none
  | .ctlStartLine _ => none

/-- The encoder, from the same tables as the decoder: a request, or the bytes of a controller command row for
`PAGE_BASE = 0xB0`. -/
def encode (i : Instr) : Encoded :=
  match i.requestParts with
  | some (w, p) => .request w p
  | none => .command ((i.commandBytes 0xB0#8).getD [])

/-- The opcode table's word `w` of `nbits` bits as the hardware is given it: a 32-bit request word with a payload of
zeros as long as its format asks, a CTL8 byte, or a CTL16 pair whose bits 15..8 are the command byte, which is sent
first (R100). -/
def tableEncoded (nbits w : Nat) : Option Encoded :=
  match nbits with
  | 32 =>
    let word := BitVec.ofNat 32 w
    let n := match Op.ofCode (opcodeField word) with
      | some op => payloadCount op.format word
      | none => 0
    some (.request word (List.replicate n 0#8))
  | 16 => some (.command [BitVec.ofNat 8 (w / 256), BitVec.ofNat 8 w])
  | 8 => some (.command [BitVec.ofNat 8 w])
  | _ => none

/-- The instruction the decoder reads from a word of the opcode table. -/
def decodeTableWord (nbits w : Nat) : Option Instr :=
  match tableEncoded nbits w with
  | some e =>
    match decode e with
    | .ok i => some i
    | .error _ => none
  | none => none

end Sys2Proof
end

