-- ==== Sys2Proof/Machine/Defaults.lean ====
section
/-! DEFINITION. The configuration: derived sizes (spec/00_scope.md R6, R7), the default initialization sequence
(spec/43_initialization.md R201), the defaults of the reset input (R6, R280), and configuration validity
(spec/70_reset_and_hazards.md R281). -/

namespace Sys2Proof

/-- `NPAGES = HEIGHT div 8` (R6, R41 S4). -/
def Cfg.npages (c : Cfg) : Nat := c.height / 8

/-- `NBYTES = WIDTH * NPAGES` (R6, R33). -/
def Cfg.nbytes (c : Cfg) : Nat := c.width * c.npages

/-- The default `INIT_SEQ`: 18 entries, E0 to E17 in order (R201). E12 is `[PAGE_BASE]`. -/
def defaultInitSeq (b : DefaultBytes) (pageBase : Byte) : List (List Byte) :=
  [ [0xAE#8],
    [0xD5#8, 0x50#8],
    [0x00#8],
    [0x10#8],
    [b.cmdAddrMode],
    [b.cmdContrast, b.pContrast],
    [b.cmdSegRemap],
    [b.cmdMux, b.pMux],
    [b.cmdEntireOff],
    [b.cmdNormal],
    [b.cmdOffset, b.pOffset],
    [b.cmdDcdc, b.pDcdc],
    [pageBase],
    [b.cmdComScan],
    [b.cmdPrecharge, b.pPrecharge],
    [b.cmdVcomh, b.pVcomh],
    [b.cmdStartLine, b.pStartLine],
    [0xAF#8] ]

/-- The named bytes the model uses where the host gives no `INIT_SEQ`: the command codes are the general-knowledge
values of R201 (PRESUMED, log 6), the OPEN bytes are free values of Config (log 7). -/
def defaultBytes : DefaultBytes where
  cmdAddrMode := 0x20#8
  cmdContrast := 0x81#8
  pContrast := Config.pContrast
  cmdSegRemap := 0b1010000#7 ++ Config.segRemapBit
  cmdMux := 0xA8#8
  pMux := Config.pMux
  cmdEntireOff := 0xA4#8
  cmdNormal := 0xA6#8
  cmdOffset := 0xD3#8
  pOffset := Config.pOffset
  cmdDcdc := 0xAD#8
  pDcdc := Config.pDcdc
  cmdComScan := 0xC#4 ++ Config.comScanBit ++ 0#3
  cmdPrecharge := 0xD9#8
  pPrecharge := Config.pPrecharge
  cmdVcomh := 0xDB#8
  pVcomh := Config.pVcomh
  cmdStartLine := 0xDC#8
  pStartLine := Config.pStartLine

/-- The configuration a reset input stands for: each omitted parameter takes its default (R6, R280). -/
def ResetInput.toCfg (r : ResetInput) : Cfg where
  width := r.width
  height := r.height
  dataSize := r.dataSize
  devAddr := BitVec.ofNat 7 (r.devAddr.getD 0x3C)
  regCmd := r.regCmd.getD 0x00#8
  regData := r.regData.getD 0x40#8
  pageBase := r.pageBase.getD 0xB0#8
  colFraming := r.colFraming.getD .split
  dirtyPolicy := r.dirtyPolicy.getD .global
  initSeq := r.initSeq.getD (defaultInitSeq defaultBytes (r.pageBase.getD 0xB0#8))

/-- Every entry of `INIT_SEQ` has 1 to `DATA_SIZE` bytes (R200, R281). -/
def initSeqFits (dataSize : Nat) (entries : List (List Byte)) : Bool :=
  entries.all fun e => decide (1 ≤ e.length ∧ e.length ≤ dataSize)

/-- Configuration validity (R281), but for the range of `DEV_ADDR`, which the type of `Cfg.devAddr` gives. -/
def Cfg.valid (c : Cfg) : Bool :=
  decide (1 ≤ c.width ∧ c.width ≤ 256)
    && decide (8 ≤ c.height ∧ c.height ≤ 256 ∧ c.height % 8 = 0)
    && decide (1 ≤ c.dataSize ∧ c.dataSize ≤ 65535)
    && decide (c.regCmd ≠ c.regData)
    && decide (c.pageBase.toNat + c.npages - 1 ≤ 0xFF)
    && initSeqFits c.dataSize c.initSeq
    && decide (c.colFraming = .joined → 2 ≤ c.dataSize)

/-- The check the reset input makes (R281), with `0 ≤ DEV_ADDR ≤ 0x7F`. -/
def ResetInput.valid (r : ResetInput) : Bool :=
  decide (r.devAddr.getD 0x3C ≤ 0x7F) && r.toCfg.valid

/-- The reference configuration of spec/95_test_vectors.md (CFG0): 128 columns, 64 rows, 32-byte chunks, every other
parameter at its default. `WIDTH`, `HEIGHT` and `DATA_SIZE` are OPEN in the spec; these three are the model's choice for
`State.reset` (DESIGN CHOICE, log 5). -/
def referenceInput : ResetInput where
  width := 128
  height := 64
  dataSize := 32
  devAddr := none
  regCmd := none
  regData := none
  pageBase := none
  colFraming := none
  dirtyPolicy := none
  initSeq := none

end Sys2Proof
end

