-- ==== Sys2Proof/Machine/State.lean ====
section
/-! DEFINITION. The state of the block as plain data (spec/10_state.md R30 to R45), the two agents around it as lists of
events still to come (spec/00_scope.md R9), the reasons a step can stop, and the state after reset (R44). -/

namespace Sys2Proof.Machine

/-- The phase of a transport write's tag (R142). -/
inductive Phase where
  | cmd
  | addr
  | data
  | initCmd
  | clear
  deriving DecidableEq, Repr

/-- `Tag` (R142): what a transport write is for within its operation. -/
structure Tag where
  phase : Phase
  /-- The index into `INIT_SEQ`, for an INITCMD write. -/
  entry : Option Nat
  /-- The page being addressed or flushed. -/
  page : Option Nat
  /-- The chunk index within one payload. -/
  chunk : Option Nat
  deriving DecidableEq, Repr

/-- The value of a response (R38, R107): empty, a byte (BUF_READ), or a vector with bit p at place p (DIRTY_STATUS,
log 16). -/
inductive RspValue where
  | empty
  | byte (b : Byte)
  | bits (d : List Bool)
  deriving DecidableEq, Repr

/-- `Action` (R142): one element of a plan. -/
inductive Action where
  /-- One transport write. -/
  | wr (reg : Byte) (payload : List Byte) (tag : Tag)
  /-- `BUF[i] <- 0x00` for every i. -/
  | zeroBuf
  /-- `DIRTY[p] <- 0` for the listed pages. -/
  | clearDirty (pages : List Nat)
  /-- `INIT <- 1`. -/
  | setInit
  /-- `BUF[i] <- v` and `DIRTY[i div WIDTH] <- 1`. -/
  | bufSet (index : Nat) (value : Byte)
  /-- Records the response value. -/
  | ret (value : RspValue)
  deriving DecidableEq, Repr

/-- The result of a transport event (R37). -/
inductive TxResult where
  | pending
  | ok
  | fail
  | abandoned
  deriving DecidableEq, Repr

/-- A transport event of `TXLOG` (R37). -/
structure TxEvent where
  addr : DevAddr
  reg : Byte
  payload : List Byte
  tag : Tag
  result : TxResult
  deriving DecidableEq, Repr

/-- The status of a response (R107, R251). -/
inductive Status where
  /-- 0x00. -/
  | ok
  /-- 0x01. -/
  | transportFail
  deriving DecidableEq, Repr

/-- The failure record (R252). -/
structure FailRecord where
  op : Byte
  wrIndex : Nat
  tag : Tag
  deriving DecidableEq, Repr

/-- A response of `RSPLOG` (R38). -/
structure Response where
  op : Byte
  status : Status
  value : RspValue
  fail : Option FailRecord
  deriving DecidableEq, Repr

/-- The refusal reasons of R253, by name; their codes are `Reason.code`. -/
inductive Reason where
  | unknownOp
  | busy
  | reservedBits
  | lengthMismatch
  | uninit
  | pageRange
  | indexRange
  | pixelRange
  | emptyCmd
  | cmdTooLong
  | badConfig
  | fieldRange
  deriving DecidableEq, Repr

/-- What `SEQ` holds while busy (R36), with the stored RET value of R147. -/
structure Busy where
  op : Byte
  plan : List Action
  pc : Nat
  pending : Bool
  nwr : Nat
  ret : RspValue
  deriving DecidableEq, Repr

/-- `SEQ` (R36). -/
inductive Seq where
  | idle
  | busy (b : Busy)
  deriving DecidableEq, Repr

/-- What the host can do to the block (R9): present a request word with its payload stream (R141), or drive the reset
input (R280). -/
inductive HostAct where
  | request (word : ReqWord) (payload : List Byte)
  | reset (input : ResetInput)
  deriving DecidableEq, Repr

/-- One event of the host still to come (log 2). -/
inductive HostEvent where
  /-- The host does nothing during one step. -/
  | pause
  /-- The host acts now, whatever the sequencer does. -/
  | present (a : HostAct)
  /-- The host acts as soon as the sequencer is idle: a caller that waits for its response (R285). -/
  | call (a : HostAct)
  deriving DecidableEq, Repr

/-- One answer of the transport still to come (R146). -/
inductive Answer where
  | ok
  | fail
  deriving DecidableEq, Repr

/-- `BUF` as a list of (index, byte), indices strictly rising; an index that is not listed holds ⊥ (R33, R44, log 8). -/
abbrev Memory := List Host.Cell

/-- The state of the block. -/
structure State where
  /-- `CFG` (R32, R41). -/
  cfg : Cfg
  /-- `BUF` (R33). -/
  buf : Memory
  /-- `DIRTY` (R34), page p at place p; `none` is ⊥ (log 8). -/
  dirty : List (Option Bool)
  /-- `INIT` (R35). -/
  init : Bool
  /-- `SEQ` (R36). -/
  seq : Seq
  /-- `TXLOG` (R37). -/
  txlog : List TxEvent
  /-- `RSPLOG` (R38). -/
  rsplog : List Response
  /-- `REFUSED` (R39): the mark is set when a reason is there; the reason is the one reported (R256, log 4). -/
  refused : Option Reason
  /-- The model's own field (log 1): the host's events still to come, the next one first. -/
  host : List HostEvent
  /-- The model's own field (log 1): the transport's answers still to come, the next one first; none left is a transport
  that does not answer (R146). -/
  answers : List Answer
  deriving DecidableEq, Repr

/-- Why the machine stops with a fault. None is reachable from a state that meets `Invariant` of Safety. -/
inductive Fault where
  /-- Raised by UPDATE, BUF_READ and SET_PIXEL: a ⊥ cell of `BUF` would be read (R12, R44). Safe: the model stops. -/
  | bufUnspecified
  /-- Raised by DIRTY_STATUS: a ⊥ cell of `DIRTY` would be read (R12, R44). Safe: the model stops. -/
  | dirtyUnspecified
  /-- Raised by a step of the sequencer or of the transport in a state that R36 rules out: `pc` beyond the plan, or a
  pending write where the plan's action is no write or `TXLOG` is empty (log 15). Safe: the model stops. -/
  | sequencerIllFormed
  deriving DecidableEq, Repr

/-- Why a step has no meaning. -/
inductive Refusal where
  /-- An instruction whose meaning is not written yet, by its mnemonic. Raised by exec's arms only. Safe. -/
  | notModelled (mnemonic : String)
  /-- Raised by every step and every meaning while `REFUSED = 1`: the model admits no further step (R39, R253). Safe. -/
  | afterRefusal
  /-- Raised by the meanings of the controller command rows where the block is not about to issue that command: ISSUE of
  a command write with these bytes is not enabled (R143, log 9). Safe. -/
  | commandNotEnabled
  deriving DecidableEq, Repr

/-- The outcome of a step of this machine. -/
abbrev Out := Host.Outcome State Fault Refusal

/-- The machine right after the reset input with the reference configuration (R44; log 5 for the OPEN sizes). -/
def State.reset : State where
  cfg := referenceInput.toCfg
  buf := []
  dirty := List.replicate referenceInput.toCfg.npages none
  init := false
  seq := .idle
  txlog := []
  rsplog := []
  refused := none
  host := []
  answers := []

end Sys2Proof.Machine
end

