-- ==== Sys2Proof/Machine/Ops.lean ====
section
/-! DEFINITION. The shared operations: the pixel buffer as memory, updates of State, refusing and responding, the
execution steps of the sequencer (spec/40_sequencer.md R141 to R148), the abort (spec/60_exceptions.md R254) and the
reset (spec/70_reset_and_hazards.md R282, R283). -/

namespace Sys2Proof.Machine

/-! ### The pixel buffer -/

/-- What an index of `BUF` that is not listed reads as: ⊥, no value (R12, R44, log 8). -/
def Memory.unlisted : Option Byte := none

/-- `BufRead(i)` (R12): the byte of cell i, or ⊥. -/
def Memory.read (m : Memory) (i : Nat) : Option Byte :=
  match m with
  | [] => Memory.unlisted
  | (k, b) :: rest => if k = i then some b else Memory.read rest i

/-- `BufWrite(i, v)` (R12), keeping the indices strictly rising. -/
def Memory.write (m : Memory) (i : Nat) (v : Byte) : Memory :=
  match m with
  | [] => [(i, v)]
  | (k, b) :: rest =>
    if i < k then (i, v) :: (k, b) :: rest
    else if i = k then (i, v) :: rest
    else (k, b) :: Memory.write rest i v

/-- `ZERO_BUF` (R142): cells 0 to n-1 hold 0x00. -/
def Memory.zeros (n : Nat) : Memory := (List.range n).map fun i => (i, 0x00#8)

/-- The bytes of the cells i to i+n-1, or nothing where one of them is ⊥. -/
def Memory.readBytes (m : Memory) (i n : Nat) : Option (List Byte) :=
  match n with
  | 0 => some []
  | n + 1 =>
    match m.read i with
    | none => none
    | some b =>
      match Memory.readBytes m (i + 1) n with
      | none => none
      | some bs => some (b :: bs)

/-- Canonical form: strictly rising indices (so no index is listed twice, and no entry says ⊥). -/
def Memory.wf (m : Memory) : Bool :=
  match m with
  | [] => true
  | [_] => true
  | (i, _) :: (j, c) :: rest => decide (i < j) && Memory.wf ((j, c) :: rest)

/-! ### Updates of State, one field each -/

/-- Latch `CFG`. -/
def State.setCfg (s : State) (v : Cfg) : State := { s with cfg := v }
/-- Replace `BUF`. -/
def State.setBuf (s : State) (v : Memory) : State := { s with buf := v }
/-- Replace `DIRTY`. -/
def State.setDirty (s : State) (v : List (Option Bool)) : State := { s with dirty := v }
/-- Write `INIT`. -/
def State.setInit (s : State) (v : Bool) : State := { s with init := v }
/-- Write `SEQ`. -/
def State.setSeq (s : State) (v : Seq) : State := { s with seq := v }
/-- Replace `TXLOG`. -/
def State.setTxlog (s : State) (v : List TxEvent) : State := { s with txlog := v }
/-- Replace `RSPLOG`. -/
def State.setRsplog (s : State) (v : List Response) : State := { s with rsplog := v }
/-- Write the `REFUSED` mark and its reason. -/
def State.setRefused (s : State) (v : Option Reason) : State := { s with refused := v }
/-- Replace the host's events still to come. -/
def State.setHost (s : State) (v : List HostEvent) : State := { s with host := v }
/-- Replace the transport's answers still to come. -/
def State.setAnswers (s : State) (v : List Answer) : State := { s with answers := v }

/-! ### Codes -/

/-- The status code (R107, R251). -/
def Status.code : Status → Byte
  | .ok => 0x00#8
  | .transportFail => 0x01#8

/-- The numeric label of a refusal reason (R253). -/
def Reason.code : Reason → Nat
  | .unknownOp => 1
  | .busy => 2
  | .reservedBits => 3
  | .lengthMismatch => 4
  | .uninit => 5
  | .pageRange => 6
  | .indexRange => 7
  | .pixelRange => 8
  | .emptyCmd => 9
  | .cmdTooLong => 10
  | .badConfig => 11
  | .fieldRange => 12

/-- The frame a transport write puts on the bus after the device address: `[reg] ++ payload` (R75). -/
def TxEvent.frame (e : TxEvent) : List Byte := e.reg :: e.payload

/-! ### Refusing and responding -/

/-- `refuse <Reason>` (R253): set the sticky mark, write nothing else. -/
def refuse (r : Reason) (s : State) : Out := .next (s.setRefused (some r))

/-- `respond(OK, value)` (R148): append a response. -/
def respondOk (op : Byte) (v : RspValue) (s : State) : State :=
  s.setRsplog (s.rsplog ++ [{ op := op, status := .ok, value := v, fail := none }])

/-! ### Accepting -/

/-- `SEQ <- Busy{op, plan, pc = 0, pending = 0, nwr = 0}` (R141). -/
def acceptPlan (op : Op) (plan : List Action) (s : State) : Out :=
  .next (s.setSeq (.busy { op := op.code, plan := plan, pc := 0, pending := false, nwr := 0, ret := .empty }))

/-! ### Local actions -/

/-- `DIRTY[p] <- 0` for the listed pages (R142). -/
def clearPages (pages : List Nat) (d : List (Option Bool)) : List (Option Bool) :=
  match pages with
  | [] => d
  | p :: rest => clearPages rest (d.set p (some false))

/-- What a local action does to State, as R142 defines it; a transport write is no local action. -/
def localEffect (a : Action) (s : State) : State :=
  match a with
  | .wr _ _ _ => s
  | .zeroBuf => s.setBuf (Memory.zeros s.cfg.nbytes)
  | .clearDirty pages => s.setDirty (clearPages pages s.dirty)
  | .setInit => s.setInit true
  | .bufSet i v => (s.setBuf (s.buf.write i v)).setDirty (s.dirty.set (i / s.cfg.width) (some true))
  | .ret _ => s

/-- The response value after a local action: RET stores one (R147). -/
def localValue (a : Action) (v : RspValue) : RspValue :=
  match a with
  | .ret r => r
  | .wr _ _ _ => v
  | .zeroBuf => v
  | .clearDirty _ => v
  | .setInit => v
  | .bufSet _ _ => v

/-- The effects of a list of local actions in order. -/
def runLocals (plan : List Action) (s : State) : State :=
  match plan with
  | [] => s
  | a :: rest => runLocals rest (localEffect a s)

/-- The response value after a list of actions. -/
def planValue (plan : List Action) (v : RspValue) : RspValue :=
  match plan with
  | [] => v
  | a :: rest => planValue rest (localValue a v)

/-- An immediate operation (R149): ACCEPT, its LOCAL steps and DONE as one atomic step (log 11). -/
def runImmediate (op : Op) (plan : List Action) (s : State) : Out :=
  .next (respondOk op.code (planValue plan .empty) (runLocals plan s))

/-! ### The steps of a running plan -/

/-- The next action of a busy sequencer, `plan[pc]`. -/
def Busy.action (b : Busy) : Option Action := b.plan[b.pc]?

/-- ISSUE (R143): log the write as pending, with address `DEV_ADDR` (R74). -/
def issue (reg : Byte) (payload : List Byte) (tag : Tag) (b : Busy) (s : State) : State :=
  (s.setTxlog (s.txlog ++
      [{ addr := s.cfg.devAddr, reg := reg, payload := payload, tag := tag, result := .pending }])).setSeq
    (.busy { b with pending := true })

/-- LOCAL (R147): apply the action, store a RET value, advance `pc`. -/
def localStep (a : Action) (b : Busy) (s : State) : State :=
  (localEffect a s).setSeq (.busy { b with pc := b.pc + 1, ret := localValue a b.ret })

/-- DONE (R148): respond OK with the stored value and go idle. -/
def done (b : Busy) (s : State) : State := (respondOk b.op b.ret s).setSeq .idle

/-- `last(TXLOG).result <- r` (R144, R145, R283). -/
def setLastResult (r : TxResult) (log : List TxEvent) : List TxEvent :=
  match log with
  | [] => []
  | [e] => [{ e with result := r }]
  | e :: f :: rest => e :: setLastResult r (f :: rest)

/-- TX_OK (R144). -/
def txOk (b : Busy) (s : State) : State :=
  (s.setTxlog (setLastResult .ok s.txlog)).setSeq
    (.busy { b with pending := false, nwr := b.nwr + 1, pc := b.pc + 1 })

/-- The abort effect of an operation (R254): a failed INITIALIZE clears `INIT` and leaves every cell of `BUF` and
`DIRTY` ⊥ (R205); every other operation has none. -/
def abortEffect (op : Byte) (s : State) : State :=
  if op = Op.initializeDisplay.code then
    ((s.setInit false).setBuf []).setDirty (List.replicate s.cfg.npages none)
  else s

/-- TAKING THE EXCEPTION: `raise TransportFailure(info)` (R254): append the failed response, apply the abort effect, go
idle. There is no return operation beside it: the host goes on with its next request (R259, R260). -/
def raiseTransportFailure (info : FailRecord) (s : State) : State :=
  (abortEffect info.op
    (s.setRsplog (s.rsplog ++
      [{ op := info.op, status := .transportFail, value := .empty, fail := some info }]))).setSeq .idle

/-- TX_FAIL (R145): the failure record names the operation, the number of completed writes and the failing write's
tag. -/
def txFail (tag : Tag) (b : Busy) (s : State) : State :=
  raiseTransportFailure { op := b.op, wrIndex := b.nwr, tag := tag } (s.setTxlog (setLastResult .fail s.txlog))

/-- The transport answers the pending write (R144, R145). A pending write without a write action or without an event in
`TXLOG` is no state of R36 (log 15). -/
def answerWrite (a : Answer) (b : Busy) (s : State) : Out :=
  match b.action, s.txlog with
  | some (.wr _ _ tag), _ :: _ =>
    match a with
    | .ok => .next (txOk b s)
    | .fail => .next (txFail tag b s)
  | _, _ => .fault .sequencerIllFormed

/-- The sequencer's own step while no write is pending: ISSUE, LOCAL or DONE, at most one of them enabled (R150). -/
def sequencerStep (b : Busy) (s : State) : Out :=
  match b.action with
  | some (.wr reg payload tag) => .next (issue reg payload tag b s)
  | some a => .next (localStep a b s)
  | none => if b.pc = b.plan.length then .next (done b s) else .fault .sequencerIllFormed

/-- What the block and the transport do when the host does not act (R150): a pending write waits for its answer, and for
ever if none comes (R146, R153); a busy sequencer takes its step; an idle one waits (log 3). -/
def blockStep (s : State) : Out :=
  match s.seq with
  | .idle => .next s
  | .busy b =>
    if b.pending then
      match s.answers with
      | [] => .next s
      | a :: rest => answerWrite a b (s.setAnswers rest)
    else sequencerStep b s

/-! ### A controller command on its way out -/

/-- The meaning of a controller command row: the ISSUE step (R143) of a command write with these bytes (R100 (c), R160).
It is enabled when the sequencer is busy, no write is pending and `plan[pc]` is that write (log 9). -/
def emitCommand (bytes : List Byte) (s : State) : Out :=
  if s.refused.isSome then .refused .afterRefusal
  else
    match s.seq with
    | .idle => .refused .commandNotEnabled
    | .busy b =>
      match b.pending, b.action with
      | false, some (.wr reg payload tag) =>
        if reg = s.cfg.regCmd ∧ payload = bytes then .next (issue reg payload tag b s)
        else .refused .commandNotEnabled
      | _, _ => .refused .commandNotEnabled

/-! ### Reset -/

/-- A pending write that a reset abandons (R283). -/
def abandonPending (s : State) : List TxEvent :=
  match s.seq with
  | .idle => s.txlog
  | .busy b => if b.pending then setLastResult .abandoned s.txlog else s.txlog

/-- The effect of a valid reset (R282, R283): the values of R44; the logs and the mark stay. -/
def resetTo (c : Cfg) (s : State) : State :=
  (((((s.setTxlog (abandonPending s)).setCfg c).setInit false).setSeq .idle).setBuf []).setDirty
    (List.replicate c.npages none)

/-- RESET(cfg) (R280, R281): a configuration that is not valid is refused. -/
def resetInput (r : ResetInput) (s : State) : Out :=
  if s.refused.isSome then .refused .afterRefusal
  else if r.valid then .next (resetTo r.toCfg s)
  else refuse .badConfig s

end Sys2Proof.Machine
end

