-- ==== Sys2Proof/Machine/Operands.lean ====
section
/-! DEFINITION. Operand assembly and plan fragments: the command bytes of the addressing encoder (spec/30_encoding.md R109
to R111, R114), chunking (spec/41_framer.md R162), the fragments CMDW, DATAW, PAGECMD, COLCMD, POSCMD, FLUSH and the plan
of INITIALIZE (R160, R163, R180, R182, R184, R202, R220), and the pixel map (spec/20_memory.md R71 to R73). -/

namespace Sys2Proof.Machine

/-! ### Bytes of the encoder -/

/-- The set-page command byte `PAGE_BASE + p` (R109). -/
def pageByte (c : Cfg) (p : Nat) : Byte := c.pageBase + BitVec.ofNat 8 p

/-- The set-column-low command byte `x & 0x0F` (R110). -/
def colLow (x : Byte) : Byte := x &&& 0x0F#8

/-- `COL_HI_MARK` (R6, R111). -/
def colHiMark : Byte := 0x10#8

/-- The set-column-high command byte `COL_HI_MARK | ((x & 0xF0) >> 4)` (R111). -/
def colHigh (x : Byte) : Byte := colHiMark ||| ((x &&& 0xF0#8) >>> 4)

/-! ### Chunks -/

/-- `ceil(a/b)` (R10). -/
def ceilDiv (a b : Nat) : Nat := (a + b - 1) / b

/-- `Chunks(bs)` with chunk limit C (R162): chunk k is `bs[k*C .. min((k+1)*C, L))`. -/
def chunks (size : Nat) (bs : List Byte) : List (List Byte) :=
  (List.range (ceilDiv bs.length size)).map fun k => (bs.drop (k * size)).take size

/-! ### Tags and fragments -/

/-- The tag of a raw command write (R161). -/
def cmdTag : Tag := { phase := .cmd, entry := none, page := none, chunk := none }

/-- The tag of an addressing write (R180, R182). -/
def addrTag (ph : Phase) (page : Option Nat) : Tag := { phase := ph, entry := none, page := page, chunk := none }

/-- The tag of the write of entry e of `INIT_SEQ` (R202). -/
def entryTag (e : Nat) : Tag := { phase := .initCmd, entry := some e, page := none, chunk := none }

/-- The tag of chunk k of a data payload (R163). -/
def dataTag (ph : Phase) (page : Option Nat) (k : Nat) : Tag :=
  { phase := ph, entry := none, page := page, chunk := some k }

/-- `CMDW(bs, tag)` (R160): one transport write with the command selector. -/
def cmdW (c : Cfg) (bs : List Byte) (t : Tag) : List Action := [.wr c.regCmd bs t]

/-- The data writes of a list of chunks, numbered from k. -/
def dataChunksFrom (c : Cfg) (ph : Phase) (page : Option Nat) (k : Nat) (cs : List (List Byte)) : List Action :=
  match cs with
  | [] => []
  | bs :: rest => .wr c.regData bs (dataTag ph page k) :: dataChunksFrom c ph page (k + 1) rest

/-- `DATAW(bs, tag)` (R163): one transport write per chunk, in order. -/
def dataW (c : Cfg) (bs : List Byte) (ph : Phase) (page : Option Nat) : List Action :=
  dataChunksFrom c ph page 0 (chunks c.dataSize bs)

/-- `PAGECMD(p, ph)` (R180). -/
def pageCmd (c : Cfg) (p : Nat) (ph : Phase) : List Action := cmdW c [pageByte c p] (addrTag ph (some p))

/-- `COLCMD(x, pg, ph)` (R182): low byte first, in two writes (SPLIT) or one (JOINED). -/
def colCmd (c : Cfg) (x : Byte) (page : Option Nat) (ph : Phase) : List Action :=
  match c.colFraming with
  | .split => cmdW c [colLow x] (addrTag ph page) ++ cmdW c [colHigh x] (addrTag ph page)
  | .joined => cmdW c [colLow x, colHigh x] (addrTag ph page)

/-- `POSCMD(x, p, ph)` (R184): the page, then the column. -/
def posCmd (c : Cfg) (x : Byte) (p : Nat) (ph : Phase) : List Action := pageCmd c p ph ++ colCmd c x (some p) ph

/-- The pages a..b in ascending order, none when a > b (R11, R220, R224). -/
def pagesFromTo (a b : Nat) : List Nat := List.range' a (b + 1 - a)

/-- The `WIDTH` bytes of page p, `BUF[p*WIDTH .. p*WIDTH + WIDTH)` (R72), or nothing where a cell is ⊥. -/
def pageBytes (c : Cfg) (m : Memory) (p : Nat) : Option (List Byte) := m.readBytes (p * c.width) c.width

/-- The writes of one page's flush (R220). -/
def flushPage (c : Cfg) (p : Nat) (bs : List Byte) : List Action :=
  posCmd c 0x00#8 p .addr ++ dataW c bs .data (some p)

/-- The flush of the listed pages in order, or nothing where a cell of one of them is ⊥. -/
def flushPages (c : Cfg) (m : Memory) (pages : List Nat) : Option (List Action) :=
  match pages with
  | [] => some []
  | p :: rest =>
    match pageBytes c m p with
    | none => none
    | some bs =>
      match flushPages c m rest with
      | none => none
      | some acts => some (flushPage c p bs ++ acts)

/-- `FLUSH(a, b)` (R220). -/
def flush (c : Cfg) (m : Memory) (a b : Nat) : Option (List Action) := flushPages c m (pagesFromTo a b)

/-- The pages a successful UPDATE clears, `S` (R221, R222). -/
def updateClears (c : Cfg) (a b : Nat) : List Nat :=
  match c.dirtyPolicy with
  | .global => List.range c.npages
  | .range => pagesFromTo a b

/-- The command phase of INITIALIZE: one command write per entry, numbered from e (R200, R202). -/
def entryWritesFrom (c : Cfg) (e : Nat) (entries : List (List Byte)) : List Action :=
  match entries with
  | [] => []
  | bs :: rest => cmdW c bs (entryTag e) ++ entryWritesFrom c (e + 1) rest

/-- The clear of one page: its position, then `WIDTH` zero bytes (R203). -/
def clearPage (c : Cfg) (p : Nat) : List Action :=
  posCmd c 0x00#8 p .clear ++ dataW c (List.replicate c.width 0x00#8) .clear (some p)

/-- The clear of the listed pages in order (R202, R203). -/
def clearPageWrites (c : Cfg) (pages : List Nat) : List Action :=
  match pages with
  | [] => []
  | p :: rest => clearPage c p ++ clearPageWrites c rest

/-- The plan of INITIALIZE (R202): it depends on `CFG` only (R206). -/
def initPlan (c : Cfg) : List Action :=
  entryWritesFrom c 0 c.initSeq ++ [.zeroBuf] ++ clearPageWrites c (List.range c.npages)
    ++ [.clearDirty (List.range c.npages), .setInit]

/-! ### Pixels -/

/-- The buffer index of pixel (x, y) (R73). -/
def pixelIndex (c : Cfg) (x y : Nat) : Nat := y / 8 * c.width + x

/-- The mask of pixel row y within its byte (R73, R242): bit `y mod 8`. -/
def pixelMask (y : Nat) : Byte := 1#8 <<< (y % 8)

/-- The byte after setting or clearing a pixel (R242). -/
def pixelByte (old : Byte) (y : Nat) (on : Bool) : Byte :=
  if on then old ||| pixelMask y else old &&& ~~~(pixelMask y)

end Sys2Proof.Machine
end

