-- ==== Sys2Proof/Machine/Flags.lean ====
section
/-! DEFINITION. The status bits INIT, BUSY, DIRTY and REFUSED (spec/10_state.md R42, R41) as the operations read them,
and the admission checks that come before an operation's own (spec/40_sequencer.md R141, spec/60_exceptions.md R256). -/

namespace Sys2Proof.Machine

/-- `BUSY` = (`SEQ ≠ Idle`) (R41 F1). -/
def State.isBusy (s : State) : Bool :=
  match s.seq with
  | .idle => false
  | .busy _ => true

/-- The `REFUSED` bit (R39). -/
def State.isRefused (s : State) : Bool := s.refused.isSome

/-- `d`, the `NPAGES`-bit vector of the dirty tracker with `d[p] = DIRTY[p]` (R243), or nothing where a bit is ⊥. -/
def dirtyBits (d : List (Option Bool)) : Option (List Bool) :=
  match d with
  | [] => some []
  | none :: _ => none
  | some b :: rest =>
    match dirtyBits rest with
    | none => none
    | some bs => some (b :: bs)

/-- Admission (R141, R256): no step while `REFUSED = 1`, then `REF_BUSY`, then `REF_UNINIT` for the operations that need
`INIT = 1`; `k` is what the operation does when it is admitted. -/
def whenAdmitted (needsInit : Bool) (s : State) (k : Out) : Out :=
  if s.isRefused then .refused .afterRefusal
  else if s.isBusy then refuse .busy s
  else if needsInit && !s.init then refuse .uninit s
  else k

end Sys2Proof.Machine
end

