-- ==== Sys2Proof/Machine/Addressing.lean ====
section
/-! DEFINITION. SET_PAGE, SET_COLUMN and SET_POSITION (spec/42_addressing.md R181, R183, R185). -/

namespace Sys2Proof.Machine

/-- SET_PAGE (R181): refused with `REF_PAGE_RANGE` at or beyond `NPAGES`. -/
def execSetPage (page : Byte) (s : State) : Out :=
  whenAdmitted false s
    (if s.cfg.npages ≤ page.toNat then refuse .pageRange s
     else acceptPlan .setPage (pageCmd s.cfg page.toNat .addr) s)

/-- SET_COLUMN (R183): every column is admitted; the tag names no page. -/
def execSetColumn (col : Byte) (s : State) : Out :=
  whenAdmitted false s (acceptPlan .setColumn (colCmd s.cfg col none .addr) s)

/-- SET_POSITION (R185): the page, then the column, in one request. -/
def execSetPosition (col page : Byte) (s : State) : Out :=
  whenAdmitted false s
    (if s.cfg.npages ≤ page.toNat then refuse .pageRange s
     else acceptPlan .setPosition (posCmd s.cfg col page.toNat .addr) s)

end Sys2Proof.Machine
end

