-- ==== Sys2Proof/Machine/BufferAccess.lean ====
section
/-! DEFINITION. BUF_WRITE, BUF_READ, SET_PIXEL and DIRTY_STATUS (spec/45_buffer_access.md R240 to R243): immediate
operations, taken as one atomic step each (R149, log 11). -/

namespace Sys2Proof.Machine

/-- BUF_WRITE (R240): the byte is written and its page marked dirty. -/
def execBufWrite (index : BufIndex) (value : Byte) (s : State) : Out :=
  whenAdmitted true s
    (if s.cfg.nbytes ≤ index.toNat then refuse .indexRange s
     else runImmediate .bufWrite [.bufSet index.toNat value] s)

/-- BUF_READ (R241): the response carries the byte; a ⊥ cell is a fault of the model (R12, R44). -/
def execBufRead (index : BufIndex) (s : State) : Out :=
  whenAdmitted true s
    (if s.cfg.nbytes ≤ index.toNat then refuse .indexRange s
     else
       match s.buf.read index.toNat with
       | none => .fault .bufUnspecified
       | some b => runImmediate .bufRead [.ret (.byte b)] s)

/-- SET_PIXEL (R242): one bit of one byte is written and its page marked dirty. -/
def execSetPixel (x y : Byte) (on : Bool) (s : State) : Out :=
  whenAdmitted true s
    (if s.cfg.width ≤ x.toNat ∨ s.cfg.height ≤ y.toNat then refuse .pixelRange s
     else
       match s.buf.read (pixelIndex s.cfg x.toNat y.toNat) with
       | none => .fault .bufUnspecified
       | some old =>
         runImmediate .setPixel [.bufSet (pixelIndex s.cfg x.toNat y.toNat) (pixelByte old y.toNat on)] s)

/-- DIRTY_STATUS (R243): the response carries the dirty bits; a ⊥ bit is a fault of the model (R12, R44). -/
def execDirtyStatus (s : State) : Out :=
  whenAdmitted true s
    (match dirtyBits s.dirty with
     | none => .fault .dirtyUnspecified
     | some d => runImmediate .dirtyStatus [.ret (.bits d)] s)

end Sys2Proof.Machine
end

