-- ==== Sys2Proof/Machine/Controller.lean ====
section
/-! DEFINITION. The controller command rows (spec/30_encoding.md R100 (c), R109 to R112; spec/43_initialization.md R201):
each is the ISSUE step of a command write that carries exactly the row's bytes (R143, log 9). The block does not
interpret them (R113); what the controller does with them is not modelled (R90). -/

namespace Sys2Proof.Machine

/-- CTL_SET_COLUMN_LOW: `0000 llll` (R110). -/
def execCtlSetColumnLow (llll : BitVec 4) (s : State) : Out := emitCommand [0x0#4 ++ llll] s

/-- CTL_SET_COLUMN_HIGH: `0001 hhhh` (R111). -/
def execCtlSetColumnHigh (hhhh : BitVec 4) (s : State) : Out := emitCommand [0x1#4 ++ hhhh] s

/-- CTL_SET_PAGE: `PAGE_BASE + page` (R109). -/
def execCtlSetPage (page : Byte) (s : State) : Out := emitCommand [s.cfg.pageBase + page] s

/-- CTL_DISPLAY_OFF: 0xAE (R201 E0). -/
def execCtlDisplayOff (s : State) : Out := emitCommand [0xAE#8] s

/-- CTL_DISPLAY_ON: 0xAF (R201 E17). -/
def execCtlDisplayOn (s : State) : Out := emitCommand [0xAF#8] s

/-- CTL_CLOCK_DIVIDE: 0xD5, 0x50 in one write (R201 E1). -/
def execCtlClockDivide (s : State) : Out := emitCommand [0xD5#8, 0x50#8] s

/-- CTL_ADDR_MODE: 0x20 (R201 E4). -/
def execCtlAddrMode (s : State) : Out := emitCommand [0x20#8] s

/-- CTL_CONTRAST: 0x81 and its parameter in one write (R201 E5). -/
def execCtlContrast (param : Byte) (s : State) : Out := emitCommand [0x81#8, param] s

/-- CTL_SEG_REMAP: 0xA0 or 0xA1 (R201 E6). -/
def execCtlSegRemap (r : BitVec 1) (s : State) : Out := emitCommand [0b1010000#7 ++ r] s

/-- CTL_MUX: 0xA8 and its parameter in one write (R201 E7). -/
def execCtlMux (param : Byte) (s : State) : Out := emitCommand [0xA8#8, param] s

/-- CTL_ENTIRE_OFF: 0xA4 (R201 E8). -/
def execCtlEntireOff (s : State) : Out := emitCommand [0xA4#8] s

/-- CTL_NORMAL: 0xA6 (R201 E9). -/
def execCtlNormal (s : State) : Out := emitCommand [0xA6#8] s

/-- CTL_OFFSET: 0xD3 and its parameter in one write (R201 E10). -/
def execCtlOffset (param : Byte) (s : State) : Out := emitCommand [0xD3#8, param] s

/-- CTL_DCDC: 0xAD and its parameter in one write (R201 E11). -/
def execCtlDcdc (param : Byte) (s : State) : Out := emitCommand [0xAD#8, param] s

/-- CTL_COM_SCAN: 0xC0 or 0xC8 (R201 E13). -/
def execCtlComScan (d : BitVec 1) (s : State) : Out := emitCommand [0xC#4 ++ d ++ 0#3] s

/-- CTL_PRECHARGE: 0xD9 and its parameter in one write (R201 E14). -/
def execCtlPrecharge (param : Byte) (s : State) : Out := emitCommand [0xD9#8, param] s

/-- CTL_VCOMH: 0xDB and its parameter in one write (R201 E15). -/
def execCtlVcomh (param : Byte) (s : State) : Out := emitCommand [0xDB#8, param] s

/-- CTL_START_LINE: 0xDC and its parameter in one write (R201 E16). -/
def execCtlStartLine (param : Byte) (s : State) : Out := emitCommand [0xDC#8, param] s

end Sys2Proof.Machine
end

