-- ==== Sys2Proof/Machine/Framer.lean ====
section
/-! DEFINITION. SEND_COMMAND and SEND_DATA (spec/41_framer.md R161, R164). -/

namespace Sys2Proof.Machine

/-- SEND_COMMAND (R161): one command write of the whole payload; refused when empty or longer than `DATA_SIZE`. -/
def execSendCommand (payload : List Byte) (s : State) : Out :=
  whenAdmitted false s
    (if payload.length = 0 then refuse .emptyCmd s
     else if s.cfg.dataSize < payload.length then refuse .cmdTooLong s
     else acceptPlan .sendCommand (cmdW s.cfg payload cmdTag) s)

/-- SEND_DATA (R164): the payload in chunks, one data write each. -/
def execSendData (payload : List Byte) (s : State) : Out :=
  whenAdmitted false s (acceptPlan .sendData (dataW s.cfg payload .data none) s)

end Sys2Proof.Machine
end

