-- ==== Sys2Proof/Machine/Initialization.lean ====
section
/-! DEFINITION. INITIALIZE (spec/43_initialization.md R202 to R207). -/

namespace Sys2Proof.Machine

/-- INITIALIZE (R202): admitted whatever `INIT` is; its plan depends on `CFG` only (R206). -/
def execInitializeDisplay (s : State) : Out :=
  whenAdmitted false s (acceptPlan .initializeDisplay (initPlan s.cfg) s)

end Sys2Proof.Machine
end

