-- ==== Sys2Proof/Machine/Update.lean ====
section
/-! DEFINITION. UPDATE (spec/44_update.md R220 to R226). -/

namespace Sys2Proof.Machine

/-- UPDATE (R221): start is checked before end (R256); start > end is admitted and writes nothing (R224); `BUF` is read
at acceptance (R85), and a ⊥ cell is a fault of the model (R12, R44). -/
def execUpdate (first last : Byte) (s : State) : Out :=
  whenAdmitted true s
    (if s.cfg.npages ≤ first.toNat then refuse .pageRange s
     else if s.cfg.npages ≤ last.toNat then refuse .pageRange s
     else
       match flush s.cfg s.buf first.toNat last.toNat with
       | none => .fault .bufUnspecified
       | some writes =>
         acceptPlan .update (writes ++ [.clearDirty (updateClears s.cfg first.toNat last.toNat)]) s)

end Sys2Proof.Machine
end

