-- ==== Sys2Proof/Machine/Dispatch.lean ====
section
/-! DEFINITION. The dispatch: one arm per constructor of Instr. -/

namespace Sys2Proof.Machine

def exec (i : Instr) (s : State) : Host.Outcome State Fault Refusal :=
  match i with
  | .sendCommand p => Sys2Proof.Machine.execSendCommand p s
  | .sendData p => Sys2Proof.Machine.execSendData p s
  | .setPage p => Sys2Proof.Machine.execSetPage p s
  | .setColumn c => Sys2Proof.Machine.execSetColumn c s
  | .setPosition c p => Sys2Proof.Machine.execSetPosition c p s
  | .initializeDisplay => Sys2Proof.Machine.execInitializeDisplay s
  | .update a b => Sys2Proof.Machine.execUpdate a b s
  | .bufWrite k v => Sys2Proof.Machine.execBufWrite k v s
  | .bufRead k => Sys2Proof.Machine.execBufRead k s
  | .setPixel x y on => Sys2Proof.Machine.execSetPixel x y on s
  | .dirtyStatus => Sys2Proof.Machine.execDirtyStatus s
  | .ctlSetColumnLow l => Sys2Proof.Machine.execCtlSetColumnLow l s
  | .ctlSetColumnHigh h => Sys2Proof.Machine.execCtlSetColumnHigh h s
  | .ctlSetPage p => Sys2Proof.Machine.execCtlSetPage p s
  | .ctlDisplayOff => Sys2Proof.Machine.execCtlDisplayOff s
  | .ctlDisplayOn => Sys2Proof.Machine.execCtlDisplayOn s
  | .ctlClockDivide => Sys2Proof.Machine.execCtlClockDivide s
  | .ctlAddrMode => Sys2Proof.Machine.execCtlAddrMode s
  | .ctlContrast p => Sys2Proof.Machine.execCtlContrast p s
  | .ctlSegRemap r => Sys2Proof.Machine.execCtlSegRemap r s
  | .ctlMux p => Sys2Proof.Machine.execCtlMux p s
  | .ctlEntireOff => Sys2Proof.Machine.execCtlEntireOff s
  | .ctlNormal => Sys2Proof.Machine.execCtlNormal s
  | .ctlOffset p => Sys2Proof.Machine.execCtlOffset p s
  | .ctlDcdc p => Sys2Proof.Machine.execCtlDcdc p s
  | .ctlComScan d => Sys2Proof.Machine.execCtlComScan d s
  | .ctlPrecharge p => Sys2Proof.Machine.execCtlPrecharge p s
  | .ctlVcomh p => Sys2Proof.Machine.execCtlVcomh p s
  | .ctlStartLine p => Sys2Proof.Machine.execCtlStartLine p s

end Sys2Proof.Machine
end

