-- ==== Sys2Proof/Machine/Accept.lean ====
section
/-! DEFINITION. What the host does to the block, and which agent acts next: step ACCEPT (spec/40_sequencer.md R141), the
reset input (spec/70_reset_and_hazards.md R280), the schedule of R150 (log 2), and how an instruction is placed where
the next step fetches it (log 10). -/

namespace Sys2Proof.Machine

/-- The refusal reason of a request the decoder shuts out (R117, R253). Requests never meet `noCommandRow`. -/
def decodeReason : DecodeError → Reason
  | .unknownOp => .unknownOp
  | .reservedBits => .reservedBits
  | .lengthMismatch => .lengthMismatch
  | .noCommandRow => .unknownOp

/-- Step ACCEPT(w, P) (R141): a request that decodes is executed; one that does not is refused in the order of R256,
`REF_UNKNOWN_OP`, then `REF_BUSY`, then the decoder's reason. -/
def accept (w : ReqWord) (p : List Byte) (s : State) : Out :=
  if s.isRefused then .refused .afterRefusal
  else
    match decodeRequest w p with
    | .ok i => exec i s
    | .error .unknownOp => refuse .unknownOp s
    | .error e => if s.isBusy then refuse .busy s else refuse (decodeReason e) s

/-- A host action (R9): a request or the reset input. -/
def hostAct (a : HostAct) (s : State) : Out :=
  match a with
  | .request w p => accept w p s
  | .reset r => resetInput r s

/-- One step of the whole machine (R8, R150). While `REFUSED = 1` there is none (R39). A host event that is due comes
first; otherwise the block or the transport takes its step. -/
def advance (s : State) : Out :=
  if s.isRefused then .refused .afterRefusal
  else
    match s.host with
    | [] => blockStep s
    | .pause :: rest => blockStep (s.setHost rest)
    | .present a :: rest => hostAct a (s.setHost rest)
    | .call a :: rest => if s.isBusy then blockStep s else hostAct a (s.setHost rest)

/-- The sequencer about to issue one command write with these bytes: the state that follows the acceptance of a
SEND_COMMAND of them (R161). -/
def aboutToSend (bytes : List Byte) (s : State) : State :=
  s.setSeq (.busy { op := Op.sendCommand.code, plan := cmdW s.cfg bytes cmdTag, pc := 0, pending := false, nwr := 0,
                    ret := .empty })

/-- Place a word of the opcode table where the next step fetches (log 10): a request word becomes the host's next event; a
controller command becomes the sequencer's next action, its page byte taken under the configured `PAGE_BASE`. -/
def placeWord (s : State) (nbits w : Nat) : State :=
  match tableEncoded nbits w with
  | none => s
  | some (.request word p) => s.setHost (.present (.request word p) :: s.host)
  | some (.command bytes) =>
    let payload := match decodeCommand bytes with
      | .ok i => (i.commandBytes s.cfg.pageBase).getD bytes
      | .error _ => bytes
    (aboutToSend payload s).setHost (.pause :: s.host)

end Sys2Proof.Machine
end

