-- ==== Sys2Proof/Machine/Step.lean ====
section
/-! DEFINITION. The step of the machine and the placing of an instruction where it fetches. -/

namespace Sys2Proof.Machine

/-- One step: one event of spec/00_scope.md R8. -/
def step : State → Host.Outcome State Fault Refusal := fun s => advance s

/-- The state with the opcode table's word stored where the next step fetches its instruction (log 10). -/
def State.withFetchWord (s : State) (nbits w : Nat) : State := placeWord s nbits w

end Sys2Proof.Machine
end

