-- ==== Sys2Proof/Machine/Assembler.lean ====
section
/-! DEFINITION. The assembler of host programs (spec/30_encoding.md R115, R116): one request a line, the field checks of
`REF_FIELD_RANGE`, the pseudo-instructions, and the reading of a line of text (log 17). -/

namespace Sys2Proof.Machine

/-- A line of a host program (R115), with its operands as the numbers written, and the short forms of R116. -/
inductive AsmLine where
  | sendCommand (bytes : List Nat)
  /-- `SEND_COMMAND b` (R116). -/
  | sendCommandByte (b : Nat)
  | sendData (bytes : List Nat)
  | setPage (p : Nat)
  | setColumn (x : Nat)
  | setPosition (x p : Nat)
  | initializeDisplay
  | update (a b : Nat)
  /-- `UPDATE a` (R116). -/
  | updateFrom (a : Nat)
  /-- `UPDATE` (R116). -/
  | updateAll
  | bufWrite (index value : Nat)
  | bufRead (index : Nat)
  | setPixel (x y on : Nat)
  | dirtyStatus
  /-- `RESET cfg`, a line of its own for the reset input. -/
  | reset (input : ResetInput)
  deriving DecidableEq, Repr

/-- An operand of an 8-bit field (R115). -/
def byteOperand (n : Nat) : Except Reason Byte :=
  if n ≤ 0xFF then .ok (BitVec.ofNat 8 n) else .error .fieldRange

/-- An operand of a 16-bit field (R115). -/
def indexOperand (n : Nat) : Except Reason BufIndex :=
  if n ≤ 0xFFFF then .ok (BitVec.ofNat 16 n) else .error .fieldRange

/-- The `on` operand, 0 or 1 (R115). -/
def onOperand (n : Nat) : Except Reason Bool :=
  if n = 0 then .ok false else if n = 1 then .ok true else .error .fieldRange

/-- A byte list operand (R115): every element a byte, at most 65535 of them. -/
def bytesOperand (ns : List Nat) : Except Reason (List Byte) :=
  if ns.all (fun n => decide (n ≤ 0xFF)) && decide (ns.length ≤ 65535) then .ok (ns.map (BitVec.ofNat 8))
  else .error .fieldRange

/-- The instruction of one operand that fits, or the refusal. -/
def withOperand {α : Type} (f : α → Instr) (a : Except Reason α) : Except Reason Instr :=
  match a with
  | .ok v => .ok (f v)
  | .error e => .error e

/-- The instruction of two operands that fit, or the first refusal. -/
def withOperands {α β : Type} (f : α → β → Instr) (a : Except Reason α) (b : Except Reason β) :
    Except Reason Instr :=
  match a, b with
  | .ok v, .ok w => .ok (f v w)
  | .error e, _ => .error e
  | .ok _, .error e => .error e

/-- The host action a line stands for, for a display of `npages` pages (R115, R116): the request word and payload, or the
reset input; `REF_FIELD_RANGE` where an operand does not fit. -/
def assemble (npages : Nat) (line : AsmLine) : Except Reason HostAct :=
  let instr : Except Reason Instr ⊕ ResetInput := match line with
    | .sendCommand bs => .inl (withOperand .sendCommand (bytesOperand bs))
    | .sendCommandByte b => .inl (withOperand .sendCommand (bytesOperand [b]))
    | .sendData bs => .inl (withOperand .sendData (bytesOperand bs))
    | .setPage p => .inl (withOperand .setPage (byteOperand p))
    | .setColumn x => .inl (withOperand .setColumn (byteOperand x))
    | .setPosition x p => .inl (withOperands .setPosition (byteOperand x) (byteOperand p))
    | .initializeDisplay => .inl (.ok .initializeDisplay)
    | .update a b => .inl (withOperands .update (byteOperand a) (byteOperand b))
    | .updateFrom a => .inl (withOperands .update (byteOperand a) (byteOperand (npages - 1)))
    | .updateAll => .inl (withOperands .update (byteOperand 0) (byteOperand (npages - 1)))
    | .bufWrite i v => .inl (withOperands .bufWrite (indexOperand i) (byteOperand v))
    | .bufRead i => .inl (withOperand .bufRead (indexOperand i))
    | .setPixel x y on =>
      .inl (match byteOperand x with
        | .ok vx => withOperands (.setPixel vx) (byteOperand y) (onOperand on)
        | .error e => .error e)
    | .dirtyStatus => .inl (.ok .dirtyStatus)
    | .reset r => .inr r
  match instr with
  | .inr r => .ok (.reset r)
  | .inl (.error e) => .error e
  | .inl (.ok i) =>
    match i.requestParts with
    | some (w, p) => .ok (.request w p)
    | none => .error .fieldRange

/-- The host submits a line: its host action, or the refusal of the assembler, which sets the mark like every other
(R253 code 12; log 17). -/
def submitLine (line : AsmLine) (s : State) : Out :=
  if s.isRefused then .refused .afterRefusal
  else
    match assemble s.cfg.npages line with
    | .ok a => hostAct a s
    | .error r => refuse r s

/-! ### Reading a line of text -/

/-- A token of a line. -/
inductive Token where
  | word (cs : List Char)
  | number (n : Nat)
  | openBracket
  | closeBracket
  | comma
  deriving DecidableEq, Repr

/-- The value of a digit, decimal or hexadecimal. -/
def digitValue (c : Char) : Option Nat :=
  if '0'.toNat ≤ c.toNat ∧ c.toNat ≤ '9'.toNat then some (c.toNat - '0'.toNat)
  else if 'a'.toNat ≤ c.toNat ∧ c.toNat ≤ 'f'.toNat then some (c.toNat - 'a'.toNat + 10)
  else if 'A'.toNat ≤ c.toNat ∧ c.toNat ≤ 'F'.toNat then some (c.toNat - 'A'.toNat + 10)
  else none

/-- A run of digits in a base, from the value so far. -/
def digitsValue (base acc : Nat) (cs : List Char) : Option Nat :=
  match cs with
  | [] => some acc
  | c :: rest =>
    match digitValue c with
    | some d => if d < base then digitsValue base (acc * base + d) rest else none
    | none => none

/-- What a run of letters, digits and underscores stands for: a decimal or `0x` hexadecimal number (R115), or a word. -/
def runToken (cs : List Char) : Option Token :=
  match cs with
  | [] => none
  | ['0'] => some (.number 0)
  | '0' :: 'x' :: d :: rest => (digitsValue 16 0 (d :: rest)).map .number
  | c :: rest =>
    match digitValue c with
    | some d =>
      if d < 10 then (digitsValue 10 0 (c :: rest)).map .number else some (.word (c :: rest))
    | none => some (.word (c :: rest))

/-- Close the run read so far (in reverse), before the tokens that follow. -/
def closeRun (run : List Char) (rest : List Token) : Option (List Token) :=
  match run with
  | [] => some rest
  | c :: cs => (runToken (c :: cs).reverse).map (· :: rest)

/-- The tokens of a line: runs are separated by blanks, commas and brackets; a semicolon starts a comment. -/
def tokens (run : List Char) (cs : List Char) : Option (List Token) :=
  match cs with
  | [] => closeRun run []
  | ';' :: _ => closeRun run []
  | ' ' :: rest => (tokens [] rest).bind (closeRun run)
  | '\t' :: rest => (tokens [] rest).bind (closeRun run)
  | ',' :: rest => (tokens [] rest).bind fun ts => closeRun run (.comma :: ts)
  | '[' :: rest => (tokens [] rest).bind fun ts => closeRun run (.openBracket :: ts)
  | ']' :: rest => (tokens [] rest).bind fun ts => closeRun run (.closeBracket :: ts)
  | c :: rest => tokens (c :: run) rest

/-- Numbers separated by commas. -/
def numberList (ts : List Token) : Option (List Nat) :=
  match ts with
  | [] => none
  | [.number n] => some [n]
  | .number n :: .comma :: rest => (numberList rest).map (n :: ·)
  | _ :: _ => none

/-- `[b0, b1, ...]` (R115). -/
def bracketList (ts : List Token) : Option (List Nat) :=
  match ts with
  | .openBracket :: rest =>
    match rest.getLast? with
    | some .closeBracket => if rest.dropLast = [] then some [] else numberList rest.dropLast
    | _ => none
  | _ => none

/-- The operands of a line, as a plain list of numbers or one bracketed list. -/
inductive AsmOperands where
  | numbers (ns : List Nat)
  | bytes (ns : List Nat)
  deriving DecidableEq, Repr

/-- Read the operands after the mnemonic. -/
def operandsOf (ts : List Token) : Option AsmOperands :=
  match ts with
  | [] => some (.numbers [])
  | .openBracket :: rest => (bracketList (.openBracket :: rest)).map .bytes
  | t :: rest => (numberList (t :: rest)).map .numbers

/-- The line a mnemonic and its operands spell (R115, R116). -/
def lineOf (mnemonic : List Char) (ops : AsmOperands) : Option AsmLine :=
  match ops with
  | .bytes bs =>
    if mnemonic = "SEND_COMMAND".toList then some (.sendCommand bs)
    else if mnemonic = "SEND_DATA".toList then some (.sendData bs)
    else none
  | .numbers [] =>
    if mnemonic = "INITIALIZE".toList then some .initializeDisplay
    else if mnemonic = "UPDATE".toList then some .updateAll
    else if mnemonic = "DIRTY_STATUS".toList then some .dirtyStatus
    else none
  | .numbers [a] =>
    if mnemonic = "SEND_COMMAND".toList then some (.sendCommandByte a)
    else if mnemonic = "SET_PAGE".toList then some (.setPage a)
    else if mnemonic = "SET_COLUMN".toList then some (.setColumn a)
    else if mnemonic = "UPDATE".toList then some (.updateFrom a)
    else if mnemonic = "BUF_READ".toList then some (.bufRead a)
    else none
  | .numbers [a, b] =>
    if mnemonic = "SET_POSITION".toList then some (.setPosition a b)
    else if mnemonic = "UPDATE".toList then some (.update a b)
    else if mnemonic = "BUF_WRITE".toList then some (.bufWrite a b)
    else none
  | .numbers [a, b, c] => if mnemonic = "SET_PIXEL".toList then some (.setPixel a b c) else none
  | .numbers (_ :: _ :: _ :: _ :: _) => none

/-- Read one line of a host program (R115). `RESET cfg` has no spelling of its operand in the spec and is not read from
text (log 17). -/
def parseLine (text : List Char) : Option AsmLine :=
  match tokens [] text with
  | some (.word m :: rest) => (operandsOf rest).bind (lineOf m)
  | _ => none

end Sys2Proof.Machine
end

