-- ==== Sys2Proof/Safety.lean ====
section
/-! DEFINITION. What claims are stated in: runs, the host that waits, the streams the controller receives and the end of a
program's run (spec/40_sequencer.md R151, R152), the writes of a plan, and the invariant of the machine
(spec/10_state.md R36, R44; spec/20_memory.md R84; spec/41_framer.md R167). -/

namespace Sys2Proof.Machine

/-! ### Runs -/

/-- n steps of the machine, stopping at the first fault or refusal: the host's `Core.run` for this machine. -/
def run (n : Nat) (s : State) : Out :=
  match n with
  | 0 => .next s
  | n + 1 =>
    match step s with
    | .next t => run n t
    | .fault f => .fault f
    | .refused r => .refused r

/-- The host does not act in the next n steps of a busy sequencer (R150, R285): each of its next events is a pause, until
there is none or one that waits until the sequencer is idle. -/
def hostWaits (n : Nat) (host : List HostEvent) : Prop :=
  match n, host with
  | 0, _ => True
  | _ + 1, [] => True
  | n + 1, .pause :: rest => hostWaits n rest
  | _ + 1, .call _ :: _ => True
  | _ + 1, .present _ :: _ => False

/-- The host's events after n steps in which it waits: the pauses taken are gone. -/
def hostAfter (n : Nat) (host : List HostEvent) : List HostEvent :=
  match n, host with
  | 0, host => host
  | _ + 1, [] => []
  | n + 1, .pause :: rest => hostAfter n rest
  | _ + 1, .call a :: rest => .call a :: rest
  | _ + 1, .present a :: rest => .present a :: rest

/-! ### Observation -/

/-- The payload bytes a list of transport events delivered to a selector: the `OK` events only, in order (R152). -/
def deliveredTo (reg : Byte) (log : List TxEvent) : List Byte :=
  match log with
  | [] => []
  | e :: rest =>
    if e.reg = reg ∧ e.result = .ok then e.payload ++ deliveredTo reg rest else deliveredTo reg rest

/-- The delivered command stream (R152). -/
def State.deliveredCommands (s : State) : List Byte := deliveredTo s.cfg.regCmd s.txlog

/-- The delivered data stream (R152). -/
def State.deliveredData (s : State) : List Byte := deliveredTo s.cfg.regData s.txlog

/-! ### The run of a program -/

/-- A host program (R151): a finite list of requests, each a word with its payload stream, optionally preceded by a
reset. -/
structure Program where
  reset : Option ResetInput
  requests : List (ReqWord × List Byte)
  deriving DecidableEq, Repr

/-- What the host does in a program, in order. -/
def Program.acts (p : Program) : List HostAct :=
  p.reset.toList.map .reset ++ p.requests.map fun r => .request r.1 r.2

/-- The act of a host event; a pause is none. -/
def HostEvent.act : HostEvent → Option HostAct
  | .pause => none
  | .present a => some a
  | .call a => some a

/-- The acts of a list of host events, in order. -/
def hostActs (host : List HostEvent) : List HostAct := host.filterMap HostEvent.act

/-- The states from which a run of program `p` may start (DESIGN CHOICE, log 19: R151 names none): the host's events are a
schedule of the program (log 2), and the sequencer is idle, or the program's reset acts at once, which R283 admits while
busy. -/
def Program.StartsIn (p : Program) (start : State) : Prop :=
  hostActs start.host = p.acts ∧ (start.seq = .idle ∨ ∃ r rest, start.host = .present (.reset r) :: rest)

/-- The run of program `p` from `start` ends in `s` (R151): in `s` the host has no act left, every request has its response
in `RSPLOG` (so the last one has), the sequencer is idle, and nothing was refused. From which states a run may start is the
model's choice (log 19), not R151's. -/
structure Program.EndsIn (p : Program) (start s : State) : Prop where
  starts : p.StartsIn start
  reached : ∃ n, run n start = .next s
  hostDone : s.host = []
  responded : s.rsplog.length = start.rsplog.length + p.requests.length
  idle : s.seq = .idle
  notRefused : s.refused = none

/-! ### The writes of a plan -/

/-- The transport events of a plan's writes, each with the given result, in plan order (R84, R143). -/
def planEvents (addr : DevAddr) (r : TxResult) (plan : List Action) : List TxEvent :=
  match plan with
  | [] => []
  | .wr reg payload tag :: rest =>
    { addr := addr, reg := reg, payload := payload, tag := tag, result := r } :: planEvents addr r rest
  | .zeroBuf :: rest => planEvents addr r rest
  | .clearDirty _ :: rest => planEvents addr r rest
  | .setInit :: rest => planEvents addr r rest
  | .bufSet _ _ :: rest => planEvents addr r rest
  | .ret _ :: rest => planEvents addr r rest

/-- Whether an action is a transport write. -/
def Action.isWrite : Action → Bool
  | .wr _ _ _ => true
  | .zeroBuf => false
  | .clearDirty _ => false
  | .setInit => false
  | .bufSet _ _ => false
  | .ret _ => false

/-- The number of transport writes of a plan. -/
def writeCount (plan : List Action) : Nat := plan.countP Action.isWrite

/-- Whether an action is a transport write to the given selector. -/
def Action.isWriteTo (reg : Byte) : Action → Bool
  | .wr r _ _ => decide (r = reg)
  | .zeroBuf => false
  | .clearDirty _ => false
  | .setInit => false
  | .bufSet _ _ => false
  | .ret _ => false

/-- The number of transport writes of a plan to a selector. -/
def writeCountTo (reg : Byte) (plan : List Action) : Nat := plan.countP (Action.isWriteTo reg)

/-- The transport writes of one position command: 3 in framing SPLIT, 2 in JOINED (R182, R184). -/
def positionWrites (c : Cfg) : Nat :=
  match c.colFraming with
  | .split => 3
  | .joined => 2

/-- The steps a plan takes when the host waits and every write is answered at once: ISSUE and TX_OK for a write,
LOCAL for another action, and DONE at the end. -/
def planSteps (plan : List Action) : Nat := plan.length + writeCount plan + 1

/-! ### The invariant -/

/-- Every cell of `BUF` holds a byte (R44). -/
def bufDefined (c : Cfg) (m : Memory) : Prop := ∀ i, i < c.nbytes → m.read i ≠ none

/-- Every cell of `DIRTY` holds 0 or 1 (R44). -/
def dirtyDefined (d : List (Option Bool)) : Prop := ∀ b ∈ d, b ≠ none

/-- An action a plan may hold (R108, R142, R167): a write carries one of the two selectors and 1 to `DATA_SIZE` payload
bytes; indices and pages are in range. -/
def actionOk (c : Cfg) : Action → Prop
  | .wr reg payload _ => (reg = c.regCmd ∨ reg = c.regData) ∧ 1 ≤ payload.length ∧ payload.length ≤ c.dataSize
  | .zeroBuf => True
  | .clearDirty pages => ∀ p ∈ pages, p < c.npages
  | .setInit => True
  | .bufSet i _ => i < c.nbytes
  | .ret _ => True

/-- The rest of a plan sets `INIT` only after `BUF` and `DIRTY` are defined (R44, R204): `bd` and `dd` say that they
already are. -/
def initGuarded (npages : Nat) (bd dd : Prop) : List Action → Prop
  | [] => True
  | .setInit :: rest => bd ∧ dd ∧ initGuarded npages bd dd rest
  | .zeroBuf :: rest => initGuarded npages True dd rest
  | .clearDirty pages :: rest => initGuarded npages bd (dd ∨ ∀ p, p < npages → p ∈ pages) rest
  | .wr _ _ _ :: rest => initGuarded npages bd dd rest
  | .bufSet _ _ :: rest => initGuarded npages bd dd rest
  | .ret _ :: rest => initGuarded npages bd dd rest

/-- What holds of a busy sequencer (R36, R143): `pc` within the plan, `nwr` the writes completed, every action in range,
the plan's writes before `pc` answered OK, and a pending write the last event of `TXLOG`. -/
structure BusyOk (s : State) (b : Busy) : Prop where
  pcInPlan : b.pc ≤ b.plan.length
  writesDone : b.nwr = writeCount (b.plan.take b.pc)
  actions : ∀ a ∈ b.plan, actionOk s.cfg a
  guarded : initGuarded s.cfg.npages (bufDefined s.cfg s.buf) (dirtyDefined s.dirty) (b.plan.drop b.pc)
  answered : ∃ before,
    s.txlog = before ++ planEvents s.cfg.devAddr .ok (b.plan.take b.pc) ++
      if b.pending then planEvents s.cfg.devAddr .pending b.action.toList else []
  pendingWrite : b.pending = true → ∃ reg payload tag, b.action = some (.wr reg payload tag)

/-- The invariant of the machine, over every state. -/
structure Invariant (s : State) : Prop where
  /-- The configuration is valid (R281, R282). -/
  cfgValid : s.cfg.valid = true
  /-- `BUF` is in canonical form. -/
  bufWf : s.buf.wf = true
  /-- `BUF` holds no cell beyond `NBYTES` (R33). -/
  bufInRange : ∀ cell ∈ s.buf, cell.1 < s.cfg.nbytes
  /-- `DIRTY` has `NPAGES` cells (R34). -/
  dirtyLength : s.dirty.length = s.cfg.npages
  /-- `INIT = 1` leaves no ⊥ in `BUF` and `DIRTY` (R44). -/
  initDefined : s.init = true → bufDefined s.cfg s.buf ∧ dirtyDefined s.dirty
  /-- A busy sequencer is in order (R36). -/
  busyOk : ∀ b, s.seq = .busy b → BusyOk s b
  /-- At most one write is outstanding, the last one, and only while the sequencer waits for it (R37, R84). -/
  onePending : ∀ before e after, s.txlog = before ++ e :: after → e.result = .pending →
    after = [] ∧ ∃ b, s.seq = .busy b ∧ b.pending = true

end Sys2Proof.Machine
end

