-- ==== Sys2Proof/Certificates/Slice0/Obligations.lean ====
section
/-! DEFINITION. The statements about the block, each from the numbered rules of spec/. A state update is written as a
record `{ s with … }`: every field not named in it is left unchanged (the frame). Where the host waits (`hostWaits n`: no
event left, pauses, or a call that waits for an idle sequencer), its events after the n steps are `hostAfter n`. -/

set_option autoImplicit false

open Sys2Proof Sys2Proof.Machine

/-! ### Encodings -/

/-- Request words written out bit by bit from R102 and R104 (the table of spec/95_test_vectors.md, section 0), and
command bytes from R109 to R112 and R201, decode to the operations they stand for. -/
def Obligations.WordsOfTheSpecDecodeToTheirOperations : Prop :=
  decode (.request 0x01000002#32 [0x81#8, 0x40#8]) = .ok (.sendCommand [0x81#8, 0x40#8]) ∧
  decode (.request 0x02000003#32 [1#8, 2#8, 3#8]) = .ok (.sendData [1#8, 2#8, 3#8]) ∧
  decode (.request 0x10000003#32 []) = .ok (.setPage 3#8) ∧
  decode (.request 0x1100003A#32 []) = .ok (.setColumn 0x3A#8) ∧
  decode (.request 0x1200033A#32 []) = .ok (.setPosition 0x3A#8 3#8) ∧
  decode (.request 0x20000000#32 []) = .ok .initializeDisplay ∧
  decode (.request 0x30000203#32 []) = .ok (.update 3#8 2#8) ∧
  decode (.request 0x40012C81#32 []) = .ok (.bufWrite 300#16 0x81#8) ∧
  decode (.request 0x41008300#32 []) = .ok (.bufRead 131#16) ∧
  decode (.request 0x42010A03#32 []) = .ok (.setPixel 3#8 10#8 true) ∧
  decode (.request 0x50000000#32 []) = .ok .dirtyStatus ∧
  decode (.command [0b00001010#8]) = .ok (.ctlSetColumnLow 0b1010#4) ∧
  decode (.command [0b00010011#8]) = .ok (.ctlSetColumnHigh 0b0011#4) ∧
  decode (.command [0b10110101#8]) = .ok (.ctlSetPage 5#8) ∧
  decode (.command [0xD5#8, 0x50#8]) = .ok .ctlClockDivide ∧
  decode (.command [0b11001000#8]) = .ok (.ctlComScan 1#1)

/-- Decode and encode agree: decoding the encoding of any well-formed instruction, at every operand value, gives it
back. -/
def Obligations.DecodeOfEncodeIsTheInstruction : Prop :=
  ∀ i : Instr, i.wellFormed = true → decode (encode i) = .ok i

/-- Each word has one meaning: what decodes to an instruction is that instruction's encoding, so no reserved bit is
dropped and no two words share a meaning. -/
def Obligations.EncodeOfDecodeIsTheWord : Prop :=
  ∀ (e : Encoded) (i : Instr), decode e = .ok i → encode i = e

/-- R105: a word whose opcode is none of the eleven assigned values is refused with `REF_UNKNOWN_OP`, whatever its other
bits, its payload and the sequencer's state are. -/
def Obligations.UnassignedOpcodesAreRefused : Prop :=
  ∀ (s : State) (w : ReqWord) (p : List Byte), s.refused = none →
    w.extractLsb' 24 8 ∉ [0x01#8, 0x02#8, 0x10#8, 0x11#8, 0x12#8, 0x20#8, 0x30#8, 0x40#8, 0x41#8, 0x42#8, 0x50#8] →
    accept w p s = .next { s with refused := some .unknownOp }

/-- R256, R103 and R141: for each assigned opcode (with the reserved bits of its format, whether its format carries a
payload, and whether it needs `INIT = 1`), the refusal checks come in the order busy, reserved bits, payload length,
uninitialized. For the nine opcodes whose format carries no payload, that a payload is a length mismatch is the model's
choice (log 12): R103 names the count N of format HN only. -/
def Obligations.RequestChecksComeInPriorityOrder : Prop :=
  ∀ row ∈ [(0x01#8, 0x00FF0000#32, true, false), (0x02#8, 0x00FF0000#32, true, false),
           (0x10#8, 0x00FFFF00#32, false, false), (0x11#8, 0x00FFFF00#32, false, false),
           (0x12#8, 0x00FF0000#32, false, false), (0x20#8, 0x00FFFFFF#32, false, false),
           (0x30#8, 0x00FF0000#32, false, true), (0x40#8, 0x00000000#32, false, true),
           (0x41#8, 0x000000FF#32, false, true), (0x42#8, 0x00FE0000#32, false, true),
           (0x50#8, 0x00FFFFFF#32, false, true)],
    ∀ (s : State) (w : ReqWord) (p : List Byte), s.refused = none → w.extractLsb' 24 8 = row.1 →
      ((∃ b, s.seq = .busy b) → accept w p s = .next { s with refused := some .busy }) ∧
      (s.seq = .idle → w &&& row.2.1 ≠ 0#32 → accept w p s = .next { s with refused := some .reservedBits }) ∧
      (s.seq = .idle → w &&& row.2.1 = 0#32 →
        p.length ≠ (if row.2.2.1 then (w.extractLsb' 0 16).toNat else 0) →
        accept w p s = .next { s with refused := some .lengthMismatch }) ∧
      (s.seq = .idle → w &&& row.2.1 = 0#32 →
        p.length = (if row.2.2.1 then (w.extractLsb' 0 16).toNat else 0) → row.2.2.2 = true → s.init = false →
        accept w p s = .next { s with refused := some .uninit })

/-! ### The step runs the decoded instruction -/

/-- R141: a step at a state whose host presents a request (now, or once the sequencer is idle) that decodes to `i` is
exec of `i` with that host event taken off. -/
def Obligations.StepRunsTheDecodedRequest : Prop :=
  ∀ (s : State) (w : ReqWord) (p : List Byte) (rest : List HostEvent) (i : Instr), s.refused = none →
    decode (.request w p) = .ok i →
    (s.host = .present (.request w p) :: rest ∨ (s.host = .call (.request w p) :: rest ∧ s.seq = .idle)) →
    step s = exec i { s with host := rest }

/-- R143 and R100 (c): where the plan's next action is a command write whose payload is the bytes of a controller command
row under the configured `PAGE_BASE`, a step in which the host waits is exec of that row (a pause of the host taken off, a
call that waits for the idle sequencer kept). That such a row's meaning is the ISSUE step is the model's choice (log 9). -/
def Obligations.StepIssuesAPlannedCommandAsItsRow : Prop :=
  ∀ (s : State) (b : Busy) (bytes : List Byte) (tag : Tag) (i : Instr), s.refused = none →
    s.seq = .busy b → b.pending = false → b.plan[b.pc]? = some (.wr s.cfg.regCmd bytes tag) →
    i.commandBytes s.cfg.pageBase = some bytes →
    (s.host = [] → step s = exec i s) ∧
    (∀ rest, s.host = .pause :: rest → step s = exec i { s with host := rest }) ∧
    (∀ a rest, s.host = .call a :: rest → step s = exec i s)

/-! ### Acceptance of the operations that write to the transport -/

/-- R161, admission and plan of SEND_COMMAND: one command write of the whole payload; an empty payload and one longer
than `DATA_SIZE` are refused. It needs no `INIT`. -/
def Obligations.SendCommandIsAcceptedAsOneWrite : Prop :=
  ∀ (s : State) (p : List Byte), s.refused = none → s.seq = .idle →
    (1 ≤ p.length → p.length ≤ s.cfg.dataSize →
      exec (.sendCommand p) s = .next { s with seq := .busy {
        op := 0x01#8,
        plan := [.wr s.cfg.regCmd p { phase := .cmd, entry := none, page := none, chunk := none }],
        pc := 0, pending := false, nwr := 0, ret := .empty } }) ∧
    (p.length = 0 → exec (.sendCommand p) s = .next { s with refused := some .emptyCmd }) ∧
    (p.length ≠ 0 → s.cfg.dataSize < p.length →
      exec (.sendCommand p) s = .next { s with refused := some .cmdTooLong })

/-- R164 with R162 and R163, admission and plan of SEND_DATA, for every payload: the plan is the list of the
`ceil(N/DATA_SIZE)` data writes, write k carrying the slice of the payload from `k*DATA_SIZE`, of at most `DATA_SIZE`
bytes. -/
def Obligations.SendDataIsAcceptedAsItsChunks : Prop :=
  ∀ (s : State) (p : List Byte), s.refused = none → s.seq = .idle → 1 ≤ s.cfg.dataSize →
    exec (.sendData p) s = .next { s with seq := .busy {
      op := 0x02#8,
      plan := (List.range ((p.length + s.cfg.dataSize - 1) / s.cfg.dataSize)).map fun k =>
        .wr s.cfg.regData ((p.drop (k * s.cfg.dataSize)).take s.cfg.dataSize)
          { phase := .data, entry := none, page := none, chunk := some k },
      pc := 0, pending := false, nwr := 0, ret := .empty } }

/-- R181, admission and plan of SET_PAGE: one command write of the byte `PAGE_BASE + page`; a page at or beyond `NPAGES`
is refused. -/
def Obligations.SetPageIsAcceptedAsOneByte : Prop :=
  ∀ (s : State) (page : Byte), s.refused = none → s.seq = .idle →
    (page.toNat < s.cfg.height / 8 →
      exec (.setPage page) s = .next { s with seq := .busy {
        op := 0x10#8,
        plan := [.wr s.cfg.regCmd [s.cfg.pageBase + page]
          { phase := .addr, entry := none, page := some page.toNat, chunk := none }],
        pc := 0, pending := false, nwr := 0, ret := .empty } }) ∧
    (s.cfg.height / 8 ≤ page.toNat → exec (.setPage page) s = .next { s with refused := some .pageRange })

/-- R183 with R182, admission and plan of SET_COLUMN, for every column: the low byte then the high byte, in two command
writes (SPLIT) or one (JOINED). -/
def Obligations.SetColumnIsAcceptedLowByteFirst : Prop :=
  ∀ (s : State) (x : Byte), s.refused = none → s.seq = .idle →
    exec (.setColumn x) s = .next { s with seq := .busy {
      op := 0x11#8,
      plan := match s.cfg.colFraming with
        | .split =>
          [.wr s.cfg.regCmd [x &&& 0x0F#8] { phase := .addr, entry := none, page := none, chunk := none },
           .wr s.cfg.regCmd [0x10#8 ||| ((x &&& 0xF0#8) >>> 4)]
             { phase := .addr, entry := none, page := none, chunk := none }]
        | .joined =>
          [.wr s.cfg.regCmd [x &&& 0x0F#8, 0x10#8 ||| ((x &&& 0xF0#8) >>> 4)]
             { phase := .addr, entry := none, page := none, chunk := none }],
      pc := 0, pending := false, nwr := 0, ret := .empty } }

/-- R185 with R184, admission and plan of SET_POSITION: the page byte, then the column bytes, all tagged with the page; a
page at or beyond `NPAGES` is refused, every column is admitted. -/
def Obligations.SetPositionIsAcceptedPageFirst : Prop :=
  ∀ (s : State) (x page : Byte), s.refused = none → s.seq = .idle →
    (page.toNat < s.cfg.height / 8 →
      exec (.setPosition x page) s = .next { s with seq := .busy {
        op := 0x12#8,
        plan := match s.cfg.colFraming with
          | .split =>
            [.wr s.cfg.regCmd [s.cfg.pageBase + page]
               { phase := .addr, entry := none, page := some page.toNat, chunk := none },
             .wr s.cfg.regCmd [x &&& 0x0F#8]
               { phase := .addr, entry := none, page := some page.toNat, chunk := none },
             .wr s.cfg.regCmd [0x10#8 ||| ((x &&& 0xF0#8) >>> 4)]
               { phase := .addr, entry := none, page := some page.toNat, chunk := none }]
          | .joined =>
            [.wr s.cfg.regCmd [s.cfg.pageBase + page]
               { phase := .addr, entry := none, page := some page.toNat, chunk := none },
             .wr s.cfg.regCmd [x &&& 0x0F#8, 0x10#8 ||| ((x &&& 0xF0#8) >>> 4)]
               { phase := .addr, entry := none, page := some page.toNat, chunk := none }],
        pc := 0, pending := false, nwr := 0, ret := .empty } }) ∧
    (s.cfg.height / 8 ≤ page.toNat → exec (.setPosition x page) s = .next { s with refused := some .pageRange })

/-- R202 with R203 and R204, admission and plan of INITIALIZE, whatever `INIT` is: one command write per entry of
`INIT_SEQ` in order, `ZERO_BUF`, for each page in ascending order its position and `WIDTH` zero bytes in chunks, then
`CLEAR_DIRTY` of every page and `SET_INIT`. -/
def Obligations.InitializeIsAcceptedWithItsPlan : Prop :=
  ∀ (s : State), s.refused = none → s.seq = .idle → 1 ≤ s.cfg.dataSize →
    exec .initializeDisplay s = .next { s with seq := .busy {
      op := 0x20#8,
      plan := (s.cfg.initSeq.mapIdx fun e bytes =>
          .wr s.cfg.regCmd bytes { phase := .initCmd, entry := some e, page := none, chunk := none })
        ++ [.zeroBuf]
        ++ ((List.range (s.cfg.height / 8)).flatMap fun p =>
          posCmd s.cfg 0x00#8 p .clear ++
          (List.range ((s.cfg.width + s.cfg.dataSize - 1) / s.cfg.dataSize)).map fun k =>
            .wr s.cfg.regData (List.replicate (min s.cfg.dataSize (s.cfg.width - k * s.cfg.dataSize)) 0x00#8)
              { phase := .clear, entry := none, page := some p, chunk := some k })
        ++ [.clearDirty (List.range (s.cfg.height / 8)), .setInit],
      pc := 0, pending := false, nwr := 0, ret := .empty } }

/-- R221 with R220, admission and plan of UPDATE, where `INIT = 1` and every cell holds a byte: for each page of the range in
ascending order its position at column 0 and its `WIDTH` bytes in chunks, then `CLEAR_DIRTY` of every page (GLOBAL) or of the
range (RANGE). It is refused while `INIT = 0` and where a bound is at or beyond `NPAGES`. -/
def Obligations.UpdateIsAcceptedWithItsPlan : Prop :=
  ∀ (s : State) (first last : Byte), s.refused = none → s.seq = .idle → 1 ≤ s.cfg.dataSize →
    (s.init = false → exec (.update first last) s = .next { s with refused := some .uninit }) ∧
    (s.init = true → (s.cfg.height / 8 ≤ first.toNat ∨ s.cfg.height / 8 ≤ last.toNat) →
      exec (.update first last) s = .next { s with refused := some .pageRange }) ∧
    (∀ f : Nat → Byte, s.init = true → first.toNat < s.cfg.height / 8 → last.toNat < s.cfg.height / 8 →
      (∀ i, i < s.cfg.width * (s.cfg.height / 8) → s.buf.read i = some (f i)) →
      exec (.update first last) s = .next { s with seq := .busy {
        op := 0x30#8,
        plan := ((List.range' first.toNat (last.toNat + 1 - first.toNat)).flatMap fun p =>
            posCmd s.cfg 0x00#8 p .addr ++
            (List.range ((s.cfg.width + s.cfg.dataSize - 1) / s.cfg.dataSize)).map fun k =>
              .wr s.cfg.regData
                ((List.range' (p * s.cfg.width + k * s.cfg.dataSize)
                  (min s.cfg.dataSize (s.cfg.width - k * s.cfg.dataSize))).map f)
                { phase := .data, entry := none, page := some p, chunk := some k })
          ++ [.clearDirty (match s.cfg.dirtyPolicy with
                | .global => List.range (s.cfg.height / 8)
                | .range => List.range' first.toNat (last.toNat + 1 - first.toNat))],
        pc := 0, pending := false, nwr := 0, ret := .empty } })

/-- The position command that the two plans above name by the model's function: its actions for a column and a page, by
the bytes of R109 to R111 and the framing of R182, page first (R184). -/
def Obligations.PositionCommandIsPageThenColumn : Prop :=
  ∀ (c : Cfg) (x : Byte) (p : Nat) (ph : Phase),
    (c.colFraming = .split → posCmd c x p ph =
      [.wr c.regCmd [c.pageBase + BitVec.ofNat 8 p] { phase := ph, entry := none, page := some p, chunk := none },
       .wr c.regCmd [x &&& 0x0F#8] { phase := ph, entry := none, page := some p, chunk := none },
       .wr c.regCmd [0x10#8 ||| ((x &&& 0xF0#8) >>> 4)]
         { phase := ph, entry := none, page := some p, chunk := none }]) ∧
    (c.colFraming = .joined → posCmd c x p ph =
      [.wr c.regCmd [c.pageBase + BitVec.ofNat 8 p] { phase := ph, entry := none, page := some p, chunk := none },
       .wr c.regCmd [x &&& 0x0F#8, 0x10#8 ||| ((x &&& 0xF0#8) >>> 4)]
         { phase := ph, entry := none, page := some p, chunk := none }])

/-- R206: INITIALIZE from any two admitted states with the same `CFG` has the same plan, whatever their `BUF`, `DIRTY` and
`INIT` are. -/
def Obligations.InitializePlanDependsOnTheConfigurationOnly : Prop :=
  ∀ (s s' : State), s.refused = none → s.seq = .idle → s'.refused = none → s'.seq = .idle → s'.cfg = s.cfg →
    ∃ seq, exec .initializeDisplay s = .next { s with seq := seq } ∧
      exec .initializeDisplay s' = .next { s' with seq := seq }

/-! ### Immediate operations -/

/-- R240: BUF_WRITE writes its byte, marks its page dirty (even where the byte does not change) and answers OK; every
other cell, every other dirty bit, and all else stays; no transport write. It is refused while `INIT = 0` and at an index
at or beyond `NBYTES`. -/
def Obligations.BufWriteWritesOneByteAndMarksItsPage : Prop :=
  ∀ (s : State) (index : BufIndex) (v : Byte), s.refused = none → s.seq = .idle →
    (s.init = false → exec (.bufWrite index v) s = .next { s with refused := some .uninit }) ∧
    (s.init = true → s.cfg.width * (s.cfg.height / 8) ≤ index.toNat →
      exec (.bufWrite index v) s = .next { s with refused := some .indexRange }) ∧
    (s.init = true → index.toNat < s.cfg.width * (s.cfg.height / 8) →
      ∃ buf, exec (.bufWrite index v) s = .next { s with
          buf := buf,
          dirty := s.dirty.set (index.toNat / s.cfg.width) (some true),
          rsplog := s.rsplog ++ [{ op := 0x40#8, status := .ok, value := .empty, fail := none }] } ∧
        buf.read index.toNat = some v ∧ ∀ j, j ≠ index.toNat → buf.read j = s.buf.read j)

/-- R241: BUF_READ answers OK with the byte of the cell and changes nothing else. It is refused while `INIT = 0` and at an
index at or beyond `NBYTES`. -/
def Obligations.BufReadAnswersTheByte : Prop :=
  ∀ (s : State) (index : BufIndex), s.refused = none → s.seq = .idle →
    (s.init = false → exec (.bufRead index) s = .next { s with refused := some .uninit }) ∧
    (s.init = true → s.cfg.width * (s.cfg.height / 8) ≤ index.toNat →
      exec (.bufRead index) s = .next { s with refused := some .indexRange }) ∧
    (∀ b, s.init = true → index.toNat < s.cfg.width * (s.cfg.height / 8) → s.buf.read index.toNat = some b →
      exec (.bufRead index) s = .next { s with
        rsplog := s.rsplog ++ [{ op := 0x41#8, status := .ok, value := .byte b, fail := none }] })

/-- R242 with R73: SET_PIXEL sets or clears bit `y mod 8` of byte `(y div 8)*WIDTH + x`, leaves the other seven bits and
every other cell, marks page `y div 8` dirty and answers OK. It is refused while `INIT = 0` and outside the display. -/
def Obligations.SetPixelWritesOneBitAndMarksItsPage : Prop :=
  ∀ (s : State) (x y : Byte) (on : Bool), s.refused = none → s.seq = .idle →
    (s.init = false → exec (.setPixel x y on) s = .next { s with refused := some .uninit }) ∧
    (s.init = true → (s.cfg.width ≤ x.toNat ∨ s.cfg.height ≤ y.toNat) →
      exec (.setPixel x y on) s = .next { s with refused := some .pixelRange }) ∧
    (∀ old, s.init = true → x.toNat < s.cfg.width → y.toNat < s.cfg.height →
      s.buf.read (y.toNat / 8 * s.cfg.width + x.toNat) = some old →
      ∃ buf new, exec (.setPixel x y on) s = .next { s with
          buf := buf,
          dirty := s.dirty.set (y.toNat / 8) (some true),
          rsplog := s.rsplog ++ [{ op := 0x42#8, status := .ok, value := .empty, fail := none }] } ∧
        buf.read (y.toNat / 8 * s.cfg.width + x.toNat) = some new ∧
        (∀ k, k < 8 → new.getLsbD k = if k = y.toNat % 8 then on else old.getLsbD k) ∧
        ∀ j, j ≠ y.toNat / 8 * s.cfg.width + x.toNat → buf.read j = s.buf.read j)

/-- R243: DIRTY_STATUS answers OK with the dirty bits, bit p that of page p, and changes nothing else. It is refused while
`INIT = 0`. -/
def Obligations.DirtyStatusAnswersTheDirtyBits : Prop :=
  ∀ (s : State), s.refused = none → s.seq = .idle →
    (s.init = false → exec .dirtyStatus s = .next { s with refused := some .uninit }) ∧
    (∀ d : List Bool, s.init = true → s.dirty = d.map some →
      exec .dirtyStatus s = .next { s with
        rsplog := s.rsplog ++ [{ op := 0x50#8, status := .ok, value := .bits d, fail := none }] })

/-- R149 with R240 to R243: an immediate operation that is accepted ends, in one step of exec, in the state that its split
form reaches: its own plan, accepted under its opcode and run by LOCAL and DONE while the host waits. -/
def Obligations.ImmediateOperationsEqualTheirSplitForm : Prop :=
  ∀ (s : State), s.refused = none → s.seq = .idle → hostWaits 2 s.host →
    let split (op : Byte) (a : Action) : Out :=
      run 2 { s with seq := .busy { op := op, plan := [a], pc := 0, pending := false, nwr := 0, ret := .empty } }
    (∀ (k : BufIndex) (v : Byte) (t : State), exec (.bufWrite k v) s = .next t → t.refused = none →
      split 0x40#8 (.bufSet k.toNat v) = .next { t with host := hostAfter 2 s.host }) ∧
    (∀ (k : BufIndex) (b : Byte) (t : State), exec (.bufRead k) s = .next t → t.refused = none →
      s.buf.read k.toNat = some b →
      split 0x41#8 (.ret (.byte b)) = .next { t with host := hostAfter 2 s.host }) ∧
    (∀ (x y : Byte) (on : Bool) (old : Byte) (t : State), exec (.setPixel x y on) s = .next t → t.refused = none →
      s.buf.read (y.toNat / 8 * s.cfg.width + x.toNat) = some old →
      split 0x42#8 (.bufSet (y.toNat / 8 * s.cfg.width + x.toNat)
          (if on then old ||| (1#8 <<< (y.toNat % 8)) else old &&& ~~~(1#8 <<< (y.toNat % 8)))) =
        .next { t with host := hostAfter 2 s.host }) ∧
    (∀ (d : List Bool) (t : State), exec .dirtyStatus s = .next t → t.refused = none → s.dirty = d.map some →
      split 0x50#8 (.ret (.bits d)) = .next { t with host := hostAfter 2 s.host })

/-- R140, R285: while the sequencer is busy, every host request is refused with `REF_BUSY`, and nothing else changes. -/
def Obligations.EveryRequestIsRefusedWhileBusy : Prop :=
  ∀ (s : State) (b : Busy) (p : List Byte) (v1 v2 : Byte) (k : BufIndex) (on : Bool), s.refused = none →
    s.seq = .busy b →
    ∀ i ∈ [Instr.sendCommand p, .sendData p, .setPage v1, .setColumn v1, .setPosition v1 v2, .initializeDisplay,
           .update v1 v2, .bufWrite k v1, .bufRead k, .setPixel v1 v2 on, .dirtyStatus],
      exec i s = .next { s with refused := some .busy }

/-! ### The controller command rows -/

/-- R109 to R111 and R143: the addressing command rows are issued as command writes: where the plan's next action is the
command write of the row's bytes, exec logs it pending at `DEV_ADDR` and waits for the transport. The stop elsewhere is
the model's choice (log 9). -/
def Obligations.AddressingCommandRowsAreIssued : Prop :=
  ∀ (s : State) (b : Busy) (tag : Tag) (n : BitVec 4) (page : Byte), s.refused = none → s.seq = .busy b →
    b.pending = false →
    ∀ row ∈ [(Instr.ctlSetColumnLow n, [n.setWidth 8]),
             (.ctlSetColumnHigh n, [0x10#8 ||| n.setWidth 8]),
             (.ctlSetPage page, [s.cfg.pageBase + page])],
      b.plan[b.pc]? = some (.wr s.cfg.regCmd row.2 tag) →
      exec row.1 s = .next { s with
        txlog := s.txlog ++ [{ addr := s.cfg.devAddr, reg := s.cfg.regCmd, payload := row.2, tag := tag,
                               result := .pending }],
        seq := .busy { b with pending := true } }

/-- R201, R112 and R143: the same for the rows of the initialization sequence, with the bytes of the opcode table. The
stop elsewhere is the model's choice (log 9). -/
def Obligations.SequenceCommandRowsAreIssued : Prop :=
  ∀ (s : State) (b : Busy) (tag : Tag) (v : Byte) (bit : BitVec 1), s.refused = none → s.seq = .busy b →
    b.pending = false →
    ∀ row ∈ [(Instr.ctlDisplayOff, [0xAE#8]), (.ctlDisplayOn, [0xAF#8]), (.ctlClockDivide, [0xD5#8, 0x50#8]),
             (.ctlAddrMode, [0x20#8]), (.ctlContrast v, [0x81#8, v]),
             (.ctlSegRemap bit, [0xA0#8 ||| bit.setWidth 8]), (.ctlMux v, [0xA8#8, v]),
             (.ctlEntireOff, [0xA4#8]), (.ctlNormal, [0xA6#8]), (.ctlOffset v, [0xD3#8, v]),
             (.ctlDcdc v, [0xAD#8, v]), (.ctlComScan bit, [0xC0#8 ||| (bit.setWidth 8 <<< 3)]),
             (.ctlPrecharge v, [0xD9#8, v]), (.ctlVcomh v, [0xDB#8, v]), (.ctlStartLine v, [0xDC#8, v])],
      b.plan[b.pc]? = some (.wr s.cfg.regCmd row.2 tag) →
      exec row.1 s = .next { s with
        txlog := s.txlog ++ [{ addr := s.cfg.devAddr, reg := s.cfg.regCmd, payload := row.2, tag := tag,
                               result := .pending }],
        seq := .busy { b with pending := true } }

/-- The model's choice (log 9): a controller command row answers `commandNotEnabled` where the block is not about to
issue that command: idle, waiting for the transport, or before another action. -/
def Obligations.CommandRowsStopWhereTheyAreNotNext : Prop :=
  ∀ (s : State) (i : Instr) (bytes : List Byte), s.refused = none → i.commandBytes s.cfg.pageBase = some bytes →
    (s.seq = .idle ∨ ∃ b, s.seq = .busy b ∧
      (b.pending = true ∨ ∀ tag, b.plan[b.pc]? ≠ some (.wr s.cfg.regCmd bytes tag))) →
    exec i s = .refused .commandNotEnabled

/-! ### The execution steps -/

/-- R143, step ISSUE, while the host waits. -/
def Obligations.IssueLogsThePendingWrite : Prop :=
  ∀ (s : State) (b : Busy) (reg : Byte) (payload : List Byte) (tag : Tag), s.refused = none → hostWaits 1 s.host →
    s.seq = .busy b → b.pending = false → b.plan[b.pc]? = some (.wr reg payload tag) →
    step s = .next { s with
      txlog := s.txlog ++ [{ addr := s.cfg.devAddr, reg := reg, payload := payload, tag := tag, result := .pending }],
      seq := .busy { b with pending := true },
      host := hostAfter 1 s.host }

/-- R144, step TX_OK: the pending event, the last of `TXLOG`, becomes OK; `nwr` and `pc` advance by one. -/
def Obligations.OkAnswerCompletesTheWrite : Prop :=
  ∀ (s : State) (b : Busy) (reg : Byte) (payload : List Byte) (tag : Tag) (before : List TxEvent) (e : TxEvent)
    (rest : List Answer), s.refused = none → hostWaits 1 s.host → s.seq = .busy b → b.pending = true →
    b.plan[b.pc]? = some (.wr reg payload tag) → s.txlog = before ++ [e] → s.answers = .ok :: rest →
    step s = .next { s with
      txlog := before ++ [{ e with result := .ok }],
      seq := .busy { b with pending := false, nwr := b.nwr + 1, pc := b.pc + 1 },
      host := hostAfter 1 s.host,
      answers := rest }

/-- R145 and R254, step TX_FAIL and the abort: the pending event becomes FAIL, the failed response with its record is
appended, the sequencer goes idle. An operation other than INITIALIZE changes nothing else; INITIALIZE also clears `INIT`
and leaves every cell of `BUF` and `DIRTY` without a value. -/
def Obligations.FailAnswerAbortsTheOperation : Prop :=
  ∀ (s : State) (b : Busy) (reg : Byte) (payload : List Byte) (tag : Tag) (before : List TxEvent) (e : TxEvent)
    (rest : List Answer), s.refused = none → hostWaits 1 s.host → s.seq = .busy b → b.pending = true →
    b.plan[b.pc]? = some (.wr reg payload tag) → s.txlog = before ++ [e] → s.answers = .fail :: rest →
    (b.op ≠ 0x20#8 → step s = .next { s with
      txlog := before ++ [{ e with result := .fail }],
      rsplog := s.rsplog ++ [{ op := b.op, status := .transportFail, value := .empty,
                               fail := some { op := b.op, wrIndex := b.nwr, tag := tag } }],
      seq := .idle,
      host := hostAfter 1 s.host,
      answers := rest }) ∧
    (b.op = 0x20#8 → ∃ buf dirty, step s = .next { s with
        txlog := before ++ [{ e with result := .fail }],
        rsplog := s.rsplog ++ [{ op := b.op, status := .transportFail, value := .empty,
                                 fail := some { op := b.op, wrIndex := b.nwr, tag := tag } }],
        seq := .idle,
        host := hostAfter 1 s.host,
        answers := rest,
        init := false, buf := buf, dirty := dirty } ∧
      (∀ i, buf.read i = none) ∧ dirty = List.replicate (s.cfg.height / 8) none)

/-- R147 with R142, step LOCAL: each local action has its effect, `pc` advances by one, and RET stores its value for the
response. -/
def Obligations.LocalActionsHaveTheirEffect : Prop :=
  ∀ (s : State) (b : Busy), s.refused = none → hostWaits 1 s.host → s.seq = .busy b → b.pending = false →
    (b.plan[b.pc]? = some .zeroBuf → ∃ buf, step s = .next { s with
        buf := buf, seq := .busy { b with pc := b.pc + 1 }, host := hostAfter 1 s.host } ∧
      ∀ i, buf.read i = if i < s.cfg.width * (s.cfg.height / 8) then some 0x00#8 else none) ∧
    (∀ pages, b.plan[b.pc]? = some (.clearDirty pages) → ∃ dirty, step s = .next { s with
        dirty := dirty, seq := .busy { b with pc := b.pc + 1 }, host := hostAfter 1 s.host } ∧
      dirty.length = s.dirty.length ∧
      ∀ p, p < s.dirty.length → dirty[p]? = if p ∈ pages then some (some false) else s.dirty[p]?) ∧
    (b.plan[b.pc]? = some .setInit → step s = .next { s with
        init := true, seq := .busy { b with pc := b.pc + 1 }, host := hostAfter 1 s.host }) ∧
    (∀ i v, b.plan[b.pc]? = some (.bufSet i v) → ∃ buf, step s = .next { s with
        buf := buf, dirty := s.dirty.set (i / s.cfg.width) (some true),
        seq := .busy { b with pc := b.pc + 1 }, host := hostAfter 1 s.host } ∧
      buf.read i = some v ∧ ∀ j, j ≠ i → buf.read j = s.buf.read j) ∧
    (∀ r, b.plan[b.pc]? = some (.ret r) → step s = .next { s with
        seq := .busy { b with pc := b.pc + 1, ret := r }, host := hostAfter 1 s.host })

/-- R148, step DONE, while the host waits. -/
def Obligations.DoneAnswersOkAndGoesIdle : Prop :=
  ∀ (s : State) (b : Busy), s.refused = none → hostWaits 1 s.host → s.seq = .busy b → b.pending = false →
    b.pc = b.plan.length →
    step s = .next { s with
      rsplog := s.rsplog ++ [{ op := b.op, status := .ok, value := b.ret, fail := none }],
      seq := .idle,
      host := hostAfter 1 s.host }

/-- R146 and R153: while the transport does not answer and the host waits, a pending write stays pending, step after step;
and an idle block whose host only pauses stays as it is (that waiting is a step to the same state, but for the pauses
taken off, is the model's choice, log 3). -/
def Obligations.AnUnansweredWriteWaitsForEver : Prop :=
  ∀ (s : State) (n : Nat), s.refused = none →
    ((s.seq = .idle ∧ ∀ e ∈ s.host, e = .pause) ∨
      (hostWaits n s.host ∧ ∃ b, s.seq = .busy b ∧ b.pending = true ∧ s.answers = [])) →
    run n s = .next { s with host := hostAfter n s.host }

/-! ### Refusals -/

/-- R39: while `REFUSED = 1` no step is admitted, not even a reset, and no meaning runs; so no step ever starts from a
marked state, and the mark is never cleared. -/
def Obligations.NothingRunsAfterARefusal : Prop :=
  ∀ (s : State) (r : Reason), s.refused = some r →
    step s = .refused .afterRefusal ∧ (∀ i, exec i s = .refused .afterRefusal) ∧
    (∀ w p, accept w p s = .refused .afterRefusal) ∧ (∀ input, resetInput input s = .refused .afterRefusal)

/-- R253: a step that refuses sets the mark and changes nothing else but that the host's event is taken. -/
def Obligations.ARefusalWritesOnlyTheMark : Prop :=
  ∀ (s t : State) (r : Reason), step s = .next t → t.refused = some r →
    ∃ ev rest, s.host = ev :: rest ∧ t = { s with host := rest, refused := some r }

/-! ### Reset -/

/-- R282 and R283: a valid reset, in any state with `REFUSED = 0`, idle or busy: `CFG` is latched, `INIT` is 0, `SEQ` idle,
every cell of `BUF` and `DIRTY` without a value; the logs stay, but that a pending write becomes ABANDONED; no response is
appended. -/
def Obligations.ValidResetAppliesTheResetValues : Prop :=
  ∀ (s : State) (r : ResetInput), s.refused = none → r.valid = true →
    ∃ buf log, resetInput r s = .next { s with
        cfg := r.toCfg, init := false, seq := .idle, buf := buf,
        dirty := List.replicate (r.height / 8) none, txlog := log } ∧
      (∀ i, buf.read i = none) ∧
      ((s.seq = .idle ∨ ∃ b, s.seq = .busy b ∧ b.pending = false) → log = s.txlog) ∧
      (∀ b before e, s.seq = .busy b → b.pending = true → s.txlog = before ++ [e] →
        log = before ++ [{ e with result := .abandoned }])

/-- R281: the reset input is accepted exactly where the eight conditions hold (each omitted parameter at its default), and
refused with `REF_BAD_CONFIG` elsewhere. -/
def Obligations.ResetChecksTheConfiguration : Prop :=
  ∀ (s : State) (r : ResetInput), s.refused = none →
    let conditions :=
      (1 ≤ r.width ∧ r.width ≤ 256) ∧
      (8 ≤ r.height ∧ r.height ≤ 256 ∧ r.height % 8 = 0) ∧
      (1 ≤ r.dataSize ∧ r.dataSize ≤ 65535) ∧
      r.devAddr.getD 0x3C ≤ 0x7F ∧
      r.toCfg.regCmd ≠ r.toCfg.regData ∧
      r.toCfg.pageBase.toNat + r.height / 8 - 1 ≤ 0xFF ∧
      (∀ e ∈ r.toCfg.initSeq, 1 ≤ e.length ∧ e.length ≤ r.dataSize) ∧
      (r.toCfg.colFraming = .joined → 2 ≤ r.dataSize)
    (conditions → ∃ t, resetInput r s = .next t ∧ t.refused = none ∧ t.cfg = r.toCfg) ∧
    (¬ conditions → resetInput r s = .next { s with refused := some .badConfig })

/-- R280 and R6: the configuration a reset input latches: what it gives, and the default where it omits a parameter. The
values 0x00, 0x40, 0xB0 are the spec's general-knowledge defaults (log 6). -/
def Obligations.ResetTakesDefaultsForOmittedParameters : Prop :=
  ∀ r : ResetInput,
    (r.toCfg.width = r.width ∧ r.toCfg.height = r.height ∧ r.toCfg.dataSize = r.dataSize) ∧
    (r.devAddr = none → r.toCfg.devAddr = 0x3C#7) ∧
    (∀ a, r.devAddr = some a → a ≤ 0x7F → r.toCfg.devAddr.toNat = a) ∧
    (r.regCmd = none → r.toCfg.regCmd = 0x00#8) ∧ (∀ v, r.regCmd = some v → r.toCfg.regCmd = v) ∧
    (r.regData = none → r.toCfg.regData = 0x40#8) ∧ (∀ v, r.regData = some v → r.toCfg.regData = v) ∧
    (r.pageBase = none → r.toCfg.pageBase = 0xB0#8) ∧ (∀ v, r.pageBase = some v → r.toCfg.pageBase = v) ∧
    (r.colFraming = none → r.toCfg.colFraming = .split) ∧
    (∀ v, r.colFraming = some v → r.toCfg.colFraming = v) ∧
    (r.dirtyPolicy = none → r.toCfg.dirtyPolicy = .global) ∧
    (∀ v, r.dirtyPolicy = some v → r.toCfg.dirtyPolicy = v) ∧
    (r.initSeq = none → ∃ b, r.toCfg.initSeq = defaultInitSeq b r.toCfg.pageBase) ∧
    (∀ v, r.initSeq = some v → r.toCfg.initSeq = v)

/-- R201: the default sequence, for every value of its named bytes: 18 entries, 26 bytes in all, in the document's order
with its double-byte entries. -/
def Obligations.DefaultSequenceHasEighteenEntries : Prop :=
  ∀ (b : DefaultBytes) (pageBase : Byte),
    defaultInitSeq b pageBase =
      [[0xAE#8], [0xD5#8, 0x50#8], [0x00#8], [0x10#8], [b.cmdAddrMode], [b.cmdContrast, b.pContrast],
       [b.cmdSegRemap], [b.cmdMux, b.pMux], [b.cmdEntireOff], [b.cmdNormal], [b.cmdOffset, b.pOffset],
       [b.cmdDcdc, b.pDcdc], [pageBase], [b.cmdComScan], [b.cmdPrecharge, b.pPrecharge],
       [b.cmdVcomh, b.pVcomh], [b.cmdStartLine, b.pStartLine], [0xAF#8]] ∧
    (defaultInitSeq b pageBase).length = 18 ∧ (defaultInitSeq b pageBase).flatten.length = 26

/-- R44: the state after reset. The three sizes are OPEN in the spec; 128, 64 and 32 are the model's choice (log 5). -/
def Obligations.ResetStateHasTheResetValues : Prop :=
  State.reset.init = false ∧ State.reset.seq = .idle ∧ (∀ i, State.reset.buf.read i = none) ∧
  State.reset.dirty = List.replicate 8 none ∧ State.reset.txlog = [] ∧ State.reset.rsplog = [] ∧
  State.reset.refused = none ∧ State.reset.cfg.devAddr = 0x3C#7 ∧ State.reset.cfg.colFraming = .split ∧
  State.reset.cfg.dirtyPolicy = .global ∧ State.reset.cfg.width = 128 ∧ State.reset.cfg.height = 64 ∧
  State.reset.cfg.dataSize = 32

/-- R41: a valid configuration fits the register widths, and `PAGE_BASE + p` never exceeds a byte. -/
def Obligations.ValidConfigurationFitsTheRegisterWidths : Prop :=
  ∀ c : Cfg, c.valid = true →
    c.dataSize < 2 ^ 16 ∧ c.width < 2 ^ 9 ∧ c.height < 2 ^ 9 ∧ c.npages < 2 ^ 6 ∧ c.npages * 8 = c.height ∧
    c.nbytes < 2 ^ 16 ∧ ∀ p, p < c.npages → (pageByte c p).toNat = c.pageBase.toNat + p

/-! ### Rules of the whole machine -/

/-- The invariant holds right after reset. -/
def Obligations.InvariantHoldsAtReset : Prop := Invariant State.reset

/-- The invariant is kept by every step, from every state that meets it, whatever the host and the transport do: the
configuration stays valid, `BUF` canonical and in range, `DIRTY` of `NPAGES` cells, `INIT = 1` leaves no ⊥ (R44), a busy
sequencer is in order (R36), at most one write is outstanding (R84). -/
def Obligations.EveryStepKeepsTheInvariant : Prop :=
  ∀ s t : State, Invariant s → step s = .next t → Invariant t

/-- R44: no step from a state that meets the invariant ends in a fault: no ⊥ cell is ever read. -/
def Obligations.NoStepFaultsUnderTheInvariant : Prop :=
  ∀ (s : State) (f : Fault), Invariant s → step s ≠ .fault f

/-- R32: a step at a state whose host drives a valid reset (now, idle or busy, or once the sequencer is idle) is that
reset's, and latches its configuration in `CFG`; and no other step changes `CFG`. -/
def Obligations.OnlyAResetWritesTheConfiguration : Prop :=
  (∀ (s : State) (r : ResetInput) (rest : List HostEvent), s.refused = none → r.valid = true →
    (s.host = .present (.reset r) :: rest ∨ (s.host = .call (.reset r) :: rest ∧ s.seq = .idle)) →
    ∃ t, step s = .next t ∧ resetInput r { s with host := rest } = .next t ∧ t.cfg = r.toCfg) ∧
  (∀ s t : State, step s = .next t → t.cfg = s.cfg ∨
    ∃ r rest, (s.host = .present (.reset r) :: rest ∨ (s.host = .call (.reset r) :: rest ∧ s.seq = .idle)) ∧
      r.valid = true ∧ t.cfg = r.toCfg)

/-- R35: `INIT` goes from 0 to 1 only by the action SET_INIT of a running plan, and from 1 to 0 only by a reset or by the
failure of a write of INITIALIZE. -/
def Obligations.InitIsWrittenOnlyBySetInitFailureAndReset : Prop :=
  ∀ s t : State, step s = .next t →
    (s.init = false → t.init = true →
      ∃ b, s.seq = .busy b ∧ b.pending = false ∧ b.plan[b.pc]? = some .setInit) ∧
    (s.init = true → t.init = false →
      (∃ r rest, (s.host = .present (.reset r) :: rest ∨ s.host = .call (.reset r) :: rest) ∧ r.valid = true) ∨
      (∃ b rest, s.seq = .busy b ∧ b.pending = true ∧ b.op = 0x20#8 ∧ s.answers = .fail :: rest))

/-- R85 and R81: what can change a cell of `BUF`: a BUF_WRITE or SET_PIXEL request accepted while idle, the actions
ZERO_BUF and BUF_SET of a running plan, the failure of INITIALIZE, and a reset. In particular no step of a running UPDATE
does, since its plan holds neither action. R34 and R42: what can change a cell of `DIRTY`, and to what: BUF_WRITE,
SET_PIXEL and BUF_SET set the written page's bit, CLEAR_DIRTY clears the bits of its pages, the failure of INITIALIZE and a
reset leave every cell without a value. -/
def Obligations.BufAndDirtyChangeOnlyByTheirWriters : Prop :=
  (∀ s t : State, step s = .next t → t.buf ≠ s.buf →
    (s.seq = .idle ∧ ∃ w p rest i, (s.host = .present (.request w p) :: rest ∨ s.host = .call (.request w p) :: rest) ∧
      decode (.request w p) = .ok i ∧ ((∃ k v, i = .bufWrite k v) ∨ (∃ x y on, i = .setPixel x y on))) ∨
    (∃ b, s.seq = .busy b ∧ b.pending = false ∧
      (b.plan[b.pc]? = some .zeroBuf ∨ ∃ i v, b.plan[b.pc]? = some (.bufSet i v))) ∨
    (∃ b rest, s.seq = .busy b ∧ b.pending = true ∧ b.op = 0x20#8 ∧ s.answers = .fail :: rest) ∨
    (∃ r rest, (s.host = .present (.reset r) :: rest ∨ s.host = .call (.reset r) :: rest) ∧ r.valid = true)) ∧
  (∀ s t : State, step s = .next t → t.dirty ≠ s.dirty →
    (s.seq = .idle ∧ ∃ w p rest, (s.host = .present (.request w p) :: rest ∨ s.host = .call (.request w p) :: rest) ∧
      ((∃ (k : BufIndex) (v : Byte), decode (.request w p) = .ok (.bufWrite k v) ∧
          t.dirty = s.dirty.set (k.toNat / s.cfg.width) (some true)) ∨
       (∃ (x y : Byte) (on : Bool), decode (.request w p) = .ok (.setPixel x y on) ∧
          t.dirty = s.dirty.set (y.toNat / 8) (some true)))) ∨
    (∃ b, s.seq = .busy b ∧ b.pending = false ∧
      ((∃ pages, b.plan[b.pc]? = some (.clearDirty pages) ∧ t.dirty.length = s.dirty.length ∧
          ∀ p, p < s.dirty.length → t.dirty[p]? = if p ∈ pages then some (some false) else s.dirty[p]?) ∨
       (∃ i v, b.plan[b.pc]? = some (.bufSet i v) ∧ t.dirty = s.dirty.set (i / s.cfg.width) (some true)))) ∨
    (∃ b rest, s.seq = .busy b ∧ b.pending = true ∧ b.op = 0x20#8 ∧ s.answers = .fail :: rest ∧
      t.dirty = List.replicate (s.cfg.height / 8) none) ∨
    (∃ r rest, (s.host = .present (.reset r) :: rest ∨ s.host = .call (.reset r) :: rest) ∧ r.valid = true ∧
      t.dirty = List.replicate (r.height / 8) none))

/-- R37 and R84: a step leaves `TXLOG` as it is, or appends one pending event at `DEV_ADDR`, or sets the result of the one
pending event, the last, to OK, FAIL or ABANDONED; nothing else of the log ever changes. R38: a step leaves `RSPLOG` as it
is, or appends one response, of the running operation as it ends (or of an immediate operation as it is accepted); and an
operation ends with its response, but where a reset abandons it. So a program's run (R151) that is left with no host
event, an idle sequencer and no refusal has ended, with one response for each of its requests; it may start idle, or busy
where the program's reset acts at once (R283; which states a run starts from is the model's choice, log 19). -/
def Obligations.TxLogAndRspLogOnlyGrow : Prop :=
  (∀ s t : State, Invariant s → step s = .next t →
    t.txlog = s.txlog ∨
    (∃ e, e.result = .pending ∧ e.addr = s.cfg.devAddr ∧ t.txlog = s.txlog ++ [e] ∧
      ∀ x ∈ s.txlog, x.result ≠ .pending) ∨
    (∃ before e r, s.txlog = before ++ [e] ∧ e.result = .pending ∧ r ≠ .pending ∧
      t.txlog = before ++ [{ e with result := r }])) ∧
  (∀ s t : State, step s = .next t →
    (t.rsplog = s.rsplog ∨
      ∃ r, t.rsplog = s.rsplog ++ [r] ∧ t.seq = .idle ∧
        ((∃ b, s.seq = .busy b ∧ r.op = b.op) ∨
         (s.seq = .idle ∧ r.status = .ok ∧ ∃ w p rest,
          (s.host = .present (.request w p) :: rest ∨ s.host = .call (.request w p) :: rest) ∧
          r.op = w.extractLsb' 24 8 ∧ r.op ∈ [0x40#8, 0x41#8, 0x42#8, 0x50#8]))) ∧
    (∀ b, s.seq = .busy b → t.seq = .idle →
      (∃ r, t.rsplog = s.rsplog ++ [r] ∧ r.op = b.op) ∨
      ∃ i rest, s.host = .present (.reset i) :: rest ∧ i.valid = true)) ∧
  (∀ (p : Program) (n : Nat) (start s : State), p.StartsIn start →
    run n start = .next s → s.host = [] → s.seq = .idle → s.refused = none → p.EndsIn start s)

/-- R167 with R108 and R74: whatever a step from a state that meets the invariant issues carries 1 to `DATA_SIZE` payload
bytes, one of the two selectors, and the address `DEV_ADDR`. -/
def Obligations.IssuedWritesStayWithinTheChunkLimit : Prop :=
  ∀ (s t : State) (e : TxEvent), Invariant s → step s = .next t → t.txlog = s.txlog ++ [e] →
    1 ≤ e.payload.length ∧ e.payload.length ≤ s.cfg.dataSize ∧ (e.reg = s.cfg.regCmd ∨ e.reg = s.cfg.regData) ∧
    e.addr = s.cfg.devAddr

/-! ### Laws of the framer and the encoder -/

/-- R165: for every chunk limit C ≥ 1 and every payload, the chunks that SEND_DATA's plan carries are `ceil(L/C)` in
number (none for L = 0), each has 1 to C bytes, they concatenate to the payload, and chunk k is the payload's range from
`k*C` to `min((k+1)*C, L)`, so they are disjoint ranges in ascending order. -/
def Obligations.ChunkingLaws : Prop :=
  ∀ (s : State) (p : List Byte), s.refused = none → s.seq = .idle → 1 ≤ s.cfg.dataSize →
    ∃ (t : State) (b : Busy) (payloads : List (List Byte)), exec (.sendData p) s = .next t ∧ t.seq = .busy b ∧
      b.plan = payloads.mapIdx (fun k bs =>
        .wr s.cfg.regData bs { phase := .data, entry := none, page := none, chunk := some k }) ∧
      payloads.length = (p.length + s.cfg.dataSize - 1) / s.cfg.dataSize ∧
      (p = [] → payloads = []) ∧
      (∀ bs ∈ payloads, 1 ≤ bs.length ∧ bs.length ≤ s.cfg.dataSize) ∧
      payloads.flatten = p ∧
      (∀ k, k < payloads.length → payloads[k]? =
        some ((p.take (min ((k + 1) * s.cfg.dataSize) p.length)).drop (k * s.cfg.dataSize)))

/-- R187: the set-page byte is injective in the page; the two column bytes decode back to the column and lie in disjoint
ranges, for every column. -/
def Obligations.AddressingEncoderLaws : Prop :=
  (∀ (c : Cfg) (p : Nat) (ph : Phase), ∃ byte t, pageCmd c p ph = [.wr c.regCmd [byte] t]) ∧
  (∀ (c : Cfg) (p q : Nat), c.valid = true → p < c.npages → q < c.npages → pageByte c p = pageByte c q → p = q) ∧
  (∀ (c : Cfg) (x : Byte) (pg : Option Nat) (ph : Phase),
    (colCmd c x pg ph).flatMap (fun a => match a with | .wr _ bs _ => bs | _ => []) =
      [x &&& 0x0F#8, 0x10#8 ||| ((x &&& 0xF0#8) >>> 4)]) ∧
  (∀ x : Byte, x.toNat = ((colHigh x) &&& 0x0F#8).toNat * 16 + (colLow x).toNat ∧
    (colLow x).toNat ≤ 0x0F ∧ 0x10 ≤ (colHigh x).toNat ∧ (colHigh x).toNat ≤ 0x1F)

/-- R207: the write count of a successful INITIALIZE, and of its command and data writes, over the plan that INITIALIZE
is accepted with. -/
def Obligations.InitializeWriteCount : Prop :=
  ∀ (s : State), s.refused = none → s.seq = .idle → s.cfg.valid = true →
    ∃ (t : State) (b : Busy), exec .initializeDisplay s = .next t ∧ t.seq = .busy b ∧
      let k := positionWrites s.cfg
      let n := s.cfg.height / 8
      let w := (s.cfg.width + s.cfg.dataSize - 1) / s.cfg.dataSize
      writeCount b.plan = s.cfg.initSeq.length + n * (k + w) ∧
      writeCountTo s.cfg.regCmd b.plan = s.cfg.initSeq.length + n * k ∧
      writeCountTo s.cfg.regData b.plan = n * w

/-- R226: the write count of a successful UPDATE a..b with a ≤ b, and of its command and data writes, over the plan that
UPDATE is accepted with. -/
def Obligations.UpdateWriteCount : Prop :=
  ∀ (s : State) (first last : Byte), s.refused = none → s.seq = .idle → s.cfg.valid = true → s.init = true →
    bufDefined s.cfg s.buf → first.toNat ≤ last.toNat → last.toNat < s.cfg.height / 8 →
    ∃ (t : State) (b : Busy), exec (.update first last) s = .next t ∧ t.seq = .busy b ∧
      let k := positionWrites s.cfg
      let n := last.toNat - first.toNat + 1
      let w := (s.cfg.width + s.cfg.dataSize - 1) / s.cfg.dataSize
      writeCount b.plan = n * (k + w) ∧
      writeCountTo s.cfg.regCmd b.plan = n * k ∧
      writeCountTo s.cfg.regData b.plan = n * w

/-- A pixel reads as SET_PIXEL left it, and every other pixel of the display as before (R73, R242): the page, column and
bit of a pixel never coincide with another's. -/
def Obligations.SetPixelChangesOnePixel : Prop :=
  ∀ (s : State) (x y x' y' : Byte) (on : Bool), s.refused = none → s.seq = .idle → s.init = true →
    s.cfg.valid = true → bufDefined s.cfg s.buf → x.toNat < s.cfg.width → y.toNat < s.cfg.height →
    x'.toNat < s.cfg.width → y'.toNat < s.cfg.height →
    ∃ (t : State) (before after : Byte), exec (.setPixel x y on) s = .next t ∧
      s.buf.read (y'.toNat / 8 * s.cfg.width + x'.toNat) = some before ∧
      t.buf.read (y'.toNat / 8 * s.cfg.width + x'.toNat) = some after ∧
      after.getLsbD (y'.toNat % 8) = if x' = x ∧ y' = y then on else before.getLsbD (y'.toNat % 8)

/-! ### Whole runs -/

/-- R143, R144, R147, R148, R84: a plan whose writes are all answered OK, while the host waits, runs to its end in
`planSteps` steps: its writes stand in `TXLOG` in plan order, all OK, its local actions have had their effect, and one OK
response is appended. -/
def Obligations.AnAnsweredPlanRunsToDone : Prop :=
  ∀ (s : State) (op : Byte) (plan : List Action) (rest : List Answer), s.refused = none →
    hostWaits (planSteps plan) s.host →
    s.seq = .busy { op := op, plan := plan, pc := 0, pending := false, nwr := 0, ret := .empty } →
    s.answers = List.replicate (writeCount plan) .ok ++ rest →
    run (planSteps plan) s = .next { runLocals plan s with
      txlog := s.txlog ++ planEvents s.cfg.devAddr .ok plan,
      rsplog := s.rsplog ++ [{ op := op, status := .ok, value := planValue plan .empty, fail := none }],
      seq := .idle,
      host := hostAfter (planSteps plan) s.host,
      answers := rest }

/-- R145, R166, R255, R257 and R205: a plan whose first n writes are answered OK and whose next write is answered FAIL, while
the host waits, ends there: the failing write is the last event of `TXLOG`, no later action has run, and the one failed
response names the operation, n and the failing write's tag. For an operation other than INITIALIZE the local actions
before the failing write have had their effect, and nothing else has changed; for INITIALIZE, `INIT` is 0 and every cell of
`BUF` and `DIRTY` is without a value. -/
def Obligations.AFailedWriteEndsThePlan : Prop :=
  ∀ (s : State) (op : Byte) (before after : List Action) (reg : Byte) (payload : List Byte) (tag : Tag)
    (rest : List Answer), s.refused = none → hostWaits (before.length + writeCount before + 2) s.host →
    s.seq = .busy { op := op, plan := before ++ .wr reg payload tag :: after, pc := 0, pending := false, nwr := 0,
                    ret := .empty } →
    s.answers = List.replicate (writeCount before) .ok ++ .fail :: rest →
    let txlog := s.txlog ++ planEvents s.cfg.devAddr .ok before ++
      [{ addr := s.cfg.devAddr, reg := reg, payload := payload, tag := tag, result := .fail }]
    let rsplog := s.rsplog ++ [{ op := op, status := .transportFail, value := .empty,
                                 fail := some { op := op, wrIndex := writeCount before, tag := tag } }]
    let host := hostAfter (before.length + writeCount before + 2) s.host
    (op ≠ 0x20#8 → run (before.length + writeCount before + 2) s = .next { runLocals before s with
      txlog := txlog, rsplog := rsplog, seq := .idle, host := host, answers := rest }) ∧
    (op = 0x20#8 → ∃ buf, run (before.length + writeCount before + 2) s = .next { s with
        txlog := txlog, rsplog := rsplog, seq := .idle, host := host, answers := rest,
        init := false, buf := buf, dirty := List.replicate (s.cfg.height / 8) none } ∧
      ∀ i, buf.read i = none)

/-- R202 to R204: from a state that meets the invariant, with the sequencer idle, a host that presents or calls INITIALIZE
(0x20000000) and then waits, and a transport that answers every write OK, the run comes to `INIT = 1`, every cell of `BUF`
0x00, every bit of `DIRTY` 0, one OK response, the new events of `TXLOG` all OK and their data writes carrying
`NPAGES * WIDTH` zero bytes in all. Where the host has nothing further, the run of that program has ended (R151). -/
def Obligations.InitializeRunsToAClearedDisplay : Prop :=
  ∀ (s : State) (later : List HostEvent) (rest : List Answer), Invariant s → s.refused = none → s.seq = .idle →
    (s.host = .present (.request 0x20000000#32 []) :: later ∨ s.host = .call (.request 0x20000000#32 []) :: later) →
    hostWaits (planSteps (initPlan s.cfg)) later →
    s.answers = List.replicate (writeCount (initPlan s.cfg)) .ok ++ rest →
    ∃ t events, run (1 + planSteps (initPlan s.cfg)) s = .next t ∧
      t.seq = .idle ∧ t.refused = none ∧ t.host = hostAfter (planSteps (initPlan s.cfg)) later ∧
      t.init = true ∧ t.cfg = s.cfg ∧ t.answers = rest ∧
      (∀ i, i < s.cfg.nbytes → t.buf.read i = some 0x00#8) ∧
      t.dirty = List.replicate s.cfg.npages (some false) ∧
      t.rsplog = s.rsplog ++ [{ op := 0x20#8, status := .ok, value := .empty, fail := none }] ∧
      t.txlog = s.txlog ++ events ∧ (∀ e ∈ events, e.result = .ok ∧ e.addr = s.cfg.devAddr) ∧
      deliveredTo s.cfg.regData events = List.replicate s.cfg.nbytes 0x00#8 ∧
      (later = [] → Program.EndsIn { reset := none, requests := [(0x20000000#32, [])] } s t)

/-- R220 to R222: from a state that meets the invariant, idle and initialized, an UPDATE of pages a..b (a ≤ b) that a
transport answers OK throughout, while the host waits, delivers to the data selector exactly the buffer's bytes of those
pages in ascending order, leaves `BUF` and `INIT` as they were, clears the dirty bits of every page (GLOBAL) or of the range
(RANGE) and no other, and answers OK, in two steps a write and two more. -/
def Obligations.UpdateDeliversThePagesOfTheBuffer : Prop :=
  ∀ (s : State) (first last : Byte) (rest : List Answer), Invariant s → s.refused = none → s.seq = .idle → s.init = true →
    first.toNat ≤ last.toNat → last.toNat < s.cfg.npages →
    let writes := (last.toNat - first.toNat + 1) *
      (positionWrites s.cfg + (s.cfg.width + s.cfg.dataSize - 1) / s.cfg.dataSize)
    hostWaits (2 * writes + 2) s.host →
    s.answers = List.replicate writes .ok ++ rest →
    ∃ s' t events, exec (.update first last) s = .next s' ∧ run (2 * writes + 2) s' = .next t ∧
      t.seq = .idle ∧ t.refused = none ∧ t.host = hostAfter (2 * writes + 2) s.host ∧
      t.init = true ∧ t.cfg = s.cfg ∧ t.buf = s.buf ∧ t.answers = rest ∧
      t.rsplog = s.rsplog ++ [{ op := 0x30#8, status := .ok, value := .empty, fail := none }] ∧
      t.txlog = s.txlog ++ events ∧ (∀ e ∈ events, e.result = .ok) ∧
      (deliveredTo s.cfg.regData events).map some =
        (List.range' (first.toNat * s.cfg.width) ((last.toNat - first.toNat + 1) * s.cfg.width)).map s.buf.read ∧
      (∀ p, p < s.cfg.npages → t.dirty[p]? =
        if s.cfg.dirtyPolicy = .global ∨ (first.toNat ≤ p ∧ p ≤ last.toNat) then some (some false) else s.dirty[p]?)

/-- R223: an UPDATE whose write k (0-based) answers FAIL after k OK answers, while the host waits, issues no later write,
leaves `DIRTY`, `BUF` and `INIT` as they were under either policy, and its failure record names the page being flushed. -/
def Obligations.AFailedUpdateClearsNothing : Prop :=
  ∀ (s : State) (first last : Byte) (k : Nat) (rest : List Answer), Invariant s → s.refused = none → s.seq = .idle →
    s.init = true → first.toNat ≤ last.toNat → last.toNat < s.cfg.npages → hostWaits (2 * k + 2) s.host →
    let perPage := positionWrites s.cfg +
      (s.cfg.width + s.cfg.dataSize - 1) / s.cfg.dataSize
    k < (last.toNat - first.toNat + 1) * perPage →
    s.answers = List.replicate k .ok ++ .fail :: rest →
    ∃ s' t events tag, exec (.update first last) s = .next s' ∧ run (2 * k + 2) s' = .next t ∧
      t.seq = .idle ∧ t.refused = none ∧ t.host = hostAfter (2 * k + 2) s.host ∧ t.answers = rest ∧ t.cfg = s.cfg ∧
      t.dirty = s.dirty ∧ t.buf = s.buf ∧ t.init = true ∧
      t.txlog = s.txlog ++ events ∧ events.length = k + 1 ∧
      (∃ before e, events = before ++ [e] ∧ e.result = .fail ∧ e.tag = tag ∧ ∀ x ∈ before, x.result = .ok) ∧
      t.rsplog = s.rsplog ++ [{ op := 0x30#8, status := .transportFail, value := .empty,
                                fail := some { op := 0x30#8, wrIndex := k, tag := tag } }] ∧
      tag.page = some (first.toNat + k / perPage)

/-- R225: in the state a failed UPDATE ends in (its write k answered FAIL, with a failed response), the same request is
accepted again with the very plan of the failed attempt, each page behind its position command (R220); and it is so in
every idle, initialized state with the same `CFG` and `BUF`, whatever else differs. -/
def Obligations.AFailedUpdateCanBeRetried : Prop :=
  ∀ (s : State) (first last : Byte) (k : Nat) (rest : List Answer), Invariant s → s.refused = none → s.seq = .idle →
    s.init = true → first.toNat ≤ last.toNat → last.toNat < s.cfg.npages → hostWaits (2 * k + 2) s.host →
    k < (last.toNat - first.toNat + 1) *
      (positionWrites s.cfg + (s.cfg.width + s.cfg.dataSize - 1) / s.cfg.dataSize) →
    s.answers = List.replicate k .ok ++ .fail :: rest →
    ∃ s' b t r, exec (.update first last) s = .next s' ∧ s'.seq = .busy b ∧
      run (2 * k + 2) s' = .next t ∧ t.rsplog = s.rsplog ++ [r] ∧ r.status = .transportFail ∧
      exec (.update first last) t = .next { t with seq := .busy b } ∧
      ∀ u : State, u.refused = none → u.seq = .idle → u.init = true → u.cfg = s.cfg → u.buf = s.buf →
        exec (.update first last) u = .next { u with seq := .busy b }

/-- R224: an UPDATE of an empty range is accepted, issues no write and answers OK; under GLOBAL it clears every dirty bit,
under RANGE it changes nothing but the response log. The host waits meanwhile. -/
def Obligations.AnEmptyUpdateWritesNothing : Prop :=
  ∀ (s : State) (first last : Byte), s.refused = none → s.seq = .idle → s.init = true → hostWaits 2 s.host →
    last.toNat < first.toNat → first.toNat < s.cfg.npages → s.dirty.length = s.cfg.npages →
    ∃ s', exec (.update first last) s = .next s' ∧
      run 2 s' = .next { s with
        dirty := (match s.cfg.dirtyPolicy with
          | .global => List.replicate s.cfg.npages (some false)
          | .range => s.dirty),
        rsplog := s.rsplog ++ [{ op := 0x30#8, status := .ok, value := .empty, fail := none }],
        host := hostAfter 2 s.host }

/-! ### The assembler -/

/-- R115, R116 and R102: the assembler's word for every form of a line, with operands in the order written (SET_POSITION the
column first, UPDATE start then end, SET_PIXEL x, y, on). It refuses, with `REF_FIELD_RANGE` and in every form that has such
an operand, a page, column, value, x or y beyond 255, an index beyond 0xFFFF, an `on` that is neither 0 nor 1, and a byte
list that is longer than 65535 or holds a byte beyond 255; it expands the short forms. R253: a line that is submitted is
presented as the request or the reset it stands for, and one that is refused sets the mark and changes nothing else. -/
def Obligations.AssemblerChecksFieldsAndExpandsShortForms : Prop :=
  ∀ n npages a b : Nat,
    (∀ bs : List Nat, bs.length ≤ 65535 → (∀ x ∈ bs, x ≤ 255) →
      assemble npages (.sendCommand bs) =
        .ok (.request (BitVec.ofNat 32 (0x01000000 + bs.length)) (bs.map (BitVec.ofNat 8))) ∧
      assemble npages (.sendData bs) =
        .ok (.request (BitVec.ofNat 32 (0x02000000 + bs.length)) (bs.map (BitVec.ofNat 8)))) ∧
    (n ≤ 255 →
      assemble npages (.setPage n) = .ok (.request (BitVec.ofNat 32 (0x10000000 + n)) []) ∧
      assemble npages (.setColumn n) = .ok (.request (BitVec.ofNat 32 (0x11000000 + n)) [])) ∧
    (a ≤ 255 → b ≤ 255 →
      assemble npages (.setPosition a b) = .ok (.request (BitVec.ofNat 32 (0x12000000 + b * 256 + a)) []) ∧
      assemble npages (.update a b) = .ok (.request (BitVec.ofNat 32 (0x30000000 + b * 256 + a)) []) ∧
      (n ≤ 1 → assemble npages (.setPixel a b n) =
        .ok (.request (BitVec.ofNat 32 (0x42000000 + n * 65536 + b * 256 + a)) []))) ∧
    (n ≤ 0xFFFF →
      assemble npages (.bufRead n) = .ok (.request (BitVec.ofNat 32 (0x41000000 + n * 256)) []) ∧
      (a ≤ 255 → assemble npages (.bufWrite n a) = .ok (.request (BitVec.ofNat 32 (0x40000000 + n * 256 + a)) []))) ∧
    assemble npages .initializeDisplay = .ok (.request 0x20000000#32 []) ∧
    assemble npages .dirtyStatus = .ok (.request 0x50000000#32 []) ∧
    (∀ r, assemble npages (.reset r) = .ok (.reset r)) ∧
    (255 < n → ∀ line ∈ [AsmLine.setPage n, .setColumn n, .setPosition n a, .setPosition a n, .update n a, .update a n,
        .updateFrom n, .bufWrite a n, .setPixel n a b, .setPixel a n b],
      assemble npages line = .error .fieldRange) ∧
    (0xFFFF < n → ∀ line ∈ [AsmLine.bufRead n, .bufWrite n a], assemble npages line = .error .fieldRange) ∧
    (1 < n → assemble npages (.setPixel a b n) = .error .fieldRange) ∧
    (∀ bs : List Nat, (65535 < bs.length ∨ ∃ b ∈ bs, 255 < b) →
      assemble npages (.sendCommand bs) = .error .fieldRange ∧
      assemble npages (.sendData bs) = .error .fieldRange) ∧
    assemble npages (.sendCommandByte n) = assemble npages (.sendCommand [n]) ∧
    assemble npages .updateAll = assemble npages (.update 0 (npages - 1)) ∧
    assemble npages (.updateFrom a) = assemble npages (.update a (npages - 1)) ∧
    (∀ (s : State) (line : AsmLine), s.refused = none →
      (∀ w p, assemble s.cfg.npages line = .ok (.request w p) → submitLine line s = accept w p s) ∧
      (∀ r, assemble s.cfg.npages line = .ok (.reset r) → submitLine line s = resetInput r s) ∧
      (∀ e, assemble s.cfg.npages line = .error e → submitLine line s = .next { s with refused := some e }))
end

