-- ==== Sys2Proof/Laws/State.lean ====
section
/-! SUPPORT. One lemma per field per update of State: an update writes its own field and no other. -/

namespace Sys2Proof.Machine

@[simp] theorem State.setCfg_cfg (s : State) (v : Cfg) : (s.setCfg v).cfg = v := rfl
@[simp] theorem State.setCfg_buf (s : State) (v : Cfg) : (s.setCfg v).buf = s.buf := rfl
@[simp] theorem State.setCfg_dirty (s : State) (v : Cfg) : (s.setCfg v).dirty = s.dirty := rfl
@[simp] theorem State.setCfg_init (s : State) (v : Cfg) : (s.setCfg v).init = s.init := rfl
@[simp] theorem State.setCfg_seq (s : State) (v : Cfg) : (s.setCfg v).seq = s.seq := rfl
@[simp] theorem State.setCfg_txlog (s : State) (v : Cfg) : (s.setCfg v).txlog = s.txlog := rfl
@[simp] theorem State.setCfg_rsplog (s : State) (v : Cfg) : (s.setCfg v).rsplog = s.rsplog := rfl
@[simp] theorem State.setCfg_refused (s : State) (v : Cfg) : (s.setCfg v).refused = s.refused := rfl
@[simp] theorem State.setCfg_host (s : State) (v : Cfg) : (s.setCfg v).host = s.host := rfl
@[simp] theorem State.setCfg_answers (s : State) (v : Cfg) : (s.setCfg v).answers = s.answers := rfl

@[simp] theorem State.setBuf_cfg (s : State) (v : Memory) : (s.setBuf v).cfg = s.cfg := rfl
@[simp] theorem State.setBuf_buf (s : State) (v : Memory) : (s.setBuf v).buf = v := rfl
@[simp] theorem State.setBuf_dirty (s : State) (v : Memory) : (s.setBuf v).dirty = s.dirty := rfl
@[simp] theorem State.setBuf_init (s : State) (v : Memory) : (s.setBuf v).init = s.init := rfl
@[simp] theorem State.setBuf_seq (s : State) (v : Memory) : (s.setBuf v).seq = s.seq := rfl
@[simp] theorem State.setBuf_txlog (s : State) (v : Memory) : (s.setBuf v).txlog = s.txlog := rfl
@[simp] theorem State.setBuf_rsplog (s : State) (v : Memory) : (s.setBuf v).rsplog = s.rsplog := rfl
@[simp] theorem State.setBuf_refused (s : State) (v : Memory) : (s.setBuf v).refused = s.refused := rfl
@[simp] theorem State.setBuf_host (s : State) (v : Memory) : (s.setBuf v).host = s.host := rfl
@[simp] theorem State.setBuf_answers (s : State) (v : Memory) : (s.setBuf v).answers = s.answers := rfl

@[simp] theorem State.setDirty_cfg (s : State) (v : List (Option Bool)) : (s.setDirty v).cfg = s.cfg := rfl
@[simp] theorem State.setDirty_buf (s : State) (v : List (Option Bool)) : (s.setDirty v).buf = s.buf := rfl
@[simp] theorem State.setDirty_dirty (s : State) (v : List (Option Bool)) : (s.setDirty v).dirty = v := rfl
@[simp] theorem State.setDirty_init (s : State) (v : List (Option Bool)) : (s.setDirty v).init = s.init := rfl
@[simp] theorem State.setDirty_seq (s : State) (v : List (Option Bool)) : (s.setDirty v).seq = s.seq := rfl
@[simp] theorem State.setDirty_txlog (s : State) (v : List (Option Bool)) : (s.setDirty v).txlog = s.txlog := rfl
@[simp] theorem State.setDirty_rsplog (s : State) (v : List (Option Bool)) : (s.setDirty v).rsplog = s.rsplog := rfl
@[simp] theorem State.setDirty_refused (s : State) (v : List (Option Bool)) : (s.setDirty v).refused = s.refused := rfl
@[simp] theorem State.setDirty_host (s : State) (v : List (Option Bool)) : (s.setDirty v).host = s.host := rfl
@[simp] theorem State.setDirty_answers (s : State) (v : List (Option Bool)) : (s.setDirty v).answers = s.answers := rfl

@[simp] theorem State.setInit_cfg (s : State) (v : Bool) : (s.setInit v).cfg = s.cfg := rfl
@[simp] theorem State.setInit_buf (s : State) (v : Bool) : (s.setInit v).buf = s.buf := rfl
@[simp] theorem State.setInit_dirty (s : State) (v : Bool) : (s.setInit v).dirty = s.dirty := rfl
@[simp] theorem State.setInit_init (s : State) (v : Bool) : (s.setInit v).init = v := rfl
@[simp] theorem State.setInit_seq (s : State) (v : Bool) : (s.setInit v).seq = s.seq := rfl
@[simp] theorem State.setInit_txlog (s : State) (v : Bool) : (s.setInit v).txlog = s.txlog := rfl
@[simp] theorem State.setInit_rsplog (s : State) (v : Bool) : (s.setInit v).rsplog = s.rsplog := rfl
@[simp] theorem State.setInit_refused (s : State) (v : Bool) : (s.setInit v).refused = s.refused := rfl
@[simp] theorem State.setInit_host (s : State) (v : Bool) : (s.setInit v).host = s.host := rfl
@[simp] theorem State.setInit_answers (s : State) (v : Bool) : (s.setInit v).answers = s.answers := rfl

@[simp] theorem State.setSeq_cfg (s : State) (v : Seq) : (s.setSeq v).cfg = s.cfg := rfl
@[simp] theorem State.setSeq_buf (s : State) (v : Seq) : (s.setSeq v).buf = s.buf := rfl
@[simp] theorem State.setSeq_dirty (s : State) (v : Seq) : (s.setSeq v).dirty = s.dirty := rfl
@[simp] theorem State.setSeq_init (s : State) (v : Seq) : (s.setSeq v).init = s.init := rfl
@[simp] theorem State.setSeq_seq (s : State) (v : Seq) : (s.setSeq v).seq = v := rfl
@[simp] theorem State.setSeq_txlog (s : State) (v : Seq) : (s.setSeq v).txlog = s.txlog := rfl
@[simp] theorem State.setSeq_rsplog (s : State) (v : Seq) : (s.setSeq v).rsplog = s.rsplog := rfl
@[simp] theorem State.setSeq_refused (s : State) (v : Seq) : (s.setSeq v).refused = s.refused := rfl
@[simp] theorem State.setSeq_host (s : State) (v : Seq) : (s.setSeq v).host = s.host := rfl
@[simp] theorem State.setSeq_answers (s : State) (v : Seq) : (s.setSeq v).answers = s.answers := rfl

@[simp] theorem State.setTxlog_cfg (s : State) (v : List TxEvent) : (s.setTxlog v).cfg = s.cfg := rfl
@[simp] theorem State.setTxlog_buf (s : State) (v : List TxEvent) : (s.setTxlog v).buf = s.buf := rfl
@[simp] theorem State.setTxlog_dirty (s : State) (v : List TxEvent) : (s.setTxlog v).dirty = s.dirty := rfl
@[simp] theorem State.setTxlog_init (s : State) (v : List TxEvent) : (s.setTxlog v).init = s.init := rfl
@[simp] theorem State.setTxlog_seq (s : State) (v : List TxEvent) : (s.setTxlog v).seq = s.seq := rfl
@[simp] theorem State.setTxlog_txlog (s : State) (v : List TxEvent) : (s.setTxlog v).txlog = v := rfl
@[simp] theorem State.setTxlog_rsplog (s : State) (v : List TxEvent) : (s.setTxlog v).rsplog = s.rsplog := rfl
@[simp] theorem State.setTxlog_refused (s : State) (v : List TxEvent) : (s.setTxlog v).refused = s.refused := rfl
@[simp] theorem State.setTxlog_host (s : State) (v : List TxEvent) : (s.setTxlog v).host = s.host := rfl
@[simp] theorem State.setTxlog_answers (s : State) (v : List TxEvent) : (s.setTxlog v).answers = s.answers := rfl

@[simp] theorem State.setRsplog_cfg (s : State) (v : List Response) : (s.setRsplog v).cfg = s.cfg := rfl
@[simp] theorem State.setRsplog_buf (s : State) (v : List Response) : (s.setRsplog v).buf = s.buf := rfl
@[simp] theorem State.setRsplog_dirty (s : State) (v : List Response) : (s.setRsplog v).dirty = s.dirty := rfl
@[simp] theorem State.setRsplog_init (s : State) (v : List Response) : (s.setRsplog v).init = s.init := rfl
@[simp] theorem State.setRsplog_seq (s : State) (v : List Response) : (s.setRsplog v).seq = s.seq := rfl
@[simp] theorem State.setRsplog_txlog (s : State) (v : List Response) : (s.setRsplog v).txlog = s.txlog := rfl
@[simp] theorem State.setRsplog_rsplog (s : State) (v : List Response) : (s.setRsplog v).rsplog = v := rfl
@[simp] theorem State.setRsplog_refused (s : State) (v : List Response) : (s.setRsplog v).refused = s.refused := rfl
@[simp] theorem State.setRsplog_host (s : State) (v : List Response) : (s.setRsplog v).host = s.host := rfl
@[simp] theorem State.setRsplog_answers (s : State) (v : List Response) : (s.setRsplog v).answers = s.answers := rfl

@[simp] theorem State.setRefused_cfg (s : State) (v : Option Reason) : (s.setRefused v).cfg = s.cfg := rfl
@[simp] theorem State.setRefused_buf (s : State) (v : Option Reason) : (s.setRefused v).buf = s.buf := rfl
@[simp] theorem State.setRefused_dirty (s : State) (v : Option Reason) : (s.setRefused v).dirty = s.dirty := rfl
@[simp] theorem State.setRefused_init (s : State) (v : Option Reason) : (s.setRefused v).init = s.init := rfl
@[simp] theorem State.setRefused_seq (s : State) (v : Option Reason) : (s.setRefused v).seq = s.seq := rfl
@[simp] theorem State.setRefused_txlog (s : State) (v : Option Reason) : (s.setRefused v).txlog = s.txlog := rfl
@[simp] theorem State.setRefused_rsplog (s : State) (v : Option Reason) : (s.setRefused v).rsplog = s.rsplog := rfl
@[simp] theorem State.setRefused_refused (s : State) (v : Option Reason) : (s.setRefused v).refused = v := rfl
@[simp] theorem State.setRefused_host (s : State) (v : Option Reason) : (s.setRefused v).host = s.host := rfl
@[simp] theorem State.setRefused_answers (s : State) (v : Option Reason) : (s.setRefused v).answers = s.answers := rfl

@[simp] theorem State.setHost_cfg (s : State) (v : List HostEvent) : (s.setHost v).cfg = s.cfg := rfl
@[simp] theorem State.setHost_buf (s : State) (v : List HostEvent) : (s.setHost v).buf = s.buf := rfl
@[simp] theorem State.setHost_dirty (s : State) (v : List HostEvent) : (s.setHost v).dirty = s.dirty := rfl
@[simp] theorem State.setHost_init (s : State) (v : List HostEvent) : (s.setHost v).init = s.init := rfl
@[simp] theorem State.setHost_seq (s : State) (v : List HostEvent) : (s.setHost v).seq = s.seq := rfl
@[simp] theorem State.setHost_txlog (s : State) (v : List HostEvent) : (s.setHost v).txlog = s.txlog := rfl
@[simp] theorem State.setHost_rsplog (s : State) (v : List HostEvent) : (s.setHost v).rsplog = s.rsplog := rfl
@[simp] theorem State.setHost_refused (s : State) (v : List HostEvent) : (s.setHost v).refused = s.refused := rfl
@[simp] theorem State.setHost_host (s : State) (v : List HostEvent) : (s.setHost v).host = v := rfl
@[simp] theorem State.setHost_answers (s : State) (v : List HostEvent) : (s.setHost v).answers = s.answers := rfl

@[simp] theorem State.setAnswers_cfg (s : State) (v : List Answer) : (s.setAnswers v).cfg = s.cfg := rfl
@[simp] theorem State.setAnswers_buf (s : State) (v : List Answer) : (s.setAnswers v).buf = s.buf := rfl
@[simp] theorem State.setAnswers_dirty (s : State) (v : List Answer) : (s.setAnswers v).dirty = s.dirty := rfl
@[simp] theorem State.setAnswers_init (s : State) (v : List Answer) : (s.setAnswers v).init = s.init := rfl
@[simp] theorem State.setAnswers_seq (s : State) (v : List Answer) : (s.setAnswers v).seq = s.seq := rfl
@[simp] theorem State.setAnswers_txlog (s : State) (v : List Answer) : (s.setAnswers v).txlog = s.txlog := rfl
@[simp] theorem State.setAnswers_rsplog (s : State) (v : List Answer) : (s.setAnswers v).rsplog = s.rsplog := rfl
@[simp] theorem State.setAnswers_refused (s : State) (v : List Answer) : (s.setAnswers v).refused = s.refused := rfl
@[simp] theorem State.setAnswers_host (s : State) (v : List Answer) : (s.setAnswers v).host = s.host := rfl
@[simp] theorem State.setAnswers_answers (s : State) (v : List Answer) : (s.setAnswers v).answers = v := rfl

/-- States that agree in every field are equal. -/
theorem State.eq_of_fields {s t : State} (h1 : s.cfg = t.cfg) (h2 : s.buf = t.buf) (h3 : s.dirty = t.dirty)
    (h4 : s.init = t.init) (h5 : s.seq = t.seq) (h6 : s.txlog = t.txlog) (h7 : s.rsplog = t.rsplog)
    (h8 : s.refused = t.refused) (h9 : s.host = t.host) (h10 : s.answers = t.answers) : s = t := by
  cases s; cases t; simp_all

end Sys2Proof.Machine
end

