-- ==== Sys2Proof/Laws/Decode.lean ====
section
/-! SUPPORT. Decoding and encoding: the opcode assignment is one-to-one, the fields of an encoded word, the rows of the
opcode table do not overlap. -/

namespace Sys2Proof

/-- Each operation's opcode names it (R104). -/
@[simp] theorem Op.ofCode_code (op : Op) : Op.ofCode op.code = some op := by cases op <;> rfl

/-- Only its opcode names an operation (R105). -/
theorem Op.code_of_ofCode {c : Byte} {op : Op} (h : Op.ofCode c = some op) : op.code = c := by
  unfold Op.ofCode at h
  repeat' split at h
  all_goals first | cases h; (next hc => exact hc.symm) | cases h

/-- The opcode field of a word is its top byte as a number. -/
theorem opcodeField_toNat (w : ReqWord) : (opcodeField w).toNat = w.toNat / 2 ^ 24 % 256 := by
  simp [opcodeField, BitVec.extractLsb'_toNat, Nat.shiftRight_eq_div_pow]

theorem lowByteField_toNat (w : ReqWord) : (lowByteField w).toNat = w.toNat % 256 := by
  simp [lowByteField, BitVec.extractLsb'_toNat]

theorem midByteField_toNat (w : ReqWord) : (midByteField w).toNat = w.toNat / 2 ^ 8 % 256 := by
  simp [midByteField, BitVec.extractLsb'_toNat, Nat.shiftRight_eq_div_pow]

theorem indexField_toNat (w : ReqWord) : (indexField w).toNat = w.toNat / 2 ^ 8 % 65536 := by
  simp [indexField, BitVec.extractLsb'_toNat, Nat.shiftRight_eq_div_pow]

theorem countField_eq (w : ReqWord) : countField w = w.toNat % 65536 := by
  simp [countField, BitVec.extractLsb'_toNat]

/-- A concatenation as a number: the high part above the low part. -/
theorem append_toNat {n m : Nat} (x : BitVec n) (y : BitVec m) : (x ++ y).toNat = x.toNat * 2 ^ m + y.toNat := by
  rw [BitVec.toNat_append, ← Nat.shiftLeft_add_eq_or_of_lt y.isLt, Nat.shiftLeft_eq]

/-- The word of three operand bytes, as a number (R101). -/
theorem requestWord_toNat (op : Op) (a b c : Byte) :
    (requestWord op a b c).toNat = op.code.toNat * 2 ^ 24 + a.toNat * 2 ^ 16 + b.toNat * 2 ^ 8 + c.toNat := by
  unfold requestWord
  rw [append_toNat, append_toNat, append_toNat]
  omega

/-- The bits of a word under a mask of `len` ones from bit `start` are zero exactly when that field is zero. -/
theorem and_field_eq_zero (w : ReqWord) (start len : Nat) (h : start + len ≤ 32) :
    w &&& ((BitVec.allOnes len).setWidth 32 <<< start) = 0#32 ↔ w.toNat / 2 ^ start % 2 ^ len = 0 := by
  have hfield : (w.extractLsb' start len).toNat = w.toNat / 2 ^ start % 2 ^ len := by
    simp [BitVec.extractLsb'_toNat, Nat.shiftRight_eq_div_pow]
  rw [← hfield]
  constructor
  · intro hw
    have : w.extractLsb' start len = 0#len := by
      ext j hj
      have hbit := congrArg (fun v => v.getLsbD (start + j)) hw
      simp only [BitVec.getLsbD_and, BitVec.getLsbD_shiftLeft, BitVec.getLsbD_setWidth, BitVec.getLsbD_allOnes,
        BitVec.getLsbD_zero] at hbit
      have h1 : start + j < 32 := by omega
      have h2 : ¬ start + j < start := by omega
      have h3 : start + j - start = j := by omega
      have h4 : j < 32 := by omega
      simp only [h1, h2, h3, h4, hj, decide_true, decide_false, Bool.not_false, Bool.and_true] at hbit
      simp [hbit]
    simp [this]
  · intro hw
    have hz : w.extractLsb' start len = 0#len := BitVec.eq_of_toNat_eq (by simpa using hw)
    ext i hi
    simp only [BitVec.getElem_and, BitVec.getElem_shiftLeft, BitVec.getElem_zero]
    by_cases hs : i < start
    · simp [hs]
    · by_cases hl : i - start < len
      · have hbit := congrArg (fun v => v.getLsbD (i - start)) hz
        simp only [BitVec.getLsbD_extractLsb', BitVec.getLsbD_zero, hl, decide_true, Bool.true_and] at hbit
        rw [show start + (i - start) = i by omega] at hbit
        rw [← BitVec.getLsbD_eq_getElem hi, hbit]
        simp
      · simp [hl]

/-- The reserved bits of each format as a field of the word that is zero (R102). -/
theorem reserved_zero_iff (f : Format) (w : ReqWord) :
    w &&& f.reserved = 0#32 ↔
      match f with
      | .h0 => w.toNat % 2 ^ 24 = 0
      | .hn | .hpc | .hr => w.toNat / 2 ^ 16 % 2 ^ 8 = 0
      | .hp | .hc => w.toNat / 2 ^ 8 % 2 ^ 16 = 0
      | .hw => True
      | .hi => w.toNat % 2 ^ 8 = 0
      | .hx => w.toNat / 2 ^ 17 % 2 ^ 7 = 0 := by
  cases f
  case h0 => simpa [Format.reserved] using and_field_eq_zero w 0 24 (by omega)
  case hn => exact and_field_eq_zero w 16 8 (by omega)
  case hp => exact and_field_eq_zero w 8 16 (by omega)
  case hc => exact and_field_eq_zero w 8 16 (by omega)
  case hpc => exact and_field_eq_zero w 16 8 (by omega)
  case hr => exact and_field_eq_zero w 16 8 (by omega)
  case hw => simp [Format.reserved]
  case hi => simpa [Format.reserved] using and_field_eq_zero w 0 8 (by omega)
  case hx => exact and_field_eq_zero w 17 7 (by omega)

/-- The `on` bit as a number. -/
theorem onField_toNat (w : ReqWord) : (onField w).toNat = w.toNat / 2 ^ 16 % 2 := by
  simp [onField, BitVec.getLsbD, Nat.testBit, Nat.shiftRight_eq_div_pow, Nat.and_comm 1]
  rcases Nat.mod_two_eq_zero_or_one (w.toNat / 65536) with h | h <;> simp [h]

/-- A request decodes exactly when its opcode is assigned, its reserved bits are zero and its payload has its length. -/
theorem decodeRequest_ok_iff (w : ReqWord) (p : List Byte) (i : Instr) :
    decodeRequest w p = .ok i ↔
      ∃ op, Op.ofCode (opcodeField w) = some op ∧ w &&& op.format.reserved = 0#32 ∧
        p.length = payloadCount op.format w ∧ i = op.build w p := by
  unfold decodeRequest
  constructor
  · intro h
    split at h
    · cases h
    · next op hop =>
      split at h
      · cases h
      · next hr =>
        split at h
        · cases h
        · next hl =>
          cases h
          exact ⟨op, hop, by simpa using hr, by simpa using hl, rfl⟩
  · rintro ⟨op, hop, hr, hl, rfl⟩
    simp [hop, hr, hl]

/-- Every row of the opcode table: its match value and its mask. -/
def requestRows : List (Nat × Nat) :=
  [(0x01000000, 0xFFFF0000), (0x02000000, 0xFFFF0000), (0x10000000, 0xFFFFFF00), (0x11000000, 0xFFFFFF00),
   (0x12000000, 0xFFFF0000), (0x20000000, 0xFFFFFFFF), (0x30000000, 0xFFFF0000), (0x40000000, 0xFF000000),
   (0x41000000, 0xFF0000FF), (0x42000000, 0xFFFE0000), (0x50000000, 0xFFFFFFFF)]

/-- The CTL8 rows of the opcode table. -/
def ctl8Rows : List (Nat × Nat) :=
  [(0x00, 0xF0), (0x10, 0xF0), (0xB0, 0xF0), (0xAE, 0xFF), (0xAF, 0xFF), (0x20, 0xFF), (0xA0, 0xFE), (0xA4, 0xFF),
   (0xA6, 0xFF), (0xC0, 0xF7)]

/-- The CTL16 rows of the opcode table. -/
def ctl16Rows : List (Nat × Nat) :=
  [(0xD550, 0xFFFF), (0x8100, 0xFF00), (0xA800, 0xFF00), (0xD300, 0xFF00), (0xAD00, 0xFF00), (0xD900, 0xFF00),
   (0xDB00, 0xFF00), (0xDC00, 0xFF00)]

/-- No two rows of one width share a word: they differ in a bit both fix. -/
theorem rows_do_not_overlap :
    requestRows.Pairwise (fun r s => r.1 &&& (r.2 &&& s.2) ≠ s.1 &&& (r.2 &&& s.2)) ∧
    ctl8Rows.Pairwise (fun r s => r.1 &&& (r.2 &&& s.2) ≠ s.1 &&& (r.2 &&& s.2)) ∧
    ctl16Rows.Pairwise (fun r s => r.1 &&& (r.2 &&& s.2) ≠ s.1 &&& (r.2 &&& s.2)) := by decide

end Sys2Proof
end

