-- ==== Sys2Proof/Laws/Memory.lean ====
section
/-! SUPPORT. The pixel buffer as memory: a read after a write, canonical form, the zeroed buffer, reading a run of
bytes. -/

namespace Sys2Proof.Machine

@[simp] theorem Memory.read_nil (i : Nat) : Memory.read [] i = none := rfl

/-- A read after a write to the same cell gives the byte written. -/
@[simp] theorem Memory.read_write_same (m : Memory) (i : Nat) (v : Byte) : (m.write i v).read i = some v := by
  induction m with
  | nil => simp [Memory.write, Memory.read]
  | cons c rest ih =>
    obtain ⟨k, b⟩ := c
    unfold Memory.write
    split
    · simp [Memory.read]
    · split
      · simp [Memory.read]
      · next h1 h2 => simp [Memory.read, Ne.symm h2, ih]

/-- A write leaves every other cell alone, in a buffer in any form. -/
theorem Memory.read_write_other (m : Memory) {i j : Nat} (v : Byte) (h : j ≠ i) :
    (m.write i v).read j = m.read j := by
  induction m with
  | nil => simp [Memory.write, Memory.read, Ne.symm h, Memory.unlisted]
  | cons c rest ih =>
    obtain ⟨k, b⟩ := c
    unfold Memory.write
    split
    · simp [Memory.read, Ne.symm h]
    · split
      · next h1 h2 => subst h2; simp [Memory.read, Ne.symm h]
      · simp [Memory.read, ih]

/-- A read after a write, both cases at once. -/
theorem Memory.read_write (m : Memory) (i j : Nat) (v : Byte) :
    (m.write i v).read j = if j = i then some v else m.read j := by
  split
  · next h => subst h; simp
  · next h => exact m.read_write_other v h

/-- The first index of a written buffer. -/
theorem Memory.write_head (m : Memory) (i : Nat) (v : Byte) :
    ∃ c rest, m.write i v = c :: rest ∧ (c.1 = i ∨ ∃ d tail, m = d :: tail ∧ c.1 = d.1) := by
  cases m with
  | nil => exact ⟨_, _, rfl, .inl rfl⟩
  | cons c rest =>
    obtain ⟨k, b⟩ := c
    unfold Memory.write
    split
    · exact ⟨_, _, rfl, .inl rfl⟩
    · split
      · exact ⟨_, _, rfl, .inl rfl⟩
      · exact ⟨_, _, rfl, .inr ⟨_, _, rfl, rfl⟩⟩

/-- A write keeps the canonical form. -/
theorem Memory.write_wf (m : Memory) (i : Nat) (v : Byte) (h : m.wf = true) : (m.write i v).wf = true := by
  induction m with
  | nil => rfl
  | cons c rest ih =>
    obtain ⟨k, b⟩ := c
    have hrest : Memory.wf rest = true := by
      cases rest with
      | nil => rfl
      | cons d tail => obtain ⟨j, e⟩ := d; simp [Memory.wf] at h; exact h.2
    unfold Memory.write
    split
    · next hlt => simp [Memory.wf, hlt, h]
    · split
      · next heq =>
        subst heq
        cases rest with
        | nil => rfl
        | cons d tail => obtain ⟨j, e⟩ := d; simpa [Memory.wf] using h
      · next hlt heq =>
        obtain ⟨c', rest', hw, hc⟩ := Memory.write_head rest i v
        have ih' := ih hrest
        rw [hw] at ih' ⊢
        obtain ⟨k', b'⟩ := c'
        simp only [Memory.wf, Bool.and_eq_true, decide_eq_true_eq]
        refine ⟨?_, ih'⟩
        rcases hc with hc | ⟨d, tail, hd, hc⟩
        · simp only at hc; omega
        · obtain ⟨j, e⟩ := d
          subst hd
          simp [Memory.wf] at h
          simp only at hc
          omega

/-- A write lists no index but its own and those already there. -/
theorem Memory.mem_write (m : Memory) (i : Nat) (v : Byte) (c : Host.Cell) (h : c ∈ m.write i v) :
    c.1 = i ∨ c ∈ m := by
  induction m with
  | nil => simp [Memory.write] at h; simp [h]
  | cons d rest ih =>
    obtain ⟨k, b⟩ := d
    unfold Memory.write at h
    split at h
    · rcases List.mem_cons.mp h with h | h
      · exact .inl (by rw [h])
      · exact .inr h
    · split at h
      · rcases List.mem_cons.mp h with h | h
        · exact .inl (by rw [h])
        · exact .inr (List.mem_cons_of_mem _ h)
      · rcases List.mem_cons.mp h with h | h
        · exact .inr (by rw [h]; exact List.mem_cons_self)
        · rcases ih h with h | h
          · exact .inl h
          · exact .inr (List.mem_cons_of_mem _ h)

/-- Reading a list of consecutive cells that starts at `start`. -/
theorem Memory.read_run (n start i : Nat) :
    Memory.read ((List.range' start n).map fun k => (k, 0x00#8)) i
      = if start ≤ i ∧ i < start + n then some 0x00#8 else none := by
  induction n generalizing start with
  | zero => simp
  | succ n ih =>
    simp only [List.range'_succ, List.map_cons, Memory.read, ih]
    split
    · next h => subst h; simp
    · next h =>
      by_cases hc : start + 1 ≤ i ∧ i < start + 1 + n
      · rw [if_pos hc, if_pos (by omega)]
      · rw [if_neg hc, if_neg (by omega)]

/-- The zeroed buffer: cells below `n` hold 0x00, the others ⊥. -/
theorem Memory.read_zeros (n i : Nat) : (Memory.zeros n).read i = if i < n then some 0x00#8 else none := by
  have h := Memory.read_run n 0 i
  simpa [Memory.zeros, List.range_eq_range'] using h

theorem Memory.run_wf (n start : Nat) :
    Memory.wf ((List.range' start n).map fun k => (k, 0x00#8)) = true := by
  induction n generalizing start with
  | zero => rfl
  | succ n ih =>
    cases n with
    | zero => rfl
    | succ n =>
      have := ih (start + 1)
      simp only [List.range'_succ, List.map_cons] at this ⊢
      simp [Memory.wf, this]

/-- The zeroed buffer is in canonical form. -/
theorem Memory.zeros_wf (n : Nat) : (Memory.zeros n).wf = true := by
  have h := Memory.run_wf n 0
  simpa [Memory.zeros, List.range_eq_range'] using h

/-- The zeroed buffer lists no cell at or beyond `n`. -/
theorem Memory.mem_zeros (n : Nat) (c : Host.Cell) (h : c ∈ Memory.zeros n) : c.1 < n := by
  simp only [Memory.zeros, List.mem_map, List.mem_range] at h
  obtain ⟨k, hk, rfl⟩ := h
  exact hk

/-- Reading a run of defined cells gives their bytes in order. -/
theorem Memory.readBytes_eq (m : Memory) (f : Nat → Byte) (i n : Nat)
    (h : ∀ k, i ≤ k → k < i + n → m.read k = some (f k)) :
    m.readBytes i n = some ((List.range' i n).map f) := by
  induction n generalizing i with
  | zero => rfl
  | succ n ih =>
    have h0 := h i (Nat.le_refl i) (by omega)
    have h1 := ih (i + 1) (fun k hk hk' => h k (by omega) (by omega))
    simp [Memory.readBytes, h0, h1, List.range'_succ]

/-- A run that could be read has its length, and every cell of it holds a byte. -/
theorem Memory.readBytes_length (m : Memory) (i n : Nat) (bs : List Byte) (h : m.readBytes i n = some bs) :
    bs.length = n := by
  induction n generalizing i bs with
  | zero => simp [Memory.readBytes] at h; subst h; rfl
  | succ n ih =>
    unfold Memory.readBytes at h
    split at h
    · cases h
    · split at h
      · cases h
      · next b _ bs' hbs =>
        cases h
        simp [ih _ _ hbs]

/-- Two buffers that agree on a run read the same bytes there. -/
theorem Memory.readBytes_congr (m m' : Memory) (i n : Nat)
    (h : ∀ k, i ≤ k → k < i + n → m.read k = m'.read k) : m.readBytes i n = m'.readBytes i n := by
  induction n generalizing i with
  | zero => rfl
  | succ n ih =>
    have h0 := h i (Nat.le_refl i) (by omega)
    have h1 := ih (i + 1) (fun k hk hk' => h k (by omega) (by omega))
    simp only [Memory.readBytes, h0, h1]

end Sys2Proof.Machine
end

