-- ==== Sys2Proof/Laws/Operands.lean ====
section
/-! SUPPORT. Operands and plan fragments: the chunk function, the fragments as lists, the page range, the bytes of the
encoder. -/

namespace Sys2Proof.Machine

/-! ### Chunks (R162, R165) -/

/-- `k` numbers a chunk exactly when it starts inside the payload. -/
theorem lt_ceilDiv {l size k : Nat} (h : 1 ≤ size) : k < ceilDiv l size ↔ k * size < l := by
  unfold ceilDiv
  constructor
  · intro hk
    have h2 := (Nat.le_div_iff_mul_le (by omega : 0 < size)).mp (Nat.succ_le_of_lt hk)
    rw [Nat.succ_mul] at h2
    omega
  · intro hk
    apply Nat.lt_of_succ_le
    rw [Nat.le_div_iff_mul_le (by omega), Nat.succ_mul]
    omega

theorem chunks_length (size : Nat) (bs : List Byte) : (chunks size bs).length = ceilDiv bs.length size := by
  simp [chunks]

/-- Every chunk has 1 to `size` bytes. -/
theorem chunk_length_of_mem {size : Nat} (h : 1 ≤ size) {bs c : List Byte} (hc : c ∈ chunks size bs) :
    1 ≤ c.length ∧ c.length ≤ size := by
  simp only [chunks, List.mem_map, List.mem_range] at hc
  obtain ⟨k, hk, rfl⟩ := hc
  have := (lt_ceilDiv h).mp hk
  simp only [List.length_take, List.length_drop]
  omega

/-- The first n chunks concatenate to the first n*size bytes. -/
theorem chunks_prefix_flatten (size : Nat) (bs : List Byte) (n : Nat) :
    ((List.range n).map fun k => (bs.drop (k * size)).take size).flatten = bs.take (n * size) := by
  induction n with
  | zero => simp
  | succ n ih =>
    rw [List.range_succ, List.map_append, List.flatten_append, ih, Nat.succ_mul]
    simp [List.take_add]

/-- The chunks concatenate to the payload, in order. -/
theorem chunks_flatten {size : Nat} (h : 1 ≤ size) (bs : List Byte) : (chunks size bs).flatten = bs := by
  rw [chunks, chunks_prefix_flatten]
  apply List.take_of_length_le
  by_contra hlt
  exact Nat.lt_irrefl _ ((lt_ceilDiv h).mpr (Nat.lt_of_not_le hlt))

/-! ### Fragments as lists -/

/-- The data writes of a list of chunks, numbered from k. -/
theorem dataChunksFrom_eq (c : Cfg) (ph : Phase) (page : Option Nat) (k : Nat) (cs : List (List Byte)) :
    dataChunksFrom c ph page k cs = cs.mapIdx fun i bs => .wr c.regData bs (dataTag ph page (k + i)) := by
  induction cs generalizing k with
  | nil => rfl
  | cons bs rest ih =>
    simp only [dataChunksFrom, List.mapIdx_cons, ih, Nat.add_zero]
    congr 1
    apply List.ext_getElem? ; intro i
    simp only [List.getElem?_mapIdx]
    cases rest[i]? <;> simp
    congr 1; omega

/-- DATAW as one write per chunk, chunk k tagged k. -/
theorem dataW_eq (c : Cfg) (bs : List Byte) (ph : Phase) (page : Option Nat) :
    dataW c bs ph page = (chunks c.dataSize bs).mapIdx fun k ch => .wr c.regData ch (dataTag ph page k) := by
  simp [dataW, dataChunksFrom_eq]

/-- DATAW as one write per slice of the payload. -/
theorem dataW_eq_map (c : Cfg) (bs : List Byte) (ph : Phase) (page : Option Nat) :
    dataW c bs ph page = (List.range (ceilDiv bs.length c.dataSize)).map fun k =>
      .wr c.regData ((bs.drop (k * c.dataSize)).take c.dataSize) (dataTag ph page k) := by
  rw [dataW_eq]
  apply List.ext_getElem
  · simp [chunks]
  · intro i h1 h2
    simp [chunks]

/-- The command phase of INITIALIZE, numbered from e. -/
theorem entryWritesFrom_eq (c : Cfg) (e : Nat) (entries : List (List Byte)) :
    entryWritesFrom c e entries = entries.mapIdx fun i bs => .wr c.regCmd bs (entryTag (e + i)) := by
  induction entries generalizing e with
  | nil => rfl
  | cons bs rest ih =>
    simp only [entryWritesFrom, cmdW, List.cons_append, List.nil_append, List.mapIdx_cons, ih, Nat.add_zero]
    congr 1
    apply List.ext_getElem? ; intro i
    simp only [List.getElem?_mapIdx]
    cases rest[i]? <;> simp
    congr 1; omega

/-- The clear phase of INITIALIZE, page by page. -/
theorem clearPageWrites_eq (c : Cfg) (pages : List Nat) :
    clearPageWrites c pages = pages.flatMap (clearPage c) := by
  induction pages with
  | nil => rfl
  | cons p rest ih => simp [clearPageWrites, ih]

/-- A page of a defined buffer, by any function that gives its bytes. -/
theorem pageBytes_eq (c : Cfg) (m : Memory) (f : Nat → Byte) (p : Nat) (hp : p < c.npages)
    (h : ∀ i, i < c.nbytes → m.read i = some (f i)) :
    pageBytes c m p = some ((List.range' (p * c.width) c.width).map f) := by
  apply Memory.readBytes_eq
  intro k _ hk
  apply h
  calc k < p * c.width + c.width := hk
    _ = (p + 1) * c.width := by rw [Nat.succ_mul]
    _ ≤ c.npages * c.width := Nat.mul_le_mul_right _ hp
    _ = c.nbytes := Nat.mul_comm _ _

/-- The flush of listed pages of a defined buffer: each page's flush in order. -/
theorem flushPages_eq (c : Cfg) (m : Memory) (f : Nat → Byte) (pages : List Nat) (hp : ∀ p ∈ pages, p < c.npages)
    (h : ∀ i, i < c.nbytes → m.read i = some (f i)) :
    flushPages c m pages =
      some (pages.flatMap fun p => flushPage c p ((List.range' (p * c.width) c.width).map f)) := by
  induction pages with
  | nil => rfl
  | cons p rest ih =>
    have h1 := pageBytes_eq c m f p (hp p (by simp)) h
    have h2 := ih (fun q hq => hp q (by simp [hq]))
    simp [flushPages, h1, h2]

/-- The pages of a range are those between its bounds (R220). -/
theorem mem_pagesFromTo {a b p : Nat} : p ∈ pagesFromTo a b ↔ a ≤ p ∧ p ≤ b := by
  simp only [pagesFromTo, List.mem_range']
  constructor
  · rintro ⟨i, hi, rfl⟩; omega
  · intro h; exact ⟨p - a, by omega, by omega⟩

/-- An empty range has no page (R224). -/
theorem pagesFromTo_empty {a b : Nat} (h : b < a) : pagesFromTo a b = [] := by
  simp [pagesFromTo, show b + 1 - a = 0 by omega]

/-! ### Counting and selecting the writes of a plan -/

theorem writeCount_append (xs ys : List Action) : writeCount (xs ++ ys) = writeCount xs + writeCount ys := by
  simp [writeCount]

theorem planEvents_append (addr : DevAddr) (r : TxResult) (xs ys : List Action) :
    planEvents addr r (xs ++ ys) = planEvents addr r xs ++ planEvents addr r ys := by
  induction xs with
  | nil => rfl
  | cons a rest ih => cases a <;> simp [planEvents, ih]

theorem planEvents_length (addr : DevAddr) (r : TxResult) (xs : List Action) :
    (planEvents addr r xs).length = writeCount xs := by
  induction xs with
  | nil => rfl
  | cons a rest ih => cases a <;> simp [planEvents, writeCount, List.countP_cons, Action.isWrite, ih]

theorem planEvents_mem {addr : DevAddr} {r : TxResult} {xs : List Action} {e : TxEvent}
    (h : e ∈ planEvents addr r xs) : e.addr = addr ∧ e.result = r ∧ .wr e.reg e.payload e.tag ∈ xs := by
  induction xs with
  | nil => cases h
  | cons a rest ih =>
    cases a
    case wr reg payload tag =>
      rcases List.mem_cons.mp h with rfl | h
      · simp
      · obtain ⟨h1, h2, h3⟩ := ih h; exact ⟨h1, h2, List.mem_cons_of_mem _ h3⟩
    all_goals obtain ⟨h1, h2, h3⟩ := ih h; exact ⟨h1, h2, List.mem_cons_of_mem _ h3⟩

theorem deliveredTo_append (reg : Byte) (xs ys : List TxEvent) :
    deliveredTo reg (xs ++ ys) = deliveredTo reg xs ++ deliveredTo reg ys := by
  induction xs with
  | nil => rfl
  | cons e rest ih =>
    simp only [List.cons_append, deliveredTo, ih]
    split <;> simp

theorem runLocals_append (xs ys : List Action) (s : State) :
    runLocals (xs ++ ys) s = runLocals ys (runLocals xs s) := by
  induction xs generalizing s with
  | nil => rfl
  | cons a rest ih => exact ih _

theorem planValue_append (xs ys : List Action) (v : RspValue) :
    planValue (xs ++ ys) v = planValue ys (planValue xs v) := by
  induction xs generalizing v with
  | nil => rfl
  | cons a rest ih => exact ih _

/-- A list of writes has no local effect. -/
theorem runLocals_writes {xs : List Action} (h : ∀ a ∈ xs, a.isWrite = true) (s : State) : runLocals xs s = s := by
  induction xs with
  | nil => rfl
  | cons a rest ih =>
    have ha := h a (by simp)
    cases a <;> simp [Action.isWrite] at ha
    exact ih (fun a h' => h a (by simp [h']))

/-- A list of writes stores no response value. -/
theorem planValue_writes {xs : List Action} (h : ∀ a ∈ xs, a.isWrite = true) (v : RspValue) :
    planValue xs v = v := by
  induction xs with
  | nil => rfl
  | cons a rest ih =>
    have ha := h a (by simp)
    cases a <;> simp [Action.isWrite] at ha
    exact ih (fun a h' => h a (by simp [h']))

/-- A list of writes counts as many writes as it has actions. -/
theorem writeCount_writes {xs : List Action} (h : ∀ a ∈ xs, a.isWrite = true) : writeCount xs = xs.length :=
  List.countP_eq_length.mpr h

theorem posCmd_isWrite (c : Cfg) (x : Byte) (p : Nat) (ph : Phase) : ∀ a ∈ posCmd c x p ph, a.isWrite = true := by
  intro a ha
  simp only [posCmd, pageCmd, colCmd, cmdW] at ha
  split at ha <;> simp at ha <;> rcases ha with rfl | rfl | rfl <;> rfl

theorem dataW_isWrite (c : Cfg) (bs : List Byte) (ph : Phase) (page : Option Nat) :
    ∀ a ∈ dataW c bs ph page, a.isWrite = true := by
  intro a ha
  rw [dataW_eq_map] at ha
  simp only [List.mem_map] at ha
  obtain ⟨k, _, rfl⟩ := ha
  rfl

theorem flushPage_isWrite (c : Cfg) (p : Nat) (bs : List Byte) : ∀ a ∈ flushPage c p bs, a.isWrite = true := by
  intro a ha
  rcases List.mem_append.mp ha with h | h
  · exact posCmd_isWrite _ _ _ _ a h
  · exact dataW_isWrite _ _ _ _ a h

theorem clearPage_isWrite (c : Cfg) (p : Nat) : ∀ a ∈ clearPage c p, a.isWrite = true := by
  intro a ha
  rcases List.mem_append.mp ha with h | h
  · exact posCmd_isWrite _ _ _ _ a h
  · exact dataW_isWrite _ _ _ _ a h

theorem flushPages_isWrite (c : Cfg) (m : Memory) (pages : List Nat) (acts : List Action)
    (h : flushPages c m pages = some acts) : ∀ a ∈ acts, a.isWrite = true := by
  induction pages generalizing acts with
  | nil => simp [flushPages] at h; subst h; simp
  | cons p rest ih =>
    simp only [flushPages] at h
    split at h
    · cases h
    · split at h
      · cases h
      · next _ _ acts' hacts =>
        cases h
        intro a ha
        rcases List.mem_append.mp ha with h' | h'
        · exact flushPage_isWrite _ _ _ a h'
        · exact ih _ hacts a h'

theorem clearPageWrites_isWrite (c : Cfg) (pages : List Nat) : ∀ a ∈ clearPageWrites c pages, a.isWrite = true := by
  rw [clearPageWrites_eq]
  intro a ha
  obtain ⟨p, _, h⟩ := List.mem_flatMap.mp ha
  exact clearPage_isWrite c p a h

theorem entryWritesFrom_isWrite (c : Cfg) (e : Nat) (entries : List (List Byte)) :
    ∀ a ∈ entryWritesFrom c e entries, a.isWrite = true := by
  rw [entryWritesFrom_eq]
  intro a ha
  simp only [List.mem_mapIdx] at ha
  obtain ⟨i, _, rfl⟩ := ha
  rfl

theorem writeCountTo_append (reg : Byte) (xs ys : List Action) :
    writeCountTo reg (xs ++ ys) = writeCountTo reg xs + writeCountTo reg ys := by
  simp [writeCountTo]

theorem posCmd_length (c : Cfg) (x : Byte) (p : Nat) (ph : Phase) : (posCmd c x p ph).length = positionWrites c := by
  simp only [posCmd, pageCmd, colCmd, cmdW, positionWrites]
  cases c.colFraming <;> rfl

/-- A position command writes to the command selector only. -/
theorem posCmd_reg {c : Cfg} {x : Byte} {p : Nat} {ph : Phase} {reg : Byte} {payload : List Byte} {tag : Tag}
    (h : .wr reg payload tag ∈ posCmd c x p ph) : reg = c.regCmd ∧ tag.page = some p := by
  simp only [posCmd, pageCmd, colCmd, cmdW] at h
  split at h <;> simp at h
  · rcases h with ⟨rfl, -, rfl⟩ | ⟨rfl, -, rfl⟩ | ⟨rfl, -, rfl⟩ <;> exact ⟨rfl, rfl⟩
  · rcases h with ⟨rfl, -, rfl⟩ | ⟨rfl, -, rfl⟩ <;> exact ⟨rfl, rfl⟩

theorem dataW_length (c : Cfg) (bs : List Byte) (ph : Phase) (page : Option Nat) :
    (dataW c bs ph page).length = ceilDiv bs.length c.dataSize := by
  simp [dataW_eq_map]

/-- Data writes write to the data selector only. -/
theorem dataW_reg {c : Cfg} {bs : List Byte} {ph : Phase} {page : Option Nat} {reg : Byte} {payload : List Byte}
    {tag : Tag} (h : .wr reg payload tag ∈ dataW c bs ph page) : reg = c.regData ∧ tag.page = page := by
  rw [dataW_eq_map] at h
  simp only [List.mem_map, Action.wr.injEq] at h
  obtain ⟨k, -, rfl, -, rfl⟩ := h
  exact ⟨rfl, rfl⟩

theorem flushPage_length (c : Cfg) (p : Nat) (bs : List Byte) :
    (flushPage c p bs).length = positionWrites c + ceilDiv bs.length c.dataSize := by
  rw [flushPage, List.length_append, posCmd_length, dataW_length]

/-- Data writes that are all answered OK deliver their payload (R152, R165). -/
theorem deliveredTo_dataW {c : Cfg} (h : 1 ≤ c.dataSize) (addr : DevAddr) (bs : List Byte) (ph : Phase)
    (page : Option Nat) : deliveredTo c.regData (planEvents addr .ok (dataW c bs ph page)) = bs := by
  have key : ∀ (k : Nat) (cs : List (List Byte)),
      deliveredTo c.regData (planEvents addr .ok (dataChunksFrom c ph page k cs)) = cs.flatten := by
    intro k cs
    induction cs generalizing k with
    | nil => rfl
    | cons x t ih => simp [dataChunksFrom, planEvents, deliveredTo, ih]
  rw [dataW, key, chunks_flatten h]

/-- Writes to other selectors deliver nothing to this one. -/
theorem deliveredTo_other {reg : Byte} {addr : DevAddr} {r : TxResult} {xs : List Action}
    (h : ∀ reg' payload tag, Action.wr reg' payload tag ∈ xs → reg' ≠ reg) :
    deliveredTo reg (planEvents addr r xs) = [] := by
  induction xs with
  | nil => rfl
  | cons x t ih =>
    have ih' := ih (fun reg' payload tag hm => h reg' payload tag (by simp [hm]))
    cases x
    case wr reg' payload tag => simp [planEvents, deliveredTo, h reg' payload tag (by simp), ih']
    all_goals exact ih'

/-! ### Pixels -/

/-- Setting or clearing a pixel changes its own bit and no other (R242). -/
theorem pixelByte_bit (old : Byte) (y : Nat) (on : Bool) (k : Nat) (hk : k < 8) :
    (pixelByte old y on).getLsbD k = if k = y % 8 then on else old.getLsbD k := by
  have hm : (pixelMask y).getLsbD k = decide (k = y % 8) := by
    have hall : ∀ j k : Fin 8, (1#8 <<< j.val).getLsbD k = decide (k = j) := by decide
    have := hall ⟨y % 8, by omega⟩ ⟨k, hk⟩
    simpa [pixelMask, Fin.ext_iff] using this
  cases on
  · simp only [pixelByte, Bool.false_eq_true, if_false, BitVec.getLsbD_and, BitVec.getLsbD_not, hm, hk]
    by_cases h : k = y % 8 <;> simp [h]
  · simp only [pixelByte, if_true, BitVec.getLsbD_or, hm]
    by_cases h : k = y % 8 <;> simp [h]

/-! ### The bytes of the encoder -/

theorem colLow_toNat (x : Byte) : (colLow x).toNat = x.toNat % 16 := by
  have h := Nat.and_two_pow_sub_one_eq_mod x.toNat 4
  simpa [colLow, BitVec.toNat_and] using h

theorem colHigh_eq (x : Byte) : colHigh x = 0x10#8 + BitVec.ofNat 8 (x.toNat / 16) := by
  revert x; decide

/-- Within a valid configuration `PAGE_BASE + p` does not exceed a byte (R109, R281). -/
theorem pageByte_toNat (c : Cfg) (p : Nat) (h : c.pageBase.toNat + p ≤ 0xFF) :
    (pageByte c p).toNat = c.pageBase.toNat + p := by
  simp only [pageByte, BitVec.toNat_add, BitVec.toNat_ofNat]
  omega

/-- The set-page byte of a page given as a byte. -/
theorem pageByte_ofByte (c : Cfg) (p : Byte) : pageByte c p.toNat = c.pageBase + p := by
  simp [pageByte]

end Sys2Proof.Machine
end

