-- ==== Sys2Proof/Laws/Ops.lean ====
section
/-! SUPPORT. One lemma per shared operation that says everything it can do, for the proofs to cite instead of unfolding
it. -/

namespace Sys2Proof.Machine

/-! ### Admission -/

/-- Admission, all its outcomes at once (R141, R256). -/
theorem whenAdmitted_eq (needsInit : Bool) (s : State) (k : Out) :
    whenAdmitted needsInit s k =
      if s.refused.isSome then .refused .afterRefusal
      else match s.seq with
        | .busy _ => refuse .busy s
        | .idle => if needsInit = true ∧ s.init = false then refuse .uninit s else k := by
  unfold whenAdmitted State.isRefused State.isBusy
  cases s.refused <;> cases s.seq <;> cases needsInit <;> cases s.init <;> rfl

/-- An admitted operation (R141). -/
theorem whenAdmitted_ready {needsInit : Bool} {s : State} (k : Out) (hr : s.refused = none) (hs : s.seq = .idle)
    (hi : needsInit = true → s.init = true) : whenAdmitted needsInit s k = k := by
  rw [whenAdmitted_eq, hr, hs]
  cases needsInit
  · simp
  · simp [hi rfl]

/-- An operation that needs `INIT`, without it. -/
theorem whenAdmitted_uninit {s : State} (k : Out) (hr : s.refused = none) (hs : s.seq = .idle) (hi : s.init = false) :
    whenAdmitted true s k = refuse .uninit s := by
  rw [whenAdmitted_eq, hr, hs]; simp [hi]

/-- An operation presented while the sequencer is busy. -/
theorem whenAdmitted_busy {needsInit : Bool} {s : State} (k : Out) (hr : s.refused = none) {b : Busy} (hs : s.seq = .busy b) :
    whenAdmitted needsInit s k = refuse .busy s := by
  rw [whenAdmitted_eq, hr, hs]; rfl

/-- What admission can answer with a next state: a refusal mark for busy or uninitialized, or what the operation
answers in an idle block. -/
theorem whenAdmitted_next {needsInit : Bool} {s t : State} {k : Out} (h : whenAdmitted needsInit s k = .next t) :
    (∃ r, t = s.setRefused (some r)) ∨ (s.refused = none ∧ s.seq = .idle ∧ (needsInit = true → s.init = true) ∧ k = .next t) := by
  rw [whenAdmitted_eq] at h
  split at h
  · cases h
  · next hr =>
    split at h
    · next b hb => cases h; exact .inl ⟨_, rfl⟩
    · next hs =>
      split at h
      · cases h; exact .inl ⟨_, rfl⟩
      · next hi =>
        refine .inr ⟨by simpa using hr, hs, ?_, h⟩
        intro hn
        cases hv : s.init
        · exact absurd ⟨hn, hv⟩ hi
        · rfl

/-! ### Local actions -/

/-- A local action leaves the configuration, the sequencer, the logs, the mark and the agents alone. -/
theorem localEffect_frame (a : Action) (s : State) :
    (localEffect a s).cfg = s.cfg ∧ (localEffect a s).seq = s.seq ∧ (localEffect a s).txlog = s.txlog ∧
    (localEffect a s).rsplog = s.rsplog ∧ (localEffect a s).refused = s.refused ∧
    (localEffect a s).host = s.host ∧ (localEffect a s).answers = s.answers := by
  cases a <;> exact ⟨rfl, rfl, rfl, rfl, rfl, rfl, rfl⟩

/-- A list of local actions leaves the same fields alone. -/
theorem runLocals_frame (plan : List Action) (s : State) :
    (runLocals plan s).cfg = s.cfg ∧ (runLocals plan s).seq = s.seq ∧ (runLocals plan s).txlog = s.txlog ∧
    (runLocals plan s).rsplog = s.rsplog ∧ (runLocals plan s).refused = s.refused ∧
    (runLocals plan s).host = s.host ∧ (runLocals plan s).answers = s.answers := by
  induction plan generalizing s with
  | nil => exact ⟨rfl, rfl, rfl, rfl, rfl, rfl, rfl⟩
  | cons a rest ih =>
    obtain ⟨h1, h2, h3, h4, h5, h6, h7⟩ := ih (localEffect a s)
    obtain ⟨g1, g2, g3, g4, g5, g6, g7⟩ := localEffect_frame a s
    exact ⟨h1.trans g1, h2.trans g2, h3.trans g3, h4.trans g4, h5.trans g5, h6.trans g6, h7.trans g7⟩

/-- Clearing pages keeps the number of dirty bits. -/
@[simp] theorem clearPages_length (pages : List Nat) (d : List (Option Bool)) :
    (clearPages pages d).length = d.length := by
  induction pages generalizing d with
  | nil => rfl
  | cons p rest ih => simp [clearPages, ih]

/-- A cleared page reads 0, every other page as before. -/
theorem clearPages_get (pages : List Nat) (d : List (Option Bool)) (p : Nat) (hp : p < d.length) :
    (clearPages pages d)[p]? = if p ∈ pages then some (some false) else d[p]? := by
  induction pages generalizing d with
  | nil => simp [clearPages]
  | cons q rest ih =>
    rw [clearPages, ih _ (by simpa using hp)]
    by_cases h : p ∈ rest
    · simp [h]
    · by_cases hq : p = q
      · subst hq; simp [h, hp]
      · simp [h, hq, Ne.symm hq, List.getElem?_set_ne]

/-- Clearing pages brings no ⊥ back. -/
theorem clearPages_defined (pages : List Nat) (d : List (Option Bool)) (h : dirtyDefined d) :
    dirtyDefined (clearPages pages d) := by
  induction pages generalizing d with
  | nil => exact h
  | cons p rest ih =>
    apply ih
    intro b hb
    rcases List.mem_or_eq_of_mem_set hb with h' | h'
    · exact h b h'
    · simp [h']

/-- Clearing every page leaves no ⊥. -/
theorem clearPages_all_defined (pages : List Nat) (d : List (Option Bool)) (h : ∀ p, p < d.length → p ∈ pages) :
    clearPages pages d = List.replicate d.length (some false) := by
  apply List.ext_getElem?
  intro p
  by_cases hp : p < d.length
  · rw [clearPages_get _ _ _ hp]; simp [h p hp, hp]
  · rw [List.getElem?_eq_none (by simpa using hp), List.getElem?_eq_none (by simpa using hp)]

/-! ### The log -/

/-- Setting the last result changes the last event's result and nothing else. -/
theorem setLastResult_append (r : TxResult) (before : List TxEvent) (e : TxEvent) :
    setLastResult r (before ++ [e]) = before ++ [{ e with result := r }] := by
  induction before with
  | nil => rfl
  | cons f rest ih =>
    cases rest with
    | nil => rfl
    | cons g rest' => simpa [setLastResult] using ih

/-! ### The steps of the block -/

/-- What a step of the block or the transport can do when it answers a next state (R143 to R148, R150): wait; ISSUE;
LOCAL; DONE; TX_OK; TX_FAIL. -/
theorem blockStep_cases {s t : State} (h : blockStep s = .next t) :
    t = s ∨
    ∃ b, s.seq = .busy b ∧
      ((b.pending = false ∧ ∃ reg payload tag, b.action = some (.wr reg payload tag) ∧ t = issue reg payload tag b s) ∨
       (b.pending = false ∧ ∃ a, b.action = some a ∧ a.isWrite = false ∧ t = localStep a b s) ∨
       (b.pending = false ∧ b.action = none ∧ b.pc = b.plan.length ∧ t = done b s) ∨
       (b.pending = true ∧ ∃ reg payload tag rest, b.action = some (.wr reg payload tag) ∧ s.txlog ≠ [] ∧
          s.answers = .ok :: rest ∧ t = txOk b (s.setAnswers rest)) ∨
       (b.pending = true ∧ ∃ reg payload tag rest, b.action = some (.wr reg payload tag) ∧ s.txlog ≠ [] ∧
          s.answers = .fail :: rest ∧ t = txFail tag b (s.setAnswers rest))) := by
  unfold blockStep at h
  split at h
  · cases h; exact .inl rfl
  · next b hb =>
    split at h
    · next hp =>
      split at h
      · cases h; exact .inl rfl
      · next a rest ha =>
        unfold answerWrite at h
        split at h
        · next reg payload tag e tl hact hlog =>
          have hne : s.txlog ≠ [] := by
            intro h0; rw [State.setAnswers_txlog, h0] at hlog; cases hlog
          cases a
          · cases h
            exact .inr ⟨b, hb, .inr (.inr (.inr (.inl ⟨hp, _, _, _, _, hact, hne, ha, rfl⟩)))⟩
          · cases h
            exact .inr ⟨b, hb, .inr (.inr (.inr (.inr ⟨hp, _, _, _, _, hact, hne, ha, rfl⟩)))⟩
        · cases h
    · next hp =>
      have hp' : b.pending = false := by simpa using hp
      unfold sequencerStep at h
      split at h
      · next reg payload tag hact =>
        cases h; exact .inr ⟨b, hb, .inl ⟨hp', _, _, _, hact, rfl⟩⟩
      · next a hnw hact =>
        cases h
        refine .inr ⟨b, hb, .inr (.inl ⟨hp', a, hact, ?_, rfl⟩)⟩
        cases a <;> first | rfl | exact (hnw _ _ _ rfl).elim
      · next hact =>
        split at h
        · next hpc => cases h; exact .inr ⟨b, hb, .inr (.inr (.inl ⟨hp', hact, hpc, rfl⟩))⟩
        · cases h

/-- A step of the block leaves the configuration, the mark and the host alone. -/
theorem blockStep_frame {s t : State} (h : blockStep s = .next t) :
    t.cfg = s.cfg ∧ t.refused = s.refused ∧ t.host = s.host := by
  rcases blockStep_cases h with rfl | ⟨b, hb, h | h | h | h | h⟩
  · exact ⟨rfl, rfl, rfl⟩
  · obtain ⟨-, reg, pl, tag, -, rfl⟩ := h; exact ⟨rfl, rfl, rfl⟩
  · obtain ⟨-, a, -, -, rfl⟩ := h
    obtain ⟨f1, -, -, -, f5, f6, -⟩ := localEffect_frame a s
    exact ⟨f1, f5, f6⟩
  · obtain ⟨-, -, -, rfl⟩ := h; exact ⟨rfl, rfl, rfl⟩
  · obtain ⟨-, _, _, _, _, -, -, -, rfl⟩ := h; exact ⟨rfl, rfl, rfl⟩
  · obtain ⟨-, _, _, _, _, -, -, -, rfl⟩ := h
    simp only [txFail, raiseTransportFailure, abortEffect]
    split <;> exact ⟨rfl, rfl, rfl⟩

/-- What a step of the machine can do when it answers a next state: a step of the block, perhaps past a pause of the host
or while the host waits; or a host action with its event taken off. -/
theorem step_cases {s t : State} (h : step s = .next t) :
    s.refused = none ∧
    ((s.host = [] ∧ blockStep s = .next t) ∨
     (∃ rest, s.host = .pause :: rest ∧ blockStep (s.setHost rest) = .next t) ∨
     (∃ a rest b, s.host = .call a :: rest ∧ s.seq = .busy b ∧ blockStep s = .next t) ∨
     (∃ a rest, (s.host = .present a :: rest ∨ (s.host = .call a :: rest ∧ s.seq = .idle)) ∧
        hostAct a (s.setHost rest) = .next t)) := by
  unfold step advance State.isRefused at h
  split at h
  · cases h
  · next hr =>
    refine ⟨by simpa using hr, ?_⟩
    split at h
    · next hh => exact .inl ⟨hh, h⟩
    · next rest hh => exact .inr (.inl ⟨rest, hh, h⟩)
    · next a rest hh => exact .inr (.inr (.inr ⟨a, rest, .inl hh, h⟩))
    · next a rest hh =>
      unfold State.isBusy at h
      cases hs : s.seq with
      | idle => simp only [hs] at h; exact .inr (.inr (.inr ⟨a, rest, .inr ⟨hh, rfl⟩, by simpa using h⟩))
      | busy b => simp only [hs] at h; exact .inr (.inr (.inl ⟨a, rest, b, hh, rfl, by simpa using h⟩))

/-- What the reset input can do when it answers a next state (R281, R282). -/
theorem resetInput_cases {r : ResetInput} {s t : State} (h : resetInput r s = .next t) :
    s.refused = none ∧ ((r.valid = true ∧ t = resetTo r.toCfg s) ∨ (r.valid = false ∧ t = s.setRefused (some .badConfig))) := by
  unfold resetInput at h
  split at h
  · cases h
  · next hr =>
    refine ⟨by simpa using hr, ?_⟩
    split at h
    · next hv => cases h; exact .inl ⟨hv, rfl⟩
    · next hv => cases h; exact .inr ⟨by simpa using hv, rfl⟩

/-- What a controller command row can do when it answers a next state: the ISSUE step of its own command write. -/
theorem emitCommand_cases {bytes : List Byte} {s t : State} (h : emitCommand bytes s = .next t) :
    s.refused = none ∧ ∃ b tag, s.seq = .busy b ∧ b.pending = false ∧
      b.action = some (.wr s.cfg.regCmd bytes tag) ∧ t = issue s.cfg.regCmd bytes tag b s := by
  unfold emitCommand at h
  split at h
  · cases h
  · next hr =>
    refine ⟨by simpa using hr, ?_⟩
    split at h
    · cases h
    · next b hb =>
      split at h
      · next reg payload tag hp hact =>
        split at h
        · next heq =>
          obtain ⟨rfl, rfl⟩ := heq
          cases h
          exact ⟨b, tag, hb, hp, hact, rfl⟩
        · cases h
      · cases h

/-- A controller command row about to be issued is issued. -/
theorem emitCommand_next {bytes : List Byte} {s : State} {b : Busy} {tag : Tag} (hr : s.refused = none)
    (hs : s.seq = .busy b) (hp : b.pending = false) (ha : b.action = some (.wr s.cfg.regCmd bytes tag)) :
    emitCommand bytes s = .next (issue s.cfg.regCmd bytes tag b s) := by
  unfold emitCommand
  simp [hr, hs, hp, ha]

/-- The meaning of a controller command row is the issue of its bytes under the configured `PAGE_BASE`. -/
theorem exec_command {i : Instr} {bytes : List Byte} {s : State} (h : i.commandBytes s.cfg.pageBase = some bytes) :
    exec i s = emitCommand bytes s := by
  cases i <;> simp only [Instr.commandBytes, Option.some.injEq, reduceCtorEq] at h <;> subst h <;> rfl

end Sys2Proof.Machine
end

