-- ==== Sys2Proof/Laws/Exec.lean ====
section
/-! SUPPORT. What the meanings of the instructions can do, once for all of them: the plans the requests are accepted with,
and the outcomes of exec that are a next state. -/

namespace Sys2Proof.Machine

/-- The plans a request can be accepted with in state `s`, by operation (R161, R164, R181, R183, R185, R202, R221). -/
inductive AcceptedPlan (s : State) : Op → List Action → Prop where
  | sendCommand (p : List Byte) (h1 : 1 ≤ p.length) (h2 : p.length ≤ s.cfg.dataSize) :
      AcceptedPlan s .sendCommand (cmdW s.cfg p cmdTag)
  | sendData (p : List Byte) : AcceptedPlan s .sendData (dataW s.cfg p .data none)
  | setPage (p : Byte) (h : p.toNat < s.cfg.npages) : AcceptedPlan s .setPage (pageCmd s.cfg p.toNat .addr)
  | setColumn (x : Byte) : AcceptedPlan s .setColumn (colCmd s.cfg x none .addr)
  | setPosition (x p : Byte) (h : p.toNat < s.cfg.npages) :
      AcceptedPlan s .setPosition (posCmd s.cfg x p.toNat .addr)
  | initializeDisplay : AcceptedPlan s .initializeDisplay (initPlan s.cfg)
  | update (a b : Byte) (writes : List Action) (hi : s.init = true) (h1 : a.toNat < s.cfg.npages)
      (h2 : b.toNat < s.cfg.npages) (hw : flush s.cfg s.buf a.toNat b.toNat = some writes) :
      AcceptedPlan s .update (writes ++ [.clearDirty (updateClears s.cfg a.toNat b.toNat)])

/-- Within the display, a pixel's byte lies in the buffer and in the pixel's page (R71, R73). -/
theorem pixelIndex_lt {c : Cfg} {x y : Nat} (hv : c.height % 8 = 0) (hx : x < c.width) (hy : y < c.height) :
    pixelIndex c x y < c.nbytes := by
  have h1 : y / 8 < c.npages := by unfold Cfg.npages; omega
  calc y / 8 * c.width + x < (y / 8 + 1) * c.width := by rw [Nat.succ_mul]; omega
    _ ≤ c.npages * c.width := Nat.mul_le_mul_right _ h1
    _ = c.nbytes := Nat.mul_comm _ _

/-- The opcode and the single local action of an immediate operation that is accepted in state `s` (R240 to R243). -/
inductive ImmediateAction (s : State) : Instr → Op → Action → Prop where
  | bufWrite (k : BufIndex) (v : Byte) (h : k.toNat < s.cfg.nbytes) :
      ImmediateAction s (.bufWrite k v) .bufWrite (.bufSet k.toNat v)
  | bufRead (k : BufIndex) (b : Byte) (h : k.toNat < s.cfg.nbytes) (hb : s.buf.read k.toNat = some b) :
      ImmediateAction s (.bufRead k) .bufRead (.ret (.byte b))
  | setPixel (x y : Byte) (on : Bool) (old : Byte) (hx : x.toNat < s.cfg.width) (hy : y.toNat < s.cfg.height)
      (ho : s.buf.read (pixelIndex s.cfg x.toNat y.toNat) = some old) :
      ImmediateAction s (.setPixel x y on) .setPixel
        (.bufSet (pixelIndex s.cfg x.toNat y.toNat) (pixelByte old y.toNat on))
  | dirtyStatus (d : List Bool) (hd : dirtyBits s.dirty = some d) :
      ImmediateAction s .dirtyStatus .dirtyStatus (.ret (.bits d))

/-- An immediate operation issues no write. -/
theorem ImmediateAction.isWrite {s : State} {i : Instr} {op : Op} {a : Action} (h : ImmediateAction s i op a) :
    a.isWrite = false := by cases h <;> rfl

/-- An immediate operation's action is in range. -/
theorem ImmediateAction.actionOk {s : State} {i : Instr} {op : Op} {a : Action} (h : ImmediateAction s i op a)
    (hv : s.cfg.height % 8 = 0) : actionOk s.cfg a := by
  cases h with
  | bufWrite k v h => exact h
  | bufRead => trivial
  | setPixel x y on old hx hy ho => exact pixelIndex_lt hv hx hy
  | dirtyStatus => trivial

/-- The page of a pixel's byte is the pixel's page (R71, R73). -/
theorem pixelIndex_page {c : Cfg} {x y : Nat} (hx : x < c.width) : pixelIndex c x y / c.width = y / 8 := by
  unfold pixelIndex
  rw [Nat.add_comm, Nat.add_mul_div_right _ _ (by omega), Nat.div_eq_of_lt hx, Nat.zero_add]

/-- What exec of a host request can do when it answers a next state: a refusal mark; an accepted plan; or one local
action and its response. -/
theorem exec_request_cases {i : Instr} {s t : State} (hc : i.commandBytes s.cfg.pageBase = none)
    (h : exec i s = .next t) :
    (∃ r, t = s.setRefused (some r)) ∨
    (s.refused = none ∧ s.seq = .idle ∧ ∃ op plan, AcceptedPlan s op plan ∧
      t = s.setSeq (.busy { op := op.code, plan := plan, pc := 0, pending := false, nwr := 0, ret := .empty })) ∨
    (s.refused = none ∧ s.seq = .idle ∧ s.init = true ∧ ∃ op a, ImmediateAction s i op a ∧
      t = respondOk op.code (localValue a .empty) (localEffect a s)) := by
  cases i
  case sendCommand p =>
    rcases whenAdmitted_next h with ⟨r, rfl⟩ | ⟨hr, hs, -, hk⟩
    · exact .inl ⟨r, rfl⟩
    · split at hk
      · cases hk; exact .inl ⟨_, rfl⟩
      · split at hk
        · cases hk; exact .inl ⟨_, rfl⟩
        · next h1 h2 =>
          cases hk
          exact .inr (.inl ⟨hr, hs, _, _, .sendCommand p (by omega) (by omega), rfl⟩)
  case sendData p =>
    rcases whenAdmitted_next h with ⟨r, rfl⟩ | ⟨hr, hs, -, hk⟩
    · exact .inl ⟨r, rfl⟩
    · cases hk; exact .inr (.inl ⟨hr, hs, _, _, .sendData p, rfl⟩)
  case setPage p =>
    rcases whenAdmitted_next h with ⟨r, rfl⟩ | ⟨hr, hs, -, hk⟩
    · exact .inl ⟨r, rfl⟩
    · split at hk
      · cases hk; exact .inl ⟨_, rfl⟩
      · next h1 => cases hk; exact .inr (.inl ⟨hr, hs, _, _, .setPage p (by omega), rfl⟩)
  case setColumn x =>
    rcases whenAdmitted_next h with ⟨r, rfl⟩ | ⟨hr, hs, -, hk⟩
    · exact .inl ⟨r, rfl⟩
    · cases hk; exact .inr (.inl ⟨hr, hs, _, _, .setColumn x, rfl⟩)
  case setPosition x p =>
    rcases whenAdmitted_next h with ⟨r, rfl⟩ | ⟨hr, hs, -, hk⟩
    · exact .inl ⟨r, rfl⟩
    · split at hk
      · cases hk; exact .inl ⟨_, rfl⟩
      · next h1 => cases hk; exact .inr (.inl ⟨hr, hs, _, _, .setPosition x p (by omega), rfl⟩)
  case initializeDisplay =>
    rcases whenAdmitted_next h with ⟨r, rfl⟩ | ⟨hr, hs, -, hk⟩
    · exact .inl ⟨r, rfl⟩
    · cases hk; exact .inr (.inl ⟨hr, hs, _, _, .initializeDisplay, rfl⟩)
  case update a b =>
    rcases whenAdmitted_next h with ⟨r, rfl⟩ | ⟨hr, hs, hi, hk⟩
    · exact .inl ⟨r, rfl⟩
    · split at hk
      · cases hk; exact .inl ⟨_, rfl⟩
      · split at hk
        · cases hk; exact .inl ⟨_, rfl⟩
        · next h1 h2 =>
          split at hk
          · cases hk
          · next writes hw =>
            cases hk
            exact .inr (.inl ⟨hr, hs, _, _, .update a b writes (hi rfl) (by omega) (by omega) hw, rfl⟩)
  case bufWrite k v =>
    rcases whenAdmitted_next h with ⟨r, rfl⟩ | ⟨hr, hs, hi, hk⟩
    · exact .inl ⟨r, rfl⟩
    · split at hk
      · cases hk; exact .inl ⟨_, rfl⟩
      · next h1 =>
        cases hk
        exact .inr (.inr ⟨hr, hs, hi rfl, _, _, .bufWrite k v (by omega), rfl⟩)
  case bufRead k =>
    rcases whenAdmitted_next h with ⟨r, rfl⟩ | ⟨hr, hs, hi, hk⟩
    · exact .inl ⟨r, rfl⟩
    · split at hk
      · cases hk; exact .inl ⟨_, rfl⟩
      · split at hk
        · cases hk
        · next b hb =>
          cases hk
          exact .inr (.inr ⟨hr, hs, hi rfl, _, _, .bufRead k b (by omega) hb, rfl⟩)
  case setPixel x y on =>
    rcases whenAdmitted_next h with ⟨r, rfl⟩ | ⟨hr, hs, hi, hk⟩
    · exact .inl ⟨r, rfl⟩
    · split at hk
      · cases hk; exact .inl ⟨_, rfl⟩
      · next h1 =>
        split at hk
        · cases hk
        · next old hold =>
          cases hk
          exact .inr (.inr ⟨hr, hs, hi rfl, _, _, .setPixel x y on old (by omega) (by omega) hold, rfl⟩)
  case dirtyStatus =>
    rcases whenAdmitted_next h with ⟨r, rfl⟩ | ⟨hr, hs, hi, hk⟩
    · exact .inl ⟨r, rfl⟩
    · split at hk
      · cases hk
      · next d hd =>
        cases hk
        exact .inr (.inr ⟨hr, hs, hi rfl, _, _, .dirtyStatus d hd, rfl⟩)
  all_goals simp [Instr.commandBytes] at hc

/-- A request never decodes to a controller command row. -/
theorem decodeRequest_not_command {w : ReqWord} {p : List Byte} {i : Instr} (h : decodeRequest w p = .ok i)
    (pageBase : Byte) : i.commandBytes pageBase = none := by
  obtain ⟨op, -, -, -, rfl⟩ := (decodeRequest_ok_iff w p i).mp h
  cases op <;> rfl

/-- An accepted immediate operation's opcode is that of its request word. -/
theorem ImmediateAction.opcode {s : State} {w : ReqWord} {p : List Byte} {i : Instr} {op : Op} {a : Action}
    (hd : decodeRequest w p = .ok i) (h : ImmediateAction s i op a) : op.code = w.extractLsb' 24 8 := by
  obtain ⟨op', hop, -, -, rfl⟩ := (decodeRequest_ok_iff w p i).mp hd
  refine Eq.trans ?_ (Op.code_of_ofCode hop)
  generalize hi : op'.build w p = i at h
  cases h <;> cases op' <;> cases hi <;> rfl

/-- What ACCEPT can do when it answers a next state (R141): a refusal mark; or, for a request that decodes, an accepted
plan, or one local action and its response. -/
theorem accept_cases {w : ReqWord} {p : List Byte} {s t : State} (h : accept w p s = .next t) :
    s.refused = none ∧ ((∃ r, t = s.setRefused (some r)) ∨
    ∃ i, decode (.request w p) = .ok i ∧
    ((s.seq = .idle ∧ ∃ op plan, AcceptedPlan s op plan ∧
      t = s.setSeq (.busy { op := op.code, plan := plan, pc := 0, pending := false, nwr := 0, ret := .empty })) ∨
    (s.seq = .idle ∧ s.init = true ∧ ∃ op a, ImmediateAction s i op a ∧
      t = respondOk op.code (localValue a .empty) (localEffect a s)))) := by
  unfold accept State.isRefused at h
  split at h
  · cases h
  · next hr =>
    refine ⟨by simpa using hr, ?_⟩
    split at h
    · next i hi =>
      rcases exec_request_cases (decodeRequest_not_command hi _) h with h | ⟨-, h⟩ | ⟨-, h⟩
      · exact .inl h
      · exact .inr ⟨i, hi, .inl h⟩
      · exact .inr ⟨i, hi, .inr h⟩
    · cases h; exact .inl ⟨_, rfl⟩
    · split at h <;> (cases h; exact .inl ⟨_, rfl⟩)

end Sys2Proof.Machine
end

