-- ==== Sys2Proof/Laws/Plans.lean ====
section
/-! SUPPORT. What holds of every accepted plan under a valid configuration: its actions are in range (R108, R167) and
`INIT` is set only after `BUF` and `DIRTY` are defined (R204). -/

namespace Sys2Proof.Machine

/-- Configuration validity, condition by condition (R281). -/
theorem Cfg_valid_iff (c : Cfg) : c.valid = true ↔
    (1 ≤ c.width ∧ c.width ≤ 256) ∧ (8 ≤ c.height ∧ c.height ≤ 256 ∧ c.height % 8 = 0) ∧
    (1 ≤ c.dataSize ∧ c.dataSize ≤ 65535) ∧ c.regCmd ≠ c.regData ∧
    c.pageBase.toNat + c.npages - 1 ≤ 0xFF ∧
    (∀ e ∈ c.initSeq, 1 ≤ e.length ∧ e.length ≤ c.dataSize) ∧ (c.colFraming = .joined → 2 ≤ c.dataSize) := by
  unfold Cfg.valid initSeqFits
  simp only [Bool.and_eq_true, decide_eq_true_eq, List.all_eq_true]
  tauto

/-- A command write of 1 to `DATA_SIZE` bytes is in range. -/
theorem actionOk_cmd {c : Cfg} {bs : List Byte} {t : Tag} (h1 : 1 ≤ bs.length) (h2 : bs.length ≤ c.dataSize) :
    actionOk c (.wr c.regCmd bs t) := ⟨.inl rfl, h1, h2⟩

theorem posCmd_actionOk {c : Cfg} (hv : c.valid = true) (x : Byte) (p : Nat) (ph : Phase) :
    ∀ a ∈ posCmd c x p ph, actionOk c a := by
  obtain ⟨-, -, ⟨h1, -⟩, -, -, -, hj⟩ := (Cfg_valid_iff c).mp hv
  intro a ha
  simp only [posCmd, pageCmd, colCmd, cmdW] at ha
  split at ha
  · simp at ha; rcases ha with rfl | rfl | rfl <;> exact actionOk_cmd (by simp) (by simpa using h1)
  · next hf =>
    simp at ha; rcases ha with rfl | rfl
    · exact actionOk_cmd (by simp) (by simpa using h1)
    · exact actionOk_cmd (by simp) (by simpa using hj hf)

theorem colCmd_actionOk {c : Cfg} (hv : c.valid = true) (x : Byte) (pg : Option Nat) (ph : Phase) :
    ∀ a ∈ colCmd c x pg ph, actionOk c a := by
  obtain ⟨-, -, ⟨h1, -⟩, -, -, -, hj⟩ := (Cfg_valid_iff c).mp hv
  intro a ha
  simp only [colCmd, cmdW] at ha
  split at ha
  · simp at ha; rcases ha with rfl | rfl <;> exact actionOk_cmd (by simp) (by simpa using h1)
  · next hf => simp at ha; subst ha; exact actionOk_cmd (by simp) (by simpa using hj hf)

theorem dataW_actionOk {c : Cfg} (h1 : 1 ≤ c.dataSize) (bs : List Byte) (ph : Phase) (pg : Option Nat) :
    ∀ a ∈ dataW c bs ph pg, actionOk c a := by
  intro a ha
  rw [dataW_eq] at ha
  simp only [List.mem_mapIdx] at ha
  obtain ⟨k, hk, rfl⟩ := ha
  exact ⟨.inr rfl, chunk_length_of_mem h1 (List.getElem_mem hk)⟩

theorem flushPages_actionOk {c : Cfg} (hv : c.valid = true) (m : Memory) (pages : List Nat) (acts : List Action)
    (h : flushPages c m pages = some acts) : ∀ a ∈ acts, actionOk c a := by
  have h1 := ((Cfg_valid_iff c).mp hv).2.2.1.1
  induction pages generalizing acts with
  | nil => simp [flushPages] at h; subst h; simp
  | cons p rest ih =>
    simp only [flushPages] at h
    split at h
    · cases h
    · split at h
      · cases h
      · next _ _ acts' hacts =>
        cases h
        intro a ha
        rcases List.mem_append.mp ha with h' | h'
        · rcases List.mem_append.mp h' with h'' | h''
          · exact posCmd_actionOk hv _ _ _ a h''
          · exact dataW_actionOk h1 _ _ _ a h''
        · exact ih _ hacts a h'

theorem initPlan_actionOk {c : Cfg} (hv : c.valid = true) : ∀ a ∈ initPlan c, actionOk c a := by
  obtain ⟨-, -, ⟨h1, -⟩, -, -, he, -⟩ := (Cfg_valid_iff c).mp hv
  intro a ha
  simp only [initPlan, List.mem_append, List.mem_cons, List.not_mem_nil, or_false] at ha
  rcases ha with ((ha | rfl) | ha) | rfl | rfl
  · rw [entryWritesFrom_eq] at ha
    simp only [List.mem_mapIdx] at ha
    obtain ⟨k, hk, rfl⟩ := ha
    exact ⟨.inl rfl, he _ (List.getElem_mem hk)⟩
  · trivial
  · rw [clearPageWrites_eq] at ha
    obtain ⟨p, -, hp⟩ := List.mem_flatMap.mp ha
    rcases List.mem_append.mp hp with h' | h'
    · exact posCmd_actionOk hv _ _ _ a h'
    · exact dataW_actionOk h1 _ _ _ a h'
  · intro p hp; simpa using hp
  · trivial

/-- Every action of an accepted plan is in range (R167). -/
theorem AcceptedPlan.actionOk {s : State} {op : Op} {plan : List Action} (h : AcceptedPlan s op plan)
    (hv : s.cfg.valid = true) : ∀ a ∈ plan, actionOk s.cfg a := by
  have h1 := ((Cfg_valid_iff s.cfg).mp hv).2.2.1.1
  cases h with
  | sendCommand p hl hu => intro a ha; simp [cmdW] at ha; subst ha; exact actionOk_cmd hl hu
  | sendData p => exact dataW_actionOk h1 _ _ _
  | setPage p hp =>
    intro a ha; simp [pageCmd, cmdW] at ha; subst ha
    exact actionOk_cmd (by simp) (by simpa using h1)
  | setColumn x => exact colCmd_actionOk hv _ _ _
  | setPosition x p hp => exact posCmd_actionOk hv _ _ _
  | initializeDisplay => exact initPlan_actionOk hv
  | update a b writes hi ha hb hw =>
    intro x hx
    rcases List.mem_append.mp hx with h' | h'
    · exact flushPages_actionOk hv _ _ _ hw x h'
    · simp at h'; subst h'
      intro p hp
      simp only [updateClears] at hp
      split at hp
      · simpa using hp
      · have := mem_pagesFromTo.mp hp; omega

/-- Writes do not matter to the order rule of `INIT`. -/
theorem initGuarded_writes {n : Nat} {bd dd : Prop} {xs ys : List Action} (h : ∀ a ∈ xs, a.isWrite = true) :
    initGuarded n bd dd (xs ++ ys) ↔ initGuarded n bd dd ys := by
  induction xs with
  | nil => rfl
  | cons a rest ih =>
    have ha := h a (by simp)
    cases a <;> simp [Action.isWrite] at ha
    exact ih (fun a h' => h a (by simp [h']))

/-- More defined is fine for the order rule of `INIT`. -/
theorem initGuarded_mono {n : Nat} {bd dd bd' dd' : Prop} (xs : List Action) (hb : bd → bd') (hd : dd → dd')
    (h : initGuarded n bd dd xs) : initGuarded n bd' dd' xs := by
  induction xs generalizing bd dd bd' dd' with
  | nil => trivial
  | cons a rest ih =>
    cases a with
    | wr => exact ih hb hd h
    | zeroBuf => exact ih id hd h
    | clearDirty pages => exact ih hb (Or.imp_left hd) h
    | setInit => exact ⟨hb h.1, hd h.2.1, ih hb hd h.2.2⟩
    | bufSet => exact ih hb hd h
    | ret => exact ih hb hd h

/-- An accepted plan sets `INIT` only after `BUF` and `DIRTY` are defined (R204). -/
theorem AcceptedPlan.initGuarded {s : State} {op : Op} {plan : List Action} (h : AcceptedPlan s op plan)
    (bd dd : Prop) : initGuarded s.cfg.npages bd dd plan := by
  cases h with
  | sendCommand p hl hu => trivial
  | sendData p =>
    have := (initGuarded_writes (n := s.cfg.npages) (bd := bd) (dd := dd) (ys := [])
      (dataW_isWrite s.cfg p .data none)).mpr trivial
    simpa using this
  | setPage p hp => trivial
  | setColumn x =>
    simp only [colCmd]
    split <;> trivial
  | setPosition x p hp =>
    have := (initGuarded_writes (n := s.cfg.npages) (bd := bd) (dd := dd) (ys := [])
      (posCmd_isWrite s.cfg x p.toNat .addr)).mpr trivial
    simpa using this
  | initializeDisplay =>
    unfold initPlan
    rw [List.append_assoc, List.append_assoc, initGuarded_writes (entryWritesFrom_isWrite _ _ _)]
    show Machine.initGuarded _ True dd (clearPageWrites s.cfg _ ++ _)
    rw [initGuarded_writes (clearPageWrites_isWrite _ _)]
    refine ⟨trivial, .inr ?_, trivial⟩
    intro p hp
    simpa using hp
  | update a b writes hi ha hb hw =>
    rw [initGuarded_writes (flushPages_isWrite _ _ _ _ hw)]
    trivial

end Sys2Proof.Machine
end

