-- ==== Sys2Proof/Laws/Run.lean ====
section
/-! SUPPORT. Runs of several steps: unfolding one step, joining two runs, the host's `Core.run`, and the steps of a busy
sequencer while the host waits. -/

namespace Sys2Proof.Machine

@[simp] theorem run_zero (s : State) : run 0 s = .next s := rfl

/-- One step, then the rest of the run. -/
theorem run_step {s t : State} (h : step s = .next t) (n : Nat) : run (n + 1) s = run n t := by
  rw [run, h]

/-- A run that answers a next state goes on from it. -/
theorem run_append {s t : State} {n : Nat} (h : run n s = .next t) (m : Nat) : run (n + m) s = run m t := by
  induction n generalizing s with
  | zero => cases h; rw [Nat.zero_add]
  | succ n ih =>
    rw [run] at h
    rw [Nat.add_right_comm, run]
    cases hs : step s with
    | next u => rw [hs] at h; exact ih h
    | fault f => rw [hs] at h; cases h
    | refused r => rw [hs] at h; cases h

/-- `run` is the run of the host's interface. -/
theorem run_eq_core (n : Nat) (s : State) : run n s = Host.Core.run core n s := by
  induction n generalizing s with
  | zero => rfl
  | succ n ih =>
    have hs : core.step s = step s := rfl
    cases h : step s <;> rw [h] at hs <;> simp only [run, Host.Core.run, h, hs, ih] <;> rfl

/-- No step, no pause taken. -/
@[simp] theorem hostAfter_zero (h : List HostEvent) : hostAfter 0 h = h := by cases h <;> rfl

@[simp] theorem hostAfter_nil (n : Nat) : hostAfter n [] = [] := by cases n <;> rfl

@[simp] theorem hostWaits_nil (n : Nat) : hostWaits n [] := by cases n <;> trivial

/-- Waiting n + m steps is waiting n steps, then m. -/
theorem hostWaits_add (n m : Nat) (h : List HostEvent) :
    hostWaits (n + m) h ↔ hostWaits n h ∧ hostWaits m (hostAfter n h) := by
  induction n generalizing h with
  | zero => simp [hostWaits]
  | succ n ih =>
    rw [Nat.add_right_comm]
    match h with
    | [] => simp [hostWaits]
    | .pause :: rest => exact ih rest
    | .call a :: rest => cases m <;> simp [hostWaits, hostAfter]
    | .present a :: rest => simp [hostWaits]

theorem hostAfter_add (n m : Nat) (h : List HostEvent) : hostAfter (n + m) h = hostAfter m (hostAfter n h) := by
  induction n generalizing h with
  | zero => simp
  | succ n ih =>
    rw [Nat.add_right_comm]
    match h with
    | [] => simp [hostAfter]
    | .pause :: rest => exact ih rest
    | .call a :: rest => cases m <;> rfl
    | .present a :: rest => cases m <;> rfl

/-- The block steps while the host waits: a pause is taken off, an event that waits for an idle sequencer stays. -/
theorem step_waits {s : State} {b : Busy} (hr : s.refused = none) (hh : hostWaits 1 s.host) (hs : s.seq = .busy b) :
    step s = blockStep (s.setHost (hostAfter 1 s.host)) := by
  obtain ⟨cfg, buf, dirty, init, seq, txlog, rsplog, refused, host, answers⟩ := s
  subst hr
  subst hs
  match host with
  | [] => rfl
  | .pause :: rest => simp [step, advance, State.isRefused, State.setHost, hostAfter]
  | .call a :: rest => rfl
  | .present a :: rest => exact hh.elim

/-- A step that issues. -/
theorem step_issue {s : State} {b : Busy} {reg : Byte} {payload : List Byte} {tag : Tag} (hr : s.refused = none)
    (hh : hostWaits 1 s.host) (hs : s.seq = .busy b) (hp : b.pending = false)
    (ha : b.action = some (.wr reg payload tag)) :
    step s = .next (issue reg payload tag b (s.setHost (hostAfter 1 s.host))) := by
  rw [step_waits hr hh hs]
  simp [blockStep, hs, hp, sequencerStep, ha]

/-- A step that takes a local action. -/
theorem step_local {s : State} {b : Busy} {a : Action} (hr : s.refused = none) (hh : hostWaits 1 s.host)
    (hs : s.seq = .busy b) (hp : b.pending = false) (ha : b.action = some a) (hw : a.isWrite = false) :
    step s = .next (localStep a b (s.setHost (hostAfter 1 s.host))) := by
  rw [step_waits hr hh hs]
  cases a
  case wr => cases hw
  all_goals simp [blockStep, hs, hp, sequencerStep, ha]

/-- A step that ends the plan. -/
theorem step_done {s : State} {b : Busy} (hr : s.refused = none) (hh : hostWaits 1 s.host) (hs : s.seq = .busy b)
    (hp : b.pending = false) (hpc : b.pc = b.plan.length) :
    step s = .next (done b (s.setHost (hostAfter 1 s.host))) := by
  rw [step_waits hr hh hs]
  simp [blockStep, hs, hp, sequencerStep, Busy.action, hpc]

/-- What the transport's answer to a pending write does. -/
theorem step_answer {s : State} {b : Busy} {reg : Byte} {payload : List Byte} {tag : Tag} {a : Answer}
    {rest : List Answer} (hr : s.refused = none) (hh : hostWaits 1 s.host) (hs : s.seq = .busy b) (hp : b.pending = true)
    (ha : b.action = some (.wr reg payload tag)) (hl : s.txlog ≠ []) (hn : s.answers = a :: rest) :
    (a = .ok → step s = .next (txOk b ((s.setHost (hostAfter 1 s.host)).setAnswers rest))) ∧
    (a = .fail → step s = .next (txFail tag b ((s.setHost (hostAfter 1 s.host)).setAnswers rest))) := by
  rw [step_waits hr hh hs]
  obtain ⟨e, tl, hl⟩ : ∃ e tl, s.txlog = e :: tl := by
    cases h : s.txlog with
    | nil => exact (hl h).elim
    | cons e tl => exact ⟨e, tl, rfl⟩
  constructor <;> rintro rfl <;>
    simp only [blockStep, State.setHost_seq, State.setHost_answers, hs, hp, if_true, hn, answerWrite, ha,
      State.setAnswers_txlog, State.setHost_txlog, hl]

/-! ### A stretch of a plan -/

/-- What a list of actions leaves in the memories depends on the memories and the configuration only. -/
theorem runLocals_congr (plan : List Action) {s t : State} (h1 : t.cfg = s.cfg) (h2 : t.buf = s.buf)
    (h3 : t.dirty = s.dirty) (h4 : t.init = s.init) :
    (runLocals plan t).buf = (runLocals plan s).buf ∧ (runLocals plan t).dirty = (runLocals plan s).dirty ∧
    (runLocals plan t).init = (runLocals plan s).init := by
  induction plan generalizing s t with
  | nil => exact ⟨h2, h3, h4⟩
  | cons a rest ih =>
    apply ih
    all_goals cases a <;> simp [localEffect, h1, h2, h3, h4]

/-- What a local action writes does not depend on the host's events. -/
theorem localEffect_setHost (a : Action) (s : State) (h : List HostEvent) :
    localEffect a (s.setHost h) = (localEffect a s).setHost h := by cases a <;> rfl

/-- One action of a plan, a write answered OK at once, while the host waits. -/
theorem run_action {s : State} {b : Busy} {a : Action} {rest : List Answer} (hr : s.refused = none)
    (hh : hostWaits (1 + writeCount [a]) s.host) (hs : s.seq = .busy b) (hp : b.pending = false)
    (ha : b.action = some a) (hn : s.answers = List.replicate (writeCount [a]) .ok ++ rest) :
    ∃ t, run (1 + writeCount [a]) s = .next t ∧ t.cfg = s.cfg ∧ t.buf = (localEffect a s).buf ∧
      t.dirty = (localEffect a s).dirty ∧ t.init = (localEffect a s).init ∧
      t.seq = .busy { b with pc := b.pc + 1, nwr := b.nwr + writeCount [a], ret := localValue a b.ret } ∧
      t.txlog = s.txlog ++ planEvents s.cfg.devAddr .ok [a] ∧ t.rsplog = s.rsplog ∧ t.refused = none ∧
      t.host = hostAfter (1 + writeCount [a]) s.host ∧ t.answers = rest := by
  obtain ⟨g1, -, g3, g4, g5, -, g7⟩ := localEffect_frame a s
  obtain ⟨hh1, hh2⟩ := (hostWaits_add 1 _ _).mp hh
  rw [hostAfter_add]
  by_cases hw : a.isWrite = true
  · cases a
    case wr reg payload tag =>
      have hn1 : writeCount [Action.wr reg payload tag] = 1 := rfl
      rw [hn1] at hh2 hn ⊢
      obtain ⟨u, hu⟩ : ∃ u, u = s.setHost (hostAfter 1 s.host) := ⟨_, rfl⟩
      have h1 := step_issue hr hh1 hs hp ha
      rw [← hu] at h1
      have h2 := (step_answer (s := issue reg payload tag b u) (b := { b with pending := true })
        (by simpa [hu, issue] using hr) (by simpa [hu, issue] using hh2) rfl rfl ha
        (by simp [issue]) (show (issue reg payload tag b u).answers = .ok :: rest by simpa [hu, issue] using hn)).1 rfl
      refine ⟨_, (run_step h1 1).trans (run_step h2 0), ?_⟩
      simp [txOk, issue, setLastResult_append, planEvents, localEffect, localValue, hp, hu, hr]
    all_goals cases hw
  · have hw' : a.isWrite = false := by simpa using hw
    have hn1 : writeCount [a] = 0 := by simp [writeCount, hw']
    have hev : planEvents s.cfg.devAddr .ok [a] = [] := by
      cases a
      case wr => cases hw'
      all_goals rfl
    rw [hn1] at hn
    have h1 := step_local hr hh1 hs hp ha hw'
    rw [localStep, localEffect_setHost] at h1
    rw [hn1, hev, List.append_nil, hostAfter_zero]
    exact ⟨_, run_step h1 0, g1, rfl, rfl, rfl, rfl, g3, g4, g5.trans hr, rfl, g7.trans hn⟩

/-- A stretch `mid` of a plan runs while the host waits and every write is answered OK: its writes are logged in order,
its local actions have had their effect, and the program counter stands behind it. -/
theorem run_actions {s : State} {op : Byte} {before mid after : List Action} {nwr : Nat} {ret : RspValue}
    {rest : List Answer} (hr : s.refused = none) (hh : hostWaits (mid.length + writeCount mid) s.host)
    (hs : s.seq = .busy { op := op, plan := before ++ mid ++ after, pc := before.length, pending := false,
                          nwr := nwr, ret := ret })
    (ha : s.answers = List.replicate (writeCount mid) .ok ++ rest) :
    run (mid.length + writeCount mid) s = .next { runLocals mid s with
      txlog := s.txlog ++ planEvents s.cfg.devAddr .ok mid,
      seq := .busy { op := op, plan := before ++ mid ++ after, pc := before.length + mid.length, pending := false,
                     nwr := nwr + writeCount mid, ret := planValue mid ret },
      host := hostAfter (mid.length + writeCount mid) s.host,
      answers := rest } := by
  induction mid generalizing before s nwr ret with
  | nil =>
    obtain ⟨cfg, buf, dirty, init, seq, txlog, rsplog, refused, host, answers⟩ := s
    simp only [writeCount, List.countP_nil, List.replicate_zero, List.nil_append] at ha hs
    subst ha
    subst hs
    simp [runLocals, writeCount, planEvents, planValue]
  | cons a mid ih =>
    have hplan : before ++ a :: mid ++ after = (before ++ [a]) ++ mid ++ after := by simp
    have hcount : writeCount (a :: mid) = writeCount [a] + writeCount mid := writeCount_append [a] mid
    have e : (a :: mid).length + writeCount (a :: mid) = (1 + writeCount [a]) + (mid.length + writeCount mid) := by
      rw [hcount, List.length_cons]; omega
    rw [hcount, List.replicate_add, List.append_assoc] at ha
    rw [e] at hh ⊢
    obtain ⟨hh1, hh2⟩ := (hostWaits_add _ _ _).mp hh
    obtain ⟨u, hu, u1, u2, u3, u4, u5, u6, u7, u8, u9, u10⟩ :=
      run_action hr hh1 hs rfl (by simp [Busy.action]) ha
    have h3 := ih (s := u) (before := before ++ [a]) (nwr := nwr + writeCount [a]) (ret := localValue a ret) u8
      (by rw [u9]; exact hh2) (by rw [u5, hplan]; simp) u10
    rw [run_append hu, h3]
    obtain ⟨m1, m2, m3⟩ := runLocals_congr mid (u1.trans (localEffect_frame a s).1.symm) u2 u3 u4
    obtain ⟨f1, -, -, f4, f5, -, -⟩ := runLocals_frame mid u
    obtain ⟨k1, -, -, k4, k5, -, -⟩ := runLocals_frame (a :: mid) s
    refine congrArg _ (State.eq_of_fields (f1.trans (u1.trans k1.symm)) m1 m2 m3 ?_ ?_
      (f4.trans (u7.trans k4.symm)) (f5.trans (u8.trans (hr.symm.trans k5.symm))) ?_ rfl)
    · simp only [hplan, planValue, Seq.busy.injEq, Busy.mk.injEq, true_and, List.length_append, List.length_cons,
        List.length_nil, hcount]
      exact ⟨by omega, by omega, trivial⟩
    · show u.txlog ++ planEvents u.cfg.devAddr .ok mid = s.txlog ++ planEvents s.cfg.devAddr .ok ([a] ++ mid)
      rw [u6, u1, planEvents_append, List.append_assoc]
    · show hostAfter _ u.host = hostAfter _ s.host
      rw [u9, ← hostAfter_add]

end Sys2Proof.Machine
end

