-- ==== Sys2Proof/Laws/Invariant.lean ====
section
/-! SUPPORT. The parts of the invariant: what the logs hold while a write is or is not pending, and what a local action
keeps of `BUF`, `DIRTY` and the order rule of `INIT`. -/

namespace Sys2Proof.Machine

/-! ### Plans around the program counter -/

theorem take_succ_of_get {α : Type} {l : List α} {n : Nat} {a : α} (h : l[n]? = some a) :
    l.take (n + 1) = l.take n ++ [a] := by
  rw [List.take_add_one, h]; rfl

theorem drop_of_get {α : Type} {l : List α} {n : Nat} {a : α} (h : l[n]? = some a) :
    l.drop n = a :: l.drop (n + 1) := by
  obtain ⟨h1, h2⟩ := List.getElem?_eq_some_iff.mp h
  rw [List.drop_eq_getElem_cons h1, h2]

/-! ### The log -/

/-- Outside a wait for the transport no event of `TXLOG` is pending. -/
theorem Invariant.noPending {s : State} (hi : Invariant s) (h : ∀ b, s.seq = .busy b → b.pending = false) :
    ∀ x ∈ s.txlog, x.result ≠ .pending := by
  intro x hx hp
  obtain ⟨l, r, hl⟩ := List.append_of_mem hx
  obtain ⟨-, b, hb, hbp⟩ := hi.onePending l x r hl hp
  rw [h b hb] at hbp; cases hbp

/-- During a wait the pending event is the last one, that of the plan's action, and no other is pending. -/
theorem Invariant.pendingLast {s : State} (hi : Invariant s) {b : Busy} (hs : s.seq = .busy b) (hp : b.pending = true) :
    ∃ reg payload tag before, b.action = some (.wr reg payload tag) ∧
      s.txlog = before ++
        [{ addr := s.cfg.devAddr, reg := reg, payload := payload, tag := tag, result := .pending }] ∧
      (∀ x ∈ before, x.result ≠ .pending) ∧
      ∃ earlier, before = earlier ++ planEvents s.cfg.devAddr .ok (b.plan.take b.pc) := by
  obtain ⟨reg, payload, tag, ha⟩ := (hi.busyOk b hs).pendingWrite hp
  obtain ⟨earlier, h0⟩ := (hi.busyOk b hs).answered
  rw [hp, ha] at h0
  refine ⟨reg, payload, tag, _, ha, h0, ?_, earlier, rfl⟩
  intro x hx hxp
  obtain ⟨l, r, hl⟩ := List.append_of_mem hx
  have := (hi.onePending l x (r ++ _) (by rw [h0, hl]; simp; rfl) hxp).1
  simp [planEvents] at this

/-- A log without a pending event meets the rule of one outstanding write. -/
theorem onePending_of_none {s : State} (h : ∀ x ∈ s.txlog, x.result ≠ .pending) :
    ∀ before e after, s.txlog = before ++ e :: after → e.result = .pending →
      after = [] ∧ ∃ b, s.seq = .busy b ∧ b.pending = true := by
  intro before e after hl he
  exact (h e (by rw [hl]; simp) he).elim

/-! ### Memory -/

/-- A write leaves a defined buffer defined. -/
theorem bufDefined_write {c : Cfg} {m : Memory} {i : Nat} {v : Byte} (h : bufDefined c m) :
    bufDefined c (m.write i v) := by
  intro j hj
  rw [Memory.read_write]
  split
  · simp
  · exact h j hj

/-- The zeroed buffer is defined. -/
theorem bufDefined_zeros (c : Cfg) : bufDefined c (Memory.zeros c.nbytes) := by
  intro i hi
  rw [Memory.read_zeros, if_pos hi]
  simp

/-- Setting a dirty bit leaves defined bits defined. -/
theorem dirtyDefined_set {d : List (Option Bool)} {p : Nat} {v : Bool} (h : dirtyDefined d) :
    dirtyDefined (d.set p (some v)) := by
  intro b hb
  rcases List.mem_or_eq_of_mem_set hb with h1 | h1
  · exact h b h1
  · simp [h1]

/-- The bytes of a defined buffer as a function. -/
theorem bufDefined_bytes {c : Cfg} {m : Memory} (h : bufDefined c m) :
    ∃ f : Nat → Byte, ∀ i, i < c.nbytes → m.read i = some (f i) := by
  refine ⟨fun i => (m.read i).getD 0#8, fun i hi => ?_⟩
  have := h i hi
  cases hh : m.read i with
  | none => exact (this hh).elim
  | some v => simp [hh]

/-- Defined dirty bits can be read. -/
theorem dirtyBits_defined {d : List (Option Bool)} (h : dirtyDefined d) : ∃ bits, dirtyBits d = some bits := by
  induction d with
  | nil => exact ⟨_, rfl⟩
  | cons b t ih =>
    obtain ⟨bits, h2⟩ := ih (fun x hx => h x (by simp [hx]))
    cases b with
    | none => exact (h none (by simp) rfl).elim
    | some v => exact ⟨v :: bits, by simp [dirtyBits, h2]⟩

/-- The part of the invariant about the configuration and the two memories. -/
structure MemoryOk (s : State) : Prop where
  cfgValid : s.cfg.valid = true
  bufWf : s.buf.wf = true
  bufInRange : ∀ cell ∈ s.buf, cell.1 < s.cfg.nbytes
  dirtyLength : s.dirty.length = s.cfg.npages
  initDefined : s.init = true → bufDefined s.cfg s.buf ∧ dirtyDefined s.dirty

theorem Invariant.memoryOk {s : State} (h : Invariant s) : MemoryOk s :=
  ⟨h.cfgValid, h.bufWf, h.bufInRange, h.dirtyLength, h.initDefined⟩

/-- A local action in range keeps the canonical form of `BUF`, the sizes, and what `INIT = 1` says, where SET_INIT comes
only once both memories are defined. -/
theorem localEffect_memoryOk {s : State} {a : Action} (h : MemoryOk s) (ha : actionOk s.cfg a)
    (hw : a.isWrite = false) (hsi : a = .setInit → bufDefined s.cfg s.buf ∧ dirtyDefined s.dirty) :
    MemoryOk (localEffect a s) := by
  cases a
  case wr => cases hw
  case zeroBuf =>
    exact ⟨h.cfgValid, Memory.zeros_wf _, fun c hc => Memory.mem_zeros _ c hc, h.dirtyLength,
      fun hi => ⟨bufDefined_zeros s.cfg, (h.initDefined hi).2⟩⟩
  case clearDirty pages =>
    exact ⟨h.cfgValid, h.bufWf, h.bufInRange, by simpa [localEffect] using h.dirtyLength,
      fun hi => ⟨(h.initDefined hi).1, clearPages_defined _ _ (h.initDefined hi).2⟩⟩
  case setInit => exact ⟨h.cfgValid, h.bufWf, h.bufInRange, h.dirtyLength, fun _ => hsi rfl⟩
  case bufSet i v =>
    refine ⟨h.cfgValid, Memory.write_wf _ _ _ h.bufWf, ?_, by simpa [localEffect] using h.dirtyLength,
      fun hi => ⟨bufDefined_write (h.initDefined hi).1, dirtyDefined_set (h.initDefined hi).2⟩⟩
    intro c hc
    rcases Memory.mem_write _ _ _ _ hc with h1 | h1
    · rw [h1]; exact ha
    · exact h.bufInRange c h1
  case ret v => exact h

/-- A local action leaves the rest of its plan within the order rule of `INIT`. -/
theorem localEffect_guarded {s : State} {a : Action} {rest : List Action} (hd : s.dirty.length = s.cfg.npages)
    (hw : a.isWrite = false)
    (hg : initGuarded s.cfg.npages (bufDefined s.cfg s.buf) (dirtyDefined s.dirty) (a :: rest)) :
    initGuarded s.cfg.npages (bufDefined s.cfg (localEffect a s).buf) (dirtyDefined (localEffect a s).dirty)
      rest := by
  cases a
  case wr => cases hw
  case zeroBuf => exact initGuarded_mono rest (fun _ => bufDefined_zeros s.cfg) id hg
  case clearDirty pages =>
    refine initGuarded_mono rest id ?_ hg
    rintro (hdef | hall)
    · exact clearPages_defined _ _ hdef
    · show dirtyDefined (clearPages pages s.dirty)
      rw [clearPages_all_defined _ _ (by rw [hd]; exact hall)]
      intro b hb
      simp at hb
      simp [hb.2]
  case setInit => exact hg.2.2
  case bufSet i v => exact initGuarded_mono rest bufDefined_write dirtyDefined_set hg
  case ret v => exact hg

end Sys2Proof.Machine
end

