-- ==== Sys2Proof/Laws/PerInstr.lean ====
section
/-! SUPPORT. Per instruction: the encoding lies in the instruction's own row of spec/opcode_table.json. -/

namespace Sys2Proof

/-- The row of the opcode table of each instruction, as the table prints it: the match value and the mask over the
row's word, and the row's size in bytes. -/
def Instr.row : Instr → Nat × Nat × Nat
  | .sendCommand _ => (0x01000000, 0xFFFF0000, 4)
  | .sendData _ => (0x02000000, 0xFFFF0000, 4)
  | .setPage _ => (0x10000000, 0xFFFFFF00, 4)
  | .setColumn _ => (0x11000000, 0xFFFFFF00, 4)
  | .setPosition _ _ => (0x12000000, 0xFFFF0000, 4)
  | .initializeDisplay => (0x20000000, 0xFFFFFFFF, 4)
  | .update _ _ => (0x30000000, 0xFFFF0000, 4)
  | .bufWrite _ _ => (0x40000000, 0xFF000000, 4)
  | .bufRead _ => (0x41000000, 0xFF0000FF, 4)
  | .setPixel _ _ _ => (0x42000000, 0xFFFE0000, 4)
  | .dirtyStatus => (0x50000000, 0xFFFFFFFF, 4)
  | .ctlSetColumnLow _ => (0x00, 0xF0, 1)
  | .ctlSetColumnHigh _ => (0x10, 0xF0, 1)
  | .ctlSetPage _ => (0xB0, 0xF0, 1)
  | .ctlDisplayOff => (0xAE, 0xFF, 1)
  | .ctlDisplayOn => (0xAF, 0xFF, 1)
  | .ctlClockDivide => (0xD550, 0xFFFF, 2)
  | .ctlAddrMode => (0x20, 0xFF, 1)
  | .ctlContrast _ => (0x8100, 0xFF00, 2)
  | .ctlSegRemap _ => (0xA0, 0xFE, 1)
  | .ctlMux _ => (0xA800, 0xFF00, 2)
  | .ctlEntireOff => (0xA4, 0xFF, 1)
  | .ctlNormal => (0xA6, 0xFF, 1)
  | .ctlOffset _ => (0xD300, 0xFF00, 2)
  | .ctlDcdc _ => (0xAD00, 0xFF00, 2)
  | .ctlComScan _ => (0xC0, 0xF7, 1)
  | .ctlPrecharge _ => (0xD900, 0xFF00, 2)
  | .ctlVcomh _ => (0xDB00, 0xFF00, 2)
  | .ctlStartLine _ => (0xDC00, 0xFF00, 2)

/-- The encoding `e` lies in a row: it has the row's size, and its bits under the mask are the match value. -/
def inRow (row : Nat × Nat × Nat) : Encoded → Prop
  | .request w _ => row.2.2 = 4 ∧ w &&& BitVec.ofNat 32 row.2.1 = BitVec.ofNat 32 row.1
  | .command [b] => row.2.2 = 1 ∧ b &&& BitVec.ofNat 8 row.2.1 = BitVec.ofNat 8 row.1
  | .command [c, p] => row.2.2 = 2 ∧ (c ++ p) &&& BitVec.ofNat 16 row.2.1 = BitVec.ofNat 16 row.1
  | .command [] => False
  | .command (_ :: _ :: _ :: _) => False

/-- A command byte and its parameter byte lie in the CTL16 row of the command byte. -/
theorem ctl16_inRow (c p : Byte) : (c ++ p) &&& BitVec.ofNat 16 0xFF00 = c ++ 0x00#8 := by
  have hm : BitVec.ofNat 16 0xFF00 = (0xFF#8 ++ 0x00#8 : BitVec (8 + 8)) := by decide
  have hc : c &&& 0xFF#8 = c := BitVec.and_allOnes
  rw [hm, BitVec.and_append, BitVec.and_zero, hc]

namespace Laws.RowMatch

/-- The encoding of a well-formed instruction lies in its row. -/
def Statement (i : Instr) : Prop := i.wellFormed = true → inRow i.row (encode i)

theorem sendCommand (payload : List Byte) : Statement (.sendCommand payload) := by
  intro _
  have hm : BitVec.ofNat 32 0xFFFF0000 = (0xFF#8 ++ 0xFF#8 ++ 0#16 : BitVec (8 + 8 + 16)) := by decide
  refine ⟨rfl, ?_⟩
  simp only [Instr.row, Op.code]
  rw [hm, BitVec.and_append, BitVec.and_append, BitVec.and_zero]
  decide

theorem sendData (payload : List Byte) : Statement (.sendData payload) := by
  intro _
  have hm : BitVec.ofNat 32 0xFFFF0000 = (0xFF#8 ++ 0xFF#8 ++ 0#16 : BitVec (8 + 8 + 16)) := by decide
  refine ⟨rfl, ?_⟩
  simp only [Instr.row, Op.code]
  rw [hm, BitVec.and_append, BitVec.and_append, BitVec.and_zero]
  decide

theorem setPage (page : Byte) : Statement (.setPage page) := by
  intro _
  have hm : BitVec.ofNat 32 0xFFFFFF00 = (0xFF#8 ++ 0xFF#8 ++ 0xFF#8 ++ 0#8 : BitVec (8 + 8 + 8 + 8)) := by decide
  refine ⟨rfl, ?_⟩
  simp only [Instr.row, Op.code, requestWord]
  rw [hm, BitVec.and_append, BitVec.and_zero]
  decide

theorem setColumn (col : Byte) : Statement (.setColumn col) := by
  intro _
  have hm : BitVec.ofNat 32 0xFFFFFF00 = (0xFF#8 ++ 0xFF#8 ++ 0xFF#8 ++ 0#8 : BitVec (8 + 8 + 8 + 8)) := by decide
  refine ⟨rfl, ?_⟩
  simp only [Instr.row, Op.code, requestWord]
  rw [hm, BitVec.and_append, BitVec.and_zero]
  decide

theorem setPosition (col page : Byte) : Statement (.setPosition col page) := by
  intro _
  have hm : BitVec.ofNat 32 0xFFFF0000 = (0xFF#8 ++ 0xFF#8 ++ 0#8 ++ 0#8 : BitVec (8 + 8 + 8 + 8)) := by decide
  refine ⟨rfl, ?_⟩
  simp only [Instr.row, Op.code, requestWord]
  rw [hm, BitVec.and_append, BitVec.and_append, BitVec.and_zero, BitVec.and_zero]
  decide

theorem initializeDisplay : Statement .initializeDisplay := fun _ => ⟨rfl, rfl⟩

theorem update (first last : Byte) : Statement (.update first last) := by
  intro _
  have hm : BitVec.ofNat 32 0xFFFF0000 = (0xFF#8 ++ 0xFF#8 ++ 0#8 ++ 0#8 : BitVec (8 + 8 + 8 + 8)) := by decide
  refine ⟨rfl, ?_⟩
  simp only [Instr.row, Op.code, requestWord]
  rw [hm, BitVec.and_append, BitVec.and_append, BitVec.and_zero, BitVec.and_zero]
  decide

theorem bufWrite (index : BufIndex) (value : Byte) : Statement (.bufWrite index value) := by
  intro _
  have hm : BitVec.ofNat 32 0xFF000000 = (0xFF#8 ++ 0#16 ++ 0#8 : BitVec (8 + 16 + 8)) := by decide
  refine ⟨rfl, ?_⟩
  simp only [Instr.row, Op.code]
  rw [hm, BitVec.and_append, BitVec.and_append, BitVec.and_zero, BitVec.and_zero]
  decide

theorem bufRead (index : BufIndex) : Statement (.bufRead index) := by
  intro _
  have hm : BitVec.ofNat 32 0xFF0000FF = (0xFF#8 ++ 0#16 ++ 0xFF#8 : BitVec (8 + 16 + 8)) := by decide
  refine ⟨rfl, ?_⟩
  simp only [Instr.row, Op.code]
  rw [hm, BitVec.and_append, BitVec.and_append, BitVec.and_zero]
  decide

theorem setPixel (x y : Byte) (on : Bool) : Statement (.setPixel x y on) := by
  intro _
  have hm : BitVec.ofNat 32 0xFFFE0000 = (0xFF#8 ++ 0x7F#7 ++ 0#1 ++ 0#8 ++ 0#8 : BitVec (8 + 7 + 1 + 8 + 8)) := by decide
  refine ⟨rfl, ?_⟩
  simp only [Instr.row, Op.code]
  rw [hm, BitVec.and_append, BitVec.and_append, BitVec.and_append, BitVec.and_zero, BitVec.and_zero, BitVec.and_zero]
  decide

theorem dirtyStatus : Statement .dirtyStatus := fun _ => ⟨rfl, rfl⟩

theorem ctlSetColumnLow (llll : BitVec 4) : Statement (.ctlSetColumnLow llll) := by
  intro _
  have hm : BitVec.ofNat 8 0xF0 = (0xF#4 ++ 0#4 : BitVec (4 + 4)) := by decide
  refine ⟨rfl, ?_⟩
  simp only [Instr.row]
  rw [hm, BitVec.and_append, BitVec.and_zero]
  decide

theorem ctlSetColumnHigh (hhhh : BitVec 4) : Statement (.ctlSetColumnHigh hhhh) := by
  intro _
  have hm : BitVec.ofNat 8 0xF0 = (0xF#4 ++ 0#4 : BitVec (4 + 4)) := by decide
  refine ⟨rfl, ?_⟩
  simp only [Instr.row]
  rw [hm, BitVec.and_append, BitVec.and_zero]
  decide

theorem ctlSetPage (page : Byte) : Statement (.ctlSetPage page) := by
  intro h
  refine ⟨rfl, ?_⟩
  show 0xB0#8 + page &&& 0xF0#8 = 0xB0#8
  have hall : ∀ p : Byte, decide (p.toNat < 16) = true → 0xB0#8 + p &&& 0xF0#8 = 0xB0#8 := by decide
  exact hall page h

theorem ctlDisplayOff : Statement .ctlDisplayOff := fun _ => ⟨rfl, rfl⟩

theorem ctlDisplayOn : Statement .ctlDisplayOn := fun _ => ⟨rfl, rfl⟩

theorem ctlClockDivide : Statement .ctlClockDivide := fun _ => ⟨rfl, rfl⟩

theorem ctlAddrMode : Statement .ctlAddrMode := fun _ => ⟨rfl, rfl⟩

theorem ctlContrast (param : Byte) : Statement (.ctlContrast param) := fun _ => ⟨rfl, (ctl16_inRow _ param).trans (by simp only [Instr.row]; decide)⟩

theorem ctlSegRemap (r : BitVec 1) : Statement (.ctlSegRemap r) := by
  intro _
  have hm : BitVec.ofNat 8 0xFE = (0x7F#7 ++ 0#1 : BitVec (7 + 1)) := by decide
  refine ⟨rfl, ?_⟩
  simp only [Instr.row]
  rw [hm, BitVec.and_append, BitVec.and_zero]
  decide

theorem ctlMux (param : Byte) : Statement (.ctlMux param) := fun _ => ⟨rfl, (ctl16_inRow _ param).trans (by simp only [Instr.row]; decide)⟩

theorem ctlEntireOff : Statement .ctlEntireOff := fun _ => ⟨rfl, rfl⟩

theorem ctlNormal : Statement .ctlNormal := fun _ => ⟨rfl, rfl⟩

theorem ctlOffset (param : Byte) : Statement (.ctlOffset param) := fun _ => ⟨rfl, (ctl16_inRow _ param).trans (by simp only [Instr.row]; decide)⟩

theorem ctlDcdc (param : Byte) : Statement (.ctlDcdc param) := fun _ => ⟨rfl, (ctl16_inRow _ param).trans (by simp only [Instr.row]; decide)⟩

theorem ctlComScan (d : BitVec 1) : Statement (.ctlComScan d) := by
  intro _
  have hm : BitVec.ofNat 8 0xF7 = (0xF#4 ++ 0#1 ++ 0x7#3 : BitVec (4 + 1 + 3)) := by decide
  refine ⟨rfl, ?_⟩
  simp only [Instr.row]
  rw [hm, BitVec.and_append, BitVec.and_append, BitVec.and_zero]
  decide

theorem ctlPrecharge (param : Byte) : Statement (.ctlPrecharge param) := fun _ => ⟨rfl, (ctl16_inRow _ param).trans (by simp only [Instr.row]; decide)⟩

theorem ctlVcomh (param : Byte) : Statement (.ctlVcomh param) := fun _ => ⟨rfl, (ctl16_inRow _ param).trans (by simp only [Instr.row]; decide)⟩

theorem ctlStartLine (param : Byte) : Statement (.ctlStartLine param) := fun _ => ⟨rfl, (ctl16_inRow _ param).trans (by simp only [Instr.row]; decide)⟩

end Laws.RowMatch

end Sys2Proof
end

