-- ==== Sys2Proof/Tests/Slice0.lean ====
section
/-! SUPPORT. Small tests, their expected results from the words and examples of spec/ (the source stands before each group),
and one witness for each statement that has hypotheses. -/

open Sys2Proof Sys2Proof.Machine

namespace Tests

/-! ### Decoding: words written out from spec/95_test_vectors.md section 0, R102, R104, R109 to R112, R201 -/

theorem test_decode_sendCommand : decode (.request 0x01000002#32 [0x81#8, 0x40#8]) = .ok (.sendCommand [0x81#8, 0x40#8]) := by decide
theorem test_decode_sendData : decode (.request 0x02000003#32 [1#8, 2#8, 3#8]) = .ok (.sendData [1#8, 2#8, 3#8]) := by decide
theorem test_decode_setPage : decodeTableWord 32 0x10000003 = some (.setPage 3#8) := by decide
theorem test_decode_setColumn : decodeTableWord 32 0x1100003A = some (.setColumn 0x3A#8) := by decide
theorem test_decode_setPosition : decodeTableWord 32 0x1200033A = some (.setPosition 0x3A#8 3#8) := by decide
theorem test_decode_initialize : decodeTableWord 32 0x20000000 = some .initializeDisplay := by decide
theorem test_decode_update : decodeTableWord 32 0x30000203 = some (.update 3#8 2#8) := by decide
theorem test_decode_bufWrite : decodeTableWord 32 0x40012C81 = some (.bufWrite 300#16 0x81#8) := by decide
theorem test_decode_bufRead : decodeTableWord 32 0x41008300 = some (.bufRead 131#16) := by decide
theorem test_decode_setPixel_on : decodeTableWord 32 0x42010A03 = some (.setPixel 3#8 10#8 true) := by decide
theorem test_decode_setPixel_off : decodeTableWord 32 0x42000A03 = some (.setPixel 3#8 10#8 false) := by decide
theorem test_decode_dirtyStatus : decodeTableWord 32 0x50000000 = some .dirtyStatus := by decide
theorem test_decode_ctlSetColumnLow : decodeTableWord 8 0b00001010 = some (.ctlSetColumnLow 0xA#4) := by decide
theorem test_decode_ctlSetColumnHigh : decodeTableWord 8 0b00010011 = some (.ctlSetColumnHigh 0x3#4) := by decide
theorem test_decode_ctlSetPage : decodeTableWord 8 0b10110101 = some (.ctlSetPage 5#8) := by decide
theorem test_decode_ctlDisplayOff : decodeTableWord 8 0b10101110 = some .ctlDisplayOff := by decide
theorem test_decode_ctlDisplayOn : decodeTableWord 8 0b10101111 = some .ctlDisplayOn := by decide
theorem test_decode_ctlClockDivide : decodeTableWord 16 0xD550 = some .ctlClockDivide := by decide
theorem test_decode_ctlAddrMode : decodeTableWord 8 0x20 = some .ctlAddrMode := by decide
theorem test_decode_ctlContrast : decodeTableWord 16 0x8140 = some (.ctlContrast 0x40#8) := by decide
theorem test_decode_ctlSegRemap : decodeTableWord 8 0b10100001 = some (.ctlSegRemap 1#1) := by decide
theorem test_decode_ctlMux : decodeTableWord 16 0xA83F = some (.ctlMux 0x3F#8) := by decide
theorem test_decode_ctlEntireOff : decodeTableWord 8 0xA4 = some .ctlEntireOff := by decide
theorem test_decode_ctlNormal : decodeTableWord 8 0xA6 = some .ctlNormal := by decide
theorem test_decode_ctlOffset : decodeTableWord 16 0xD360 = some (.ctlOffset 0x60#8) := by decide
theorem test_decode_ctlDcdc : decodeTableWord 16 0xAD8A = some (.ctlDcdc 0x8A#8) := by decide
theorem test_decode_ctlComScan : decodeTableWord 8 0b11001000 = some (.ctlComScan 1#1) := by decide
theorem test_decode_ctlPrecharge : decodeTableWord 16 0xD922 = some (.ctlPrecharge 0x22#8) := by decide
theorem test_decode_ctlVcomh : decodeTableWord 16 0xDB35 = some (.ctlVcomh 0x35#8) := by decide
theorem test_decode_ctlStartLine : decodeTableWord 16 0xDC00 = some (.ctlStartLine 0x00#8) := by decide

/-- R103, R105, R117: what the decoder shuts out, by name. -/
theorem test_decode_refusals :
    decode (.request 0x03000000#32 []) = .error .unknownOp ∧
    decode (.request 0x10000100#32 []) = .error .reservedBits ∧
    decode (.request 0x42020000#32 []) = .error .reservedBits ∧
    decode (.request 0x02000002#32 [1#8]) = .error .lengthMismatch ∧
    decode (.command [0xE3#8]) = .error .noCommandRow ∧
    decode (.command [0xD5#8, 0x51#8]) = .error .noCommandRow := by decide

/-- The assembly lines of spec/95_test_vectors.md section 0, encoded. -/
theorem test_encode :
    encode (.sendCommand [0xAE#8]) = .request 0x01000001#32 [0xAE#8] ∧
    encode (.update 0#8 7#8) = .request 0x30000700#32 [] ∧
    encode (.bufWrite 130#16 0xFF#8) = .request 0x400082FF#32 [] ∧
    encode (.setPixel 3#8 10#8 true) = .request 0x42010A03#32 [] := by decide

/-! ### WellFormed: an ill-formed term for each check -/

theorem test_illFormed_sendCommand_empty : Instr.wellFormed (.sendCommand []) = false := by decide
theorem test_illFormed_sendCommand_long (p : List Byte) (h : p.length = 65536) :
    Instr.wellFormed (.sendCommand p) = false := by simp [Instr.wellFormed, h]
theorem test_illFormed_sendData_long (p : List Byte) (h : p.length = 65536) :
    Instr.wellFormed (.sendData p) = false := by simp [Instr.wellFormed, h]
theorem test_long_payload_exists : ∃ p : List Byte, p.length = 65536 := ⟨List.replicate 65536 0#8, List.length_replicate⟩
theorem test_illFormed_ctlSetPage : Instr.wellFormed (.ctlSetPage 16#8) = false := by decide

/-! ### States for the tests -/

/-- A small display: 4 columns, 2 pages, 2-byte chunks, a sequence of two entries. -/
def small : Cfg :=
  { width := 4, height := 16, dataSize := 2, devAddr := 0x3C#7, regCmd := 0x00#8, regData := 0x40#8,
    pageBase := 0xB0#8, colFraming := .split, dirtyPolicy := .global, initSeq := [[0xAE#8], [0xD5#8, 0x50#8]] }

/-- Idle after a reset, not initialized. -/
def fresh : State :=
  { cfg := small, buf := [], dirty := [none, none], init := false, seq := .idle, txlog := [], rsplog := [],
    refused := none, host := [], answers := [] }

/-- Idle and initialized; page 1 is dirty. -/
def ready : State :=
  { fresh with
    buf := [(0, 0x10#8), (1, 0x11#8), (2, 0x12#8), (3, 0x13#8), (4, 0x20#8), (5, 0x21#8), (6, 0x22#8), (7, 0x23#8)],
    dirty := [some false, some true], init := true }

/-- A display of 128 columns that holds zero in the cell of pixel (3, 10). -/
def wide : State :=
  { ready with cfg := { small with width := 128 }, buf := [(130, 0x00#8), (131, 0x00#8)] }

/-- The plan of SEND_COMMAND [0xAF] in the small display, about to issue its write. -/
def sendingBusy : Busy :=
  { op := 0x01#8, plan := [.wr 0x00#8 [0xAF#8] cmdTag], pc := 0, pending := false, nwr := 0, ret := .empty }

def sending : State := { fresh with seq := .busy sendingBusy }

/-- The pending event of that write. -/
def pendingEvent : TxEvent :=
  { addr := 0x3C#7, reg := 0x00#8, payload := [0xAF#8], tag := cmdTag, result := .pending }

/-- The same write issued, with the transport's answers still to come. -/
def waiting (answers : List Answer) : State :=
  { fresh with seq := .busy { sendingBusy with pending := true }, txlog := [pendingEvent], answers := answers }

/-- A plan of one action, about to take it. -/
def running (op : Byte) (a : Action) : State :=
  { ready with seq := .busy { op := op, plan := [a], pc := 0, pending := false, nwr := 0, ret := .empty } }

/-- The state an outcome answers, for reading a field of it. -/
def after (o : Out) : Option State :=
  match o with
  | .next s => some s
  | .fault _ => none
  | .refused _ => none

/-- The plan a state is running. -/
def planOf (s : State) : List Action :=
  match s.seq with
  | .idle => []
  | .busy b => b.plan

/-- The payloads of a plan's writes with their selectors. -/
def writesOf (plan : List Action) : List (Byte × List Byte) :=
  (planEvents 0x3C#7 .ok plan).map fun e => (e.reg, e.payload)

/-! ### Host operations: the examples of their rules -/

/-- R161, example. -/
theorem test_sendCommand_oneWrite :
    (after (exec (.sendCommand [0x81#8, 0x40#8]) fresh)).map (writesOf ∘ planOf) = some [(0x00#8, [0x81#8, 0x40#8])] := by
  decide
/-- R161, admission: longer than `DATA_SIZE`. -/
theorem test_sendCommand_tooLong :
    (after (exec (.sendCommand [1#8, 2#8, 3#8]) fresh)).map State.refused = some (some .cmdTooLong) := by decide
/-- R164: chunks of at most 2 bytes in order. -/
theorem test_sendData_chunks :
    (after (exec (.sendData [1#8, 2#8, 3#8, 4#8, 5#8]) fresh)).map (writesOf ∘ planOf)
      = some [(0x40#8, [1#8, 2#8]), (0x40#8, [3#8, 4#8]), (0x40#8, [5#8])] := by decide
/-- R164, corner case: no byte, no write. -/
theorem test_sendData_empty : (after (exec (.sendData []) fresh)).map planOf = some [] := by decide
/-- R181, corner case: page `NPAGES - 1`. -/
theorem test_setPage_last :
    (after (exec (.setPage 1#8) fresh)).map (writesOf ∘ planOf) = some [(0x00#8, [0xB1#8])] := by decide
/-- R181, corner case: page `NPAGES`. -/
theorem test_setPage_range : (after (exec (.setPage 2#8) fresh)).map State.refused = some (some .pageRange) := by decide
/-- R183, example. -/
theorem test_setColumn_split :
    (after (exec (.setColumn 0x3A#8) fresh)).map (writesOf ∘ planOf) = some [(0x00#8, [0x0A#8]), (0x00#8, [0x13#8])] := by
  decide
/-- R183, corner case: column 255 in framing JOINED. -/
theorem test_setColumn_joined :
    (after (exec (.setColumn 255#8) { fresh with cfg := { small with colFraming := .joined } })).map (writesOf ∘ planOf)
      = some [(0x00#8, [0x0F#8, 0x1F#8])] := by decide
/-- R185, example. -/
theorem test_setPosition_origin :
    (after (exec (.setPosition 0#8 0#8) fresh)).map (writesOf ∘ planOf)
      = some [(0x00#8, [0xB0#8]), (0x00#8, [0x00#8]), (0x00#8, [0x10#8])] := by decide
/-- R202: the writes of the small display in order. -/
theorem test_initialize_writes :
    (after (exec .initializeDisplay fresh)).map (writesOf ∘ planOf) = some
      [(0x00#8, [0xAE#8]), (0x00#8, [0xD5#8, 0x50#8]),
       (0x00#8, [0xB0#8]), (0x00#8, [0x00#8]), (0x00#8, [0x10#8]), (0x40#8, [0#8, 0#8]), (0x40#8, [0#8, 0#8]),
       (0x00#8, [0xB1#8]), (0x00#8, [0x00#8]), (0x00#8, [0x10#8]), (0x40#8, [0#8, 0#8]), (0x40#8, [0#8, 0#8])] := by
  decide
/-- R202, example: 74 writes in the reference configuration. -/
theorem test_initialize_count : writeCount (initPlan referenceInput.toCfg) = 74 := by
  set_option maxRecDepth 20000 in decide
/-- R221: one page of the buffer, behind its position command. -/
theorem test_update_onePage :
    (after (exec (.update 1#8 1#8) ready)).map (writesOf ∘ planOf) = some
      [(0x00#8, [0xB1#8]), (0x00#8, [0x00#8]), (0x00#8, [0x10#8]), (0x40#8, [0x20#8, 0x21#8]), (0x40#8, [0x22#8, 0x23#8])] := by
  decide
/-- R224: an empty range has no write; GLOBAL clears every page. -/
theorem test_update_emptyRange :
    (after (exec (.update 1#8 0#8) ready)).map planOf = some [.clearDirty [0, 1]] := by decide
/-- R240, example (`WIDTH` 128): cell 130 and page 1. -/
theorem test_bufWrite_example :
    (after (exec (.bufWrite 130#16 0xFF#8) wide)).map (fun s => (s.buf.read 130, s.dirty)) =
      some (some 0xFF#8, [some false, some true]) := by decide
/-- R240: refused before INITIALIZE. -/
theorem test_bufWrite_uninit :
    (after (exec (.bufWrite 0#16 1#8) fresh)).map State.refused = some (some .uninit) := by decide
/-- R241: the byte of the cell in the response. -/
theorem test_bufRead_value :
    (after (exec (.bufRead 5#16) ready)).map State.rsplog =
      some [{ op := 0x41#8, status := .ok, value := .byte 0x21#8, fail := none }] := by decide
/-- R241: index `NBYTES`. -/
theorem test_bufRead_range : (after (exec (.bufRead 8#16) ready)).map State.refused = some (some .indexRange) := by decide
/-- R242, example (`WIDTH` 128): bit 2 of cell 131. -/
theorem test_setPixel_example :
    (after (exec (.setPixel 3#8 10#8 true) wide)).map (fun s => (s.buf.read 131, s.dirty)) =
      some (some 0x04#8, [some false, some true]) := by decide
/-- R242: clearing bit 1 of 0x13 leaves the other bits. -/
theorem test_setPixel_clear :
    (after (exec (.setPixel 3#8 1#8 false) ready)).map (fun s => s.buf.read 3) = some (some 0x11#8) := by decide
/-- R243: bit p is page p. -/
theorem test_dirtyStatus :
    (after (exec .dirtyStatus ready)).map State.rsplog =
      some [{ op := 0x50#8, status := .ok, value := .bits [false, true], fail := none }] := by decide

/-! ### Controller command rows: each is issued where it is next (R143), with the bytes of the opcode table -/

/-- The events that the rows leave in `TXLOG`. -/
theorem test_controller_rows_issue :
    [(Instr.ctlSetColumnLow 0xA#4, [0x0A#8]), (.ctlSetColumnHigh 0x3#4, [0x13#8]), (.ctlSetPage 5#8, [0xB5#8]),
     (.ctlDisplayOff, [0xAE#8]), (.ctlDisplayOn, [0xAF#8]), (.ctlClockDivide, [0xD5#8, 0x50#8]), (.ctlAddrMode, [0x20#8]),
     (.ctlContrast 0x40#8, [0x81#8, 0x40#8]), (.ctlSegRemap 1#1, [0xA1#8]), (.ctlMux 0x3F#8, [0xA8#8, 0x3F#8]),
     (.ctlEntireOff, [0xA4#8]), (.ctlNormal, [0xA6#8]), (.ctlOffset 0x60#8, [0xD3#8, 0x60#8]),
     (.ctlDcdc 0x8A#8, [0xAD#8, 0x8A#8]), (.ctlComScan 1#1, [0xC8#8]), (.ctlPrecharge 0x22#8, [0xD9#8, 0x22#8]),
     (.ctlVcomh 0x35#8, [0xDB#8, 0x35#8]), (.ctlStartLine 0x00#8, [0xDC#8, 0x00#8])].all (fun row =>
      (after (exec row.1 (aboutToSend row.2 fresh))).map (fun s => s.txlog.map fun e => (e.reg, e.payload, e.result))
        == some [(0x00#8, row.2, .pending)]) = true := by decide

/-- A row that is not next is refused by name (log 9). -/
theorem test_controller_row_notNext : exec .ctlDisplayOn fresh = .refused .commandNotEnabled := rfl

/-! ### The step -/

/-- The first word after reset runs: a host request and a controller command (log 10). -/
theorem test_step_runs_first_word :
    (after (step (State.reset.withFetchWord 32 0x10000003))).map (writesOf ∘ planOf) = some [(0x00#8, [0xB3#8])] ∧
    (after (step (State.reset.withFetchWord 8 0xB3))).map (fun s => s.txlog.map TxEvent.frame) = some [[0x00#8, 0xB3#8]] := by
  decide

/-- R145, R254: the one write of SEND_COMMAND fails. -/
theorem test_step_fail :
    (after (step (waiting [.fail]))).map (fun s => (s.seq, s.rsplog)) =
      some (.idle, [{ op := 0x01#8, status := .transportFail, value := .empty,
                      fail := some { op := 0x01#8, wrIndex := 0, tag := cmdTag } }]) := by decide

/-- R283: a reset abandons the pending write. -/
theorem test_reset_abandons :
    (after (resetInput referenceInput (waiting []))).map (fun s => (s.seq, s.txlog.map TxEvent.result)) =
      some (.idle, [.abandoned]) := by decide

/-- R44: reset memory is in canonical form. -/
theorem test_reset_memory : State.reset.buf.wf = true := rfl

/-! ### The assembler (R115, R116) -/

theorem test_assembler_text :
    (parseLine "SEND_COMMAND [0x81, 0x40]".toList).map (assemble 8) = some (.ok (.request 0x01000002#32 [0x81#8, 0x40#8])) ∧
    (parseLine "UPDATE".toList).map (assemble 8) = some (.ok (.request 0x30000700#32 [])) ∧
    (parseLine "SET_PIXEL 3, 10, 1".toList).map (assemble 8) = some (.ok (.request 0x42010A03#32 [])) := by decide

theorem test_assembler_field :
    (parseLine "SET_COLUMN 256".toList).map (assemble 8) = some (.error .fieldRange) := by decide

/-- R253, code 12. -/
theorem test_assembler_refusal :
    (after (submitLine (.setColumn 256) fresh)).map State.refused = some (some .fieldRange) := by decide

/-! ### Witnesses: for each statement with hypotheses, states and operands that meet all of them, at the boundaries of its
clauses -/

theorem invariant_ready (h : List HostEvent) (a : List Answer) : Invariant { ready with host := h, answers := a } where
  cfgValid := (by decide : small.valid = true)
  bufWf := rfl
  bufInRange := (by decide : ∀ cell ∈ ready.buf, cell.1 < small.nbytes)
  dirtyLength := (by decide : ready.dirty.length = small.npages)
  initDefined _ := ⟨(by decide : ∀ i, i < small.nbytes → ready.buf.read i ≠ none), (by decide : ∀ b ∈ ready.dirty, b ≠ none)⟩
  busyOk b hb := by cases hb
  onePending before e after he _ := by
    have : ([] : List TxEvent) = before ++ e :: after := he
    simp at this

theorem invariant_waiting (h : List HostEvent) (a : List Answer) : Invariant { waiting a with host := h } where
  cfgValid := (by decide : small.valid = true)
  bufWf := rfl
  bufInRange cell hc := by cases hc
  dirtyLength := (by decide : fresh.dirty.length = small.npages)
  initDefined hi := by cases hi
  busyOk b hb := by
    cases hb
    exact {
      pcInPlan := by decide
      writesDone := rfl
      actions := (by simp [sendingBusy, actionOk, waiting, fresh, small])
      guarded := trivial
      answered := ⟨[], rfl⟩
      pendingWrite := fun _ => ⟨_, _, _, rfl⟩ }
  onePending before e after he _ := by
    have he' : [pendingEvent] = before ++ e :: after := he
    cases before with
    | nil =>
      injection he' with _ h2
      exact ⟨h2.symm, _, rfl, rfl⟩
    | cons x xs =>
      injection he' with _ h2
      simp at h2

theorem invariant_sending (h : List HostEvent) (a : List Answer) : Invariant { sending with host := h, answers := a } where
  cfgValid := (by decide : small.valid = true)
  bufWf := rfl
  bufInRange cell hc := by cases hc
  dirtyLength := (by decide : fresh.dirty.length = small.npages)
  initDefined hi := by cases hi
  busyOk b hb := by
    cases hb
    exact {
      pcInPlan := by decide
      writesDone := rfl
      actions := (by simp [sendingBusy, actionOk, sending, fresh, small])
      guarded := trivial
      answered := ⟨[], rfl⟩
      pendingWrite := fun hp => by cases hp }
  onePending before e after he _ := by
    have : ([] : List TxEvent) = before ++ e :: after := he
    simp at this

/-- Hosts that wait while the sequencer is busy: one with nothing further, one that pauses, one whose next call waits for
its response, at once or after a pause (R285). -/
def waitingHosts : List (List HostEvent) :=
  [[], [.pause, .pause], [.call (.request 0x50000000#32 [])], [.pause, .call (.request 0x50000000#32 [])]]

theorem waitingHosts_wait (n : Nat) : ∀ h ∈ waitingHosts, hostWaits n h := by
  rcases n with - | - | - | n <;> simp [waitingHosts, hostWaits]

/-- A request that comes after the last step counted does not matter. -/
theorem test_hostWaits_boundary :
    hostWaits 1 [.pause, .present (.request 0x50000000#32 [])] ∧ ¬ hostWaits 2 [.pause, .present (.request 0x50000000#32 [])] ∧
    hostAfter 1 [.pause, .present (.request 0x50000000#32 [])] = [.present (.request 0x50000000#32 [])] := by
  simp [hostWaits, hostAfter]

theorem witness_DecodeOfEncodeIsTheInstruction :
    Instr.wellFormed (.sendCommand [0xFF#8]) = true ∧ Instr.wellFormed (.sendData []) = true ∧
    Instr.wellFormed (.update 0xFF#8 0#8) = true ∧ Instr.wellFormed (.ctlSetPage 15#8) = true := by decide

theorem witness_EncodeOfDecodeIsTheWord :
    decode (.request 0x1200033A#32 []) = .ok (.setPosition 0x3A#8 3#8) ∧ decode (.command [0xBF#8]) = .ok (.ctlSetPage 15#8) := by
  decide

theorem witness_UnassignedOpcodesAreRefused :
    fresh.refused = none ∧ (waiting []).refused = none ∧
    ∀ w ∈ [0x00000000#32, 0x03FFFFFF#32, 0xFF000000#32],
      w.extractLsb' 24 8 ∉
        [0x01#8, 0x02#8, 0x10#8, 0x11#8, 0x12#8, 0x20#8, 0x30#8, 0x40#8, 0x41#8, 0x42#8, 0x50#8] := by
  refine ⟨rfl, rfl, ?_⟩
  simp

/-- One word for each clause: busy, a reserved bit, a payload of another length (in a format with a payload, and in one
without: log 12), uninitialized. -/
theorem witness_RequestChecksComeInPriorityOrder :
    ((0x30000100#32).extractLsb' 24 8 = 0x30#8 ∧ (waiting []).refused = none ∧ (waiting []).isBusy = true) ∧
    (fresh.refused = none ∧ fresh.seq = .idle ∧ (0x30010000#32).extractLsb' 24 8 = 0x30#8 ∧
      0x30010000#32 &&& 0x00FF0000#32 ≠ 0#32) ∧
    ((0x02000001#32).extractLsb' 24 8 = 0x02#8 ∧ 0x02000001#32 &&& 0x00FF0000#32 = 0#32 ∧
      ([] : List Byte).length ≠ ((0x02000001#32).extractLsb' 0 16).toNat) ∧
    ((0x10000001#32).extractLsb' 24 8 = 0x10#8 ∧ 0x10000001#32 &&& 0x00FFFF00#32 = 0#32 ∧ [0#8].length ≠ 0) ∧
    (0x30000100#32 &&& 0x00FF0000#32 = 0#32 ∧ ([] : List Byte).length = 0 ∧ fresh.init = false) := by decide

theorem witness_StepRunsTheDecodedRequest :
    fresh.refused = none ∧ fresh.seq = .idle ∧ decode (.request 0x10000001#32 []) = .ok (.setPage 1#8) ∧
    ({ fresh with host := [.present (.request 0x10000001#32 [])] } : State).host =
      .present (.request 0x10000001#32 []) :: [] ∧
    ({ fresh with host := [.call (.request 0x10000001#32 [])] } : State).host =
      .call (.request 0x10000001#32 []) :: [] := by decide

theorem witness_StepIssuesAPlannedCommandAsItsRow :
    sending.refused = none ∧ sending.seq = .busy sendingBusy ∧ sendingBusy.pending = false ∧
    sendingBusy.plan[sendingBusy.pc]? = some (.wr sending.cfg.regCmd [0xAF#8] cmdTag) ∧
    Instr.ctlDisplayOn.commandBytes sending.cfg.pageBase = some [0xAF#8] ∧ sending.host = [] ∧
    ({ sending with host := [.pause] } : State).host = .pause :: [] ∧
    ({ sending with host := [.call (.request 0x50000000#32 [])] } : State).host =
      .call (.request 0x50000000#32 []) :: [] := by decide

/-- A payload of 1 byte, of `DATA_SIZE` bytes, of none, and of one more than `DATA_SIZE`. -/
theorem witness_SendCommandIsAcceptedAsOneWrite :
    fresh.refused = none ∧ fresh.seq = .idle ∧ 1 ≤ [1#8].length ∧ [1#8, 2#8].length ≤ fresh.cfg.dataSize ∧
    ([] : List Byte).length = 0 ∧ fresh.cfg.dataSize < [1#8, 2#8, 3#8].length := by decide

/-- Also of InitializeIsAcceptedWithItsPlan and ChunkingLaws. -/
theorem witness_SendDataIsAcceptedAsItsChunks :
    fresh.refused = none ∧ fresh.seq = .idle ∧ 1 ≤ fresh.cfg.dataSize := by decide

/-- Also of SetPositionIsAcceptedPageFirst and, for the first two parts, of SetColumnIsAcceptedLowByteFirst. -/
theorem witness_SetPageIsAcceptedAsOneByte :
    fresh.refused = none ∧ fresh.seq = .idle ∧ (1#8).toNat < fresh.cfg.height / 8 ∧
    fresh.cfg.height / 8 ≤ (2#8).toNat := by decide

theorem witness_SetColumnIsAcceptedLowByteFirst : fresh.refused = none ∧ fresh.seq = .idle := by decide

theorem witness_SetPositionIsAcceptedPageFirst :
    fresh.refused = none ∧ fresh.seq = .idle ∧ (1#8).toNat < fresh.cfg.height / 8 ∧
    fresh.cfg.height / 8 ≤ (2#8).toNat := by decide

theorem witness_InitializeIsAcceptedWithItsPlan :
    fresh.refused = none ∧ fresh.seq = .idle ∧ 1 ≤ fresh.cfg.dataSize := by decide

/-- Uninitialized; a bound at `NPAGES`; both bounds at `NPAGES - 1`, with the bytes the buffer holds. -/
theorem witness_UpdateIsAcceptedWithItsPlan :
    ready.refused = none ∧ ready.seq = .idle ∧ 1 ≤ ready.cfg.dataSize ∧ fresh.init = false ∧ ready.init = true ∧
    ready.cfg.height / 8 ≤ (2#8).toNat ∧ (1#8).toNat < ready.cfg.height / 8 ∧
    ∀ i, i < ready.cfg.width * (ready.cfg.height / 8) →
      ready.buf.read i = some ([0x10#8, 0x11#8, 0x12#8, 0x13#8, 0x20#8, 0x21#8, 0x22#8, 0x23#8].getD i 0#8) := by
  decide

theorem witness_PositionCommandIsPageThenColumn :
    small.colFraming = .split ∧ ({ small with colFraming := .joined } : Cfg).colFraming = .joined := by decide

theorem witness_InitializePlanDependsOnTheConfigurationOnly :
    fresh.refused = none ∧ fresh.seq = .idle ∧ ready.refused = none ∧ ready.seq = .idle ∧ ready.cfg = fresh.cfg ∧
    ready.init ≠ fresh.init ∧ ready.buf ≠ fresh.buf := by decide

/-- Uninitialized; the index `NBYTES`; the index `NBYTES - 1`. -/
theorem witness_BufWriteWritesOneByteAndMarksItsPage :
    fresh.refused = none ∧ fresh.seq = .idle ∧ fresh.init = false ∧ ready.refused = none ∧ ready.seq = .idle ∧
    ready.init = true ∧ ready.cfg.width * (ready.cfg.height / 8) ≤ (8#16).toNat ∧
    (7#16).toNat < ready.cfg.width * (ready.cfg.height / 8) := by decide

theorem witness_BufReadAnswersTheByte :
    fresh.refused = none ∧ fresh.seq = .idle ∧ fresh.init = false ∧ ready.refused = none ∧ ready.seq = .idle ∧
    ready.init = true ∧ ready.cfg.width * (ready.cfg.height / 8) ≤ (8#16).toNat ∧
    (7#16).toNat < ready.cfg.width * (ready.cfg.height / 8) ∧ ready.buf.read (7#16).toNat = some 0x23#8 := by decide

/-- Uninitialized; x at `WIDTH`; y at `HEIGHT`; the last pixel. -/
theorem witness_SetPixelWritesOneBitAndMarksItsPage :
    fresh.refused = none ∧ fresh.seq = .idle ∧ fresh.init = false ∧ ready.refused = none ∧ ready.seq = .idle ∧
    ready.init = true ∧ ready.cfg.width ≤ (4#8).toNat ∧ ready.cfg.height ≤ (16#8).toNat ∧
    (3#8).toNat < ready.cfg.width ∧ (15#8).toNat < ready.cfg.height ∧
    ready.buf.read ((15#8).toNat / 8 * ready.cfg.width + (3#8).toNat) = some 0x23#8 := by decide

theorem witness_DirtyStatusAnswersTheDirtyBits :
    fresh.refused = none ∧ fresh.seq = .idle ∧ fresh.init = false ∧ ready.refused = none ∧ ready.seq = .idle ∧
    ready.init = true ∧ ready.dirty = [false, true].map some := by decide

/-- One accepted operation of each of the four, with the byte and the dirty bits it reads. -/
theorem witness_ImmediateOperationsEqualTheirSplitForm :
    (∀ h ∈ waitingHosts, hostWaits 2 ({ ready with host := h } : State).host) ∧
    ready.refused = none ∧ ready.seq = .idle ∧ ready.buf.read (7#16).toNat = some 0x23#8 ∧
    ready.buf.read ((15#8).toNat / 8 * ready.cfg.width + (3#8).toNat) = some 0x23#8 ∧
    ready.dirty = [false, true].map some ∧
    ∀ i ∈ [Instr.dirtyStatus, .bufWrite 7#16 1#8, .bufRead 7#16, .setPixel 3#8 15#8 true],
      (after (exec i ready)).map State.refused = some none :=
  ⟨waitingHosts_wait 2, by decide⟩

theorem witness_EveryRequestIsRefusedWhileBusy :
    (waiting []).refused = none ∧ (waiting []).seq = .busy { sendingBusy with pending := true } := by decide

theorem witness_AddressingCommandRowsAreIssued :
    ∀ bytes ∈ [[0x0F#8], [0x1F#8], [0xB1#8]],
      (aboutToSend bytes fresh).refused = none ∧
      (aboutToSend bytes fresh).seq = .busy { sendingBusy with plan := [.wr 0x00#8 bytes cmdTag] } ∧
      sendingBusy.pending = false ∧
      [Action.wr 0x00#8 bytes cmdTag][sendingBusy.pc]? = some (.wr (aboutToSend bytes fresh).cfg.regCmd bytes cmdTag) ∧
      (bytes = [(0xF#4).setWidth 8] ∨ bytes = [0x10#8 ||| (0xF#4).setWidth 8] ∨ bytes = [fresh.cfg.pageBase + 1#8]) := by
  decide

theorem witness_SequenceCommandRowsAreIssued :
    sending.refused = none ∧ sending.seq = .busy sendingBusy ∧ sendingBusy.pending = false ∧
    sendingBusy.plan[sendingBusy.pc]? = some (.wr sending.cfg.regCmd [0xAF#8] cmdTag) := by decide

/-- Idle; waiting for the transport; before another command. -/
theorem witness_CommandRowsStopWhereTheyAreNotNext :
    fresh.refused = none ∧ Instr.ctlDisplayOff.commandBytes fresh.cfg.pageBase = some [0xAE#8] ∧ fresh.seq = .idle ∧
    (waiting []).seq = .busy { sendingBusy with pending := true } ∧
    ∀ tag, sendingBusy.plan[sendingBusy.pc]? ≠ some (.wr sending.cfg.regCmd [0xAE#8] tag) :=
  ⟨rfl, rfl, rfl, rfl, by simp [sendingBusy]⟩

theorem witness_IssueLogsThePendingWrite :
    (∀ h ∈ waitingHosts, hostWaits 1 ({ sending with host := h } : State).host) ∧
    sending.refused = none ∧ sending.seq = .busy sendingBusy ∧ sendingBusy.pending = false ∧
    sendingBusy.plan[sendingBusy.pc]? = some (.wr 0x00#8 [0xAF#8] cmdTag) := ⟨waitingHosts_wait 1, by decide⟩

theorem witness_OkAnswerCompletesTheWrite :
    (∀ h ∈ waitingHosts, hostWaits 1 ({ waiting [.ok] with host := h } : State).host) ∧
    (waiting [.ok]).refused = none ∧ (waiting [.ok]).seq = .busy { sendingBusy with pending := true } ∧
    sendingBusy.plan[sendingBusy.pc]? = some (.wr 0x00#8 [0xAF#8] cmdTag) ∧
    (waiting [.ok]).txlog = [] ++ [pendingEvent] ∧ (waiting [.ok]).answers = .ok :: [] :=
  ⟨waitingHosts_wait 1, by decide⟩

/-- A write of INITIALIZE waiting for its answer. -/
def waitingInitialize (answers : List Answer) : State :=
  { waiting answers with seq := .busy { sendingBusy with op := 0x20#8, pending := true }, init := true, buf := ready.buf }

/-- An operation other than INITIALIZE, and INITIALIZE. -/
theorem witness_FailAnswerAbortsTheOperation :
    (∀ h ∈ waitingHosts, hostWaits 1 ({ waiting [.fail] with host := h } : State).host) ∧
    (waiting [.fail]).refused = none ∧
    (waiting [.fail]).seq = .busy { sendingBusy with pending := true } ∧ sendingBusy.op ≠ 0x20#8 ∧
    sendingBusy.plan[sendingBusy.pc]? = some (.wr 0x00#8 [0xAF#8] cmdTag) ∧
    (waiting [.fail]).txlog = [] ++ [pendingEvent] ∧ (waiting [.fail]).answers = .fail :: [] ∧
    (waitingInitialize [.fail]).seq = .busy { sendingBusy with op := 0x20#8, pending := true } ∧
    (waitingInitialize [.fail]).txlog = [] ++ [pendingEvent] := ⟨waitingHosts_wait 1, by decide⟩

/-- One plan for each local action. -/
theorem witness_LocalActionsHaveTheirEffect :
    ∀ a ∈ [Action.zeroBuf, .clearDirty [1], .setInit, .bufSet 7 1#8, .ret (.byte 1#8)],
      (∀ h ∈ waitingHosts, hostWaits 1 ({ running 0x20#8 a with host := h } : State).host) ∧
      (running 0x20#8 a).refused = none ∧
      (running 0x20#8 a).seq =
        .busy { op := 0x20#8, plan := [a], pc := 0, pending := false, nwr := 0, ret := .empty } ∧
      [a][0]? = some a := fun _ _ => ⟨waitingHosts_wait 1, rfl, rfl, rfl⟩

theorem witness_DoneAnswersOkAndGoesIdle :
    let b : Busy := { sendingBusy with pc := 1, nwr := 1 }
    (∀ h ∈ waitingHosts, hostWaits 1 ({ sending with seq := .busy b, host := h } : State).host) ∧
    ({ sending with seq := .busy b } : State).refused = none ∧ b.pending = false ∧ b.pc = b.plan.length :=
  ⟨waitingHosts_wait 1, by decide⟩

/-- Idle, with pauses to come; and waiting for a transport that does not answer. -/
theorem witness_AnUnansweredWriteWaitsForEver :
    (fresh.refused = none ∧ fresh.seq = .idle ∧
      ∀ e ∈ ({ fresh with host := [.pause, .pause] } : State).host, e = .pause) ∧
    (∀ h ∈ waitingHosts, hostWaits 5 ({ waiting [] with host := h } : State).host) ∧ (waiting []).refused = none ∧
    (waiting []).seq = .busy { sendingBusy with pending := true } ∧ (waiting []).answers = [] :=
  ⟨by decide, waitingHosts_wait 5, by decide⟩

theorem witness_NothingRunsAfterARefusal :
    ({ ready with refused := some .busy } : State).refused = some .busy := rfl

/-- A request refused for its operand, and a reset refused for its configuration. -/
theorem witness_ARefusalWritesOnlyTheMark :
    (after (step { fresh with host := [.present (.request 0x10000002#32 [])] })).map State.refused =
      some (some .pageRange) ∧
    (after (step { fresh with host := [.present (.reset { referenceInput with width := 0 })] })).map State.refused =
      some (some .badConfig) := by decide

/-- Idle; busy before a write; waiting for the transport. -/
theorem witness_ValidResetAppliesTheResetValues :
    fresh.refused = none ∧ referenceInput.valid = true ∧ fresh.seq = .idle ∧ sending.seq = .busy sendingBusy ∧
    sendingBusy.pending = false ∧ (waiting []).seq = .busy { sendingBusy with pending := true } ∧
    (waiting []).txlog = [] ++ [pendingEvent] := by
  refine ⟨rfl, rfl, rfl, rfl, rfl, rfl, rfl⟩

/-- The widest configuration is accepted; a column more is not. -/
theorem witness_ResetChecksTheConfiguration :
    fresh.refused = none ∧
    (resetInput { referenceInput with width := 256, height := 256, initSeq := some [] } fresh |> after).map State.refused =
      some none ∧
    (resetInput { referenceInput with width := 257, initSeq := some [] } fresh |> after).map State.refused =
      some (some .badConfig) ∧
    (resetInput { referenceInput with devAddr := some 0x80, initSeq := some [] } fresh |> after).map State.refused =
      some (some .badConfig) := by decide

theorem witness_ResetTakesDefaultsForOmittedParameters :
    referenceInput.devAddr = none ∧ referenceInput.initSeq = none ∧
    ({ referenceInput with devAddr := some 0x7F } : ResetInput).devAddr = some 0x7F ∧ 0x7F ≤ 0x7F := by decide

theorem witness_ValidConfigurationFitsTheRegisterWidths :
    small.valid = true ∧
    ({ small with width := 256, height := 256, pageBase := 0xE0#8 } : Cfg).valid = true := by decide

/-- A step of the host, of the sequencer and of the transport from states that meet the invariant. -/
theorem witness_EveryStepKeepsTheInvariant :
    (Invariant { ready with host := [.present (.request 0x20000000#32 [])], answers := [] } ∧
      ∃ t, step { ready with host := [.present (.request 0x20000000#32 [])], answers := [] } = .next t) ∧
    (Invariant { sending with host := [], answers := [] } ∧ ∃ t, step { sending with host := [], answers := [] } = .next t) ∧
    (Invariant { waiting [.fail] with host := [] } ∧ ∃ t, step { waiting [.fail] with host := [] } = .next t) :=
  ⟨⟨invariant_ready _ _, _, rfl⟩, ⟨invariant_sending _ _, _, rfl⟩, ⟨invariant_waiting _ _, _, rfl⟩⟩

theorem witness_NoStepFaultsUnderTheInvariant : Invariant { waiting [.ok] with host := [] } := invariant_waiting _ _

/-- A reset at once while busy, and one that waits for the idle sequencer, each latching its width; a step that leaves
`CFG` alone. -/
theorem witness_OnlyAResetWritesTheConfiguration :
    referenceInput.valid = true ∧ sending.refused = none ∧ fresh.refused = none ∧ fresh.seq = .idle ∧
    (∀ s ∈ [{ sending with host := [.present (.reset referenceInput)] },
            { fresh with host := [.call (.reset referenceInput)] }],
      (after (step s)).map (fun t => t.cfg.width) = some 128) ∧
    ∃ t, step sending = .next t ∧ t.cfg = sending.cfg := by
  refine ⟨rfl, rfl, rfl, rfl, ?_, _, rfl, rfl⟩
  decide

/-- SET_INIT; a reset; a failed write of INITIALIZE. -/
theorem witness_InitIsWrittenOnlyBySetInitFailureAndReset :
    (({ running 0x20#8 .setInit with init := false } : State).init = false ∧
      (after (step { running 0x20#8 .setInit with init := false })).map State.init = some true) ∧
    (ready.init = true ∧
      (after (step { ready with host := [.call (.reset referenceInput)] })).map State.init = some false) ∧
    ((waitingInitialize [.fail]).init = true ∧
      (after (step (waitingInitialize [.fail]))).map State.init = some false) := by decide

/-- `BUF`: BUF_WRITE; SET_PIXEL; ZERO_BUF; BUF_SET; a failed write of INITIALIZE; a reset. `DIRTY`: the first two into the
clean page 0, CLEAR_DIRTY, BUF_SET, a failed write of INITIALIZE, a reset. -/
theorem witness_BufAndDirtyChangeOnlyByTheirWriters :
    (∀ s ∈ [{ ready with host := [.present (.request 0x40000001#32 [])] },
            { ready with host := [.call (.request 0x42010203#32 [])] }, running 0x20#8 .zeroBuf,
            running 0x40#8 (.bufSet 7 1#8), waitingInitialize [.fail],
            { ready with host := [.present (.reset referenceInput)] }],
      (after (step s)).map (fun t => decide (t.buf ≠ s.buf)) = some true) ∧
    (∀ s ∈ [{ ready with host := [.present (.request 0x40000001#32 [])] },
            { ready with host := [.call (.request 0x42010203#32 [])] }, running 0x30#8 (.clearDirty [1]),
            running 0x40#8 (.bufSet 3 1#8), { waitingInitialize [.fail] with dirty := ready.dirty },
            { ready with host := [.present (.reset referenceInput)] }],
      (after (step s)).map (fun t => decide (t.dirty ≠ s.dirty)) = some true) := by decide

/-- A display of one page for a program's reset. -/
def tinyReset : ResetInput := { referenceInput with width := 1, height := 8, initSeq := some [] }

/-- `TXLOG`: a write issued, a write answered, a step that leaves the log alone. `RSPLOG`: an operation that ends, one that
fails, an immediate one, and one that a reset abandons. And a program of a reset and two requests whose run ends, from an
idle start; and one from a start that is busy with a write which the transport never answers. -/
theorem witness_TxLogAndRspLogOnlyGrow :
    (Invariant { sending with host := [], answers := [] } ∧
      (after (step sending)).map State.txlog = some (sending.txlog ++ [pendingEvent])) ∧
    (Invariant { waiting [.fail] with host := [] } ∧ (after (step (waiting [.fail]))).map State.txlog =
      some [{ pendingEvent with result := .fail }]) ∧
    (Invariant { waiting [] with host := [] } ∧ ∃ t, step (waiting []) = .next t) ∧
    (∀ s ∈ [{ sending with seq := .busy { sendingBusy with pc := 1, nwr := 1 } }, waiting [.fail],
            { ready with host := [.present (.request 0x50000000#32 [])] }],
      (after (step s)).map (fun t => (t.seq, t.rsplog.length)) = some (.idle, s.rsplog.length + 1)) ∧
    (after (step { waiting [] with host := [.present (.reset referenceInput)] })).map (fun t => (t.seq, t.rsplog)) =
      some (.idle, []) ∧
    (let start : State := { fresh with host :=
       [.pause, .call (.reset tinyReset), .call (.request 0x02000000#32 []), .call (.request 0x02000000#32 [])] }
     let p : Program := { reset := some tinyReset, requests := [(0x02000000#32, []), (0x02000000#32, [])] }
     p.StartsIn start ∧ ∃ t, run 6 start = .next t ∧ t.host = [] ∧ t.seq = .idle ∧ t.refused = none ∧
       t.rsplog.length = 2) ∧
    (let start : State := { waiting [] with host :=
       [.present (.reset tinyReset), .call (.request 0x02000000#32 [])] }
     let p : Program := { reset := some tinyReset, requests := [(0x02000000#32, [])] }
     p.StartsIn start ∧ ∃ t, run 3 start = .next t ∧ t.host = [] ∧ t.seq = .idle ∧ t.refused = none ∧
       t.rsplog.length = 1 ∧ t.txlog.map TxEvent.result = [.abandoned]) :=
  ⟨⟨invariant_sending _ _, rfl⟩, ⟨invariant_waiting _ _, rfl⟩, ⟨invariant_waiting _ _, _, rfl⟩, by decide, rfl,
   ⟨⟨rfl, .inl rfl⟩, _, rfl, rfl, rfl, rfl, rfl⟩, ⟨rfl, .inr ⟨_, _, rfl⟩⟩, _, rfl, rfl, rfl, rfl, rfl, rfl⟩

theorem witness_IssuedWritesStayWithinTheChunkLimit :
    Invariant { sending with host := [], answers := [] } ∧
    ∃ t, step { sending with host := [], answers := [] } = .next t ∧ t.txlog = sending.txlog ++ [pendingEvent] :=
  ⟨invariant_sending _ _, _, rfl, rfl⟩

theorem witness_ChunkingLaws : fresh.refused = none ∧ fresh.seq = .idle ∧ 1 ≤ fresh.cfg.dataSize := by decide

theorem witness_AddressingEncoderLaws :
    ({ small with height := 256, pageBase := 0xE0#8 } : Cfg).valid = true ∧
    31 < ({ small with height := 256, pageBase := 0xE0#8 } : Cfg).npages ∧
    pageByte { small with height := 256, pageBase := 0xE0#8 } 31 = 0xFF#8 := by decide

theorem witness_InitializeWriteCount : fresh.refused = none ∧ fresh.seq = .idle ∧ fresh.cfg.valid = true := by decide

/-- One page, and every page. -/
theorem witness_UpdateWriteCount :
    ready.refused = none ∧ ready.seq = .idle ∧ ready.cfg.valid = true ∧ ready.init = true ∧
    bufDefined ready.cfg ready.buf ∧ (1#8).toNat ≤ (1#8).toNat ∧ (0#8).toNat ≤ (1#8).toNat ∧
    (1#8).toNat < ready.cfg.height / 8 :=
  ⟨rfl, rfl, rfl, rfl, ((invariant_ready [] []).initDefined rfl).1, by decide, by decide, by decide⟩

/-- The same pixel, and two pixels of one byte. -/
theorem witness_SetPixelChangesOnePixel :
    ready.refused = none ∧ ready.seq = .idle ∧ ready.init = true ∧ ready.cfg.valid = true ∧
    bufDefined ready.cfg ready.buf ∧ (3#8).toNat < ready.cfg.width ∧ (15#8).toNat < ready.cfg.height ∧
    (14#8).toNat < ready.cfg.height :=
  ⟨rfl, rfl, rfl, rfl, ((invariant_ready [] []).initDefined rfl).1, by decide, by decide, by decide⟩

theorem witness_AnAnsweredPlanRunsToDone :
    (∀ h ∈ waitingHosts, hostWaits (planSteps sendingBusy.plan) ({ sending with host := h } : State).host) ∧
    ({ sending with answers := [.ok, .fail] } : State).refused = none ∧
    sending.seq =
      .busy { op := 0x01#8, plan := sendingBusy.plan, pc := 0, pending := false, nwr := 0, ret := .empty } ∧
    ({ sending with answers := [.ok, .fail] } : State).answers =
      List.replicate (writeCount sendingBusy.plan) .ok ++ [.fail] := ⟨waitingHosts_wait _, by decide⟩

/-- The first write of SEND_COMMAND, and the second action of INITIALIZE behind ZERO_BUF. -/
theorem witness_AFailedWriteEndsThePlan :
    (∀ h ∈ waitingHosts, ∀ n, hostWaits n ({ sending with host := h } : State).host) ∧
    ({ sending with answers := [.fail] } : State).refused = none ∧ sendingBusy.op ≠ 0x20#8 ∧
    sending.seq =
      .busy { op := 0x01#8, plan := [] ++ .wr 0x00#8 [0xAF#8] cmdTag :: [], pc := 0, pending := false, nwr := 0,
              ret := .empty } ∧
    ({ sending with answers := [.fail] } : State).answers = List.replicate (writeCount []) .ok ++ .fail :: [] ∧
    (let b : Busy := { sendingBusy with op := 0x20#8, plan := [.zeroBuf] ++ .wr 0x00#8 [0xAF#8] cmdTag :: [.setInit] }
     (after (run 3 { sending with seq := .busy b, answers := [.fail] })).map (fun t => (t.seq, t.init, t.buf)) =
       some (.idle, false, [])) :=
  ⟨fun h hh n => waitingHosts_wait n h hh, by decide⟩

/-- A display that is already initialized, with dirty pages; a host that presents or calls, with or without more to come. -/
theorem witness_InitializeRunsToAClearedDisplay :
    ∀ later ∈ waitingHosts, ∀ first ∈ [HostEvent.present (.request 0x20000000#32 []), .call (.request 0x20000000#32 [])],
      ∃ s : State, Invariant s ∧ s.refused = none ∧ s.seq = .idle ∧ s.host = first :: later ∧
        hostWaits (planSteps (initPlan s.cfg)) later ∧
        s.answers = List.replicate (writeCount (initPlan s.cfg)) .ok ++ [] :=
  fun later hl first _ =>
    ⟨{ ready with host := first :: later, answers := List.replicate (writeCount (initPlan small)) .ok ++ [] },
     invariant_ready _ _, rfl, rfl, rfl, waitingHosts_wait _ later hl, rfl⟩

/-- Every page, `NPAGES - 1` the last. -/
theorem witness_UpdateDeliversThePagesOfTheBuffer :
    ∀ h ∈ waitingHosts, ∃ s : State, Invariant s ∧ s.refused = none ∧ s.seq = .idle ∧ s.init = true ∧
      (0#8).toNat ≤ (1#8).toNat ∧ (1#8).toNat < s.cfg.npages ∧ s.host = h ∧ (∀ n, hostWaits n s.host) ∧
      s.answers = List.replicate (((1#8).toNat - (0#8).toNat + 1) *
        (positionWrites s.cfg + (s.cfg.width + s.cfg.dataSize - 1) / s.cfg.dataSize)) .ok ++ [] :=
  fun h hh => ⟨{ ready with host := h, answers := List.replicate 10 .ok },
    invariant_ready _ _, rfl, rfl, rfl, by decide, (by decide : (1#8).toNat < small.npages), rfl,
    fun n => waitingHosts_wait n h hh,
    (by decide : List.replicate 10 Answer.ok = List.replicate (((1#8).toNat - (0#8).toNat + 1) *
      (positionWrites small + (small.width + small.dataSize - 1) / small.dataSize)) .ok ++ [])⟩

/-- The first write of the first page, and the last write of the last. -/
theorem witness_AFailedUpdateClearsNothing :
    ∀ h ∈ waitingHosts, ∀ k ∈ [0, 9], ∃ s : State, Invariant s ∧ s.refused = none ∧ s.seq = .idle ∧ s.init = true ∧
      (0#8).toNat ≤ (1#8).toNat ∧ (1#8).toNat < s.cfg.npages ∧ s.host = h ∧ hostWaits (2 * k + 2) s.host ∧
      k < ((1#8).toNat - (0#8).toNat + 1) *
        (positionWrites s.cfg + (s.cfg.width + s.cfg.dataSize - 1) / s.cfg.dataSize) ∧
      s.answers = List.replicate k .ok ++ .fail :: [] := by
  intro h hh k hk
  refine ⟨{ ready with host := h, answers := List.replicate k .ok ++ .fail :: [] },
    invariant_ready _ _, rfl, rfl, rfl, by decide, (by decide : (1#8).toNat < small.npages), rfl,
    waitingHosts_wait _ h hh, ?_, rfl⟩
  show k < ((1#8).toNat - (0#8).toNat + 1) *
    (positionWrites small + (small.width + small.dataSize - 1) / small.dataSize)
  revert k
  decide

/-- The hypotheses are those of AFailedUpdateClearsNothing; here the update whose first write failed, and its retry. -/
theorem witness_AFailedUpdateCanBeRetried :
    (∀ h ∈ waitingHosts, ∀ k ∈ [0, 9], ∃ s : State, Invariant s ∧ s.refused = none ∧ s.seq = .idle ∧ s.init = true ∧
      (0#8).toNat ≤ (1#8).toNat ∧ (1#8).toNat < s.cfg.npages ∧ s.host = h ∧ hostWaits (2 * k + 2) s.host ∧
      k < ((1#8).toNat - (0#8).toNat + 1) *
        (positionWrites s.cfg + (s.cfg.width + s.cfg.dataSize - 1) / s.cfg.dataSize) ∧
      s.answers = List.replicate k .ok ++ .fail :: []) ∧
    ∃ s' t u, exec (.update 0#8 1#8) { ready with answers := [.fail] } = .next s' ∧ run 2 s' = .next t ∧
      t.rsplog.map Response.status = [.transportFail] ∧ exec (.update 0#8 1#8) t = .next u ∧ u.seq = s'.seq :=
  ⟨witness_AFailedUpdateClearsNothing, _, _, _, rfl, rfl, rfl, rfl, rfl⟩

theorem witness_AnEmptyUpdateWritesNothing :
    (∀ h ∈ waitingHosts, hostWaits 2 ({ ready with host := h } : State).host) ∧
    ready.refused = none ∧ ready.seq = .idle ∧ ready.init = true ∧ (0#8).toNat < (1#8).toNat ∧
    (1#8).toNat < ready.cfg.npages ∧ ready.dirty.length = ready.cfg.npages := ⟨waitingHosts_wait 2, by decide⟩

/-- The last value of each field and the first beyond it; a list with a byte of 256 and one of 65536 bytes; a line that
stands for a request, one for a reset, and one that is refused. -/
theorem witness_AssemblerChecksFieldsAndExpandsShortForms :
    (255 ≤ 255 ∧ assemble 8 (.setColumn 255) = .ok (.request 0x110000FF#32 [])) ∧
    (255 < 256 ∧ assemble 8 (.setColumn 256) = .error .fieldRange) ∧
    (0xFFFF ≤ 0xFFFF ∧ assemble 8 (.bufRead 0xFFFF) = .ok (.request 0x41FFFF00#32 [])) ∧
    (0xFFFF < 0x10000 ∧ assemble 8 (.bufRead 0x10000) = .error .fieldRange) ∧
    (1 ≤ 1 ∧ assemble 8 (.setPixel 3 10 1) = .ok (.request 0x42010A03#32 [])) ∧
    (1 < 2 ∧ assemble 8 (.setPixel 3 10 2) = .error .fieldRange) ∧
    (([129, 64] : List Nat).length ≤ 65535 ∧ ∀ x ∈ [129, 64], x ≤ 255) ∧
    assemble 8 (.sendCommand [129, 64]) = .ok (.request 0x01000002#32 [0x81#8, 0x40#8]) ∧
    (255 < 256 ∧ assemble 8 (.sendData [256]) = .error .fieldRange) ∧
    65535 < (List.replicate 65536 0).length ∧ fresh.refused = none ∧
    assemble fresh.cfg.npages (.setPage 1) = .ok (.request 0x10000001#32 []) ∧
    assemble fresh.cfg.npages (.reset referenceInput) = .ok (.reset referenceInput) ∧
    assemble fresh.cfg.npages (.setPage 256) = .error .fieldRange := by
  refine ⟨by decide, by decide, by decide, by decide, by decide, by decide, by decide, by decide, by decide, ?_, rfl,
    rfl, rfl, rfl⟩
  rw [List.length_replicate]
  decide

end Tests
end

section
/-! PROOFS. The configuration a reset input stands for, parameter by parameter (spec/00_scope.md R6,
spec/70_reset_and_hazards.md R280). -/

namespace Sys2Proof

/-! One lemma per parameter of the configuration: the given value, or its default. -/

section
variable (r : ResetInput)

@[simp] theorem ResetInput.toCfg_width : r.toCfg.width = r.width := rfl
@[simp] theorem ResetInput.toCfg_height : r.toCfg.height = r.height := rfl
@[simp] theorem ResetInput.toCfg_dataSize : r.toCfg.dataSize = r.dataSize := rfl
@[simp] theorem ResetInput.toCfg_devAddr : r.toCfg.devAddr = BitVec.ofNat 7 (r.devAddr.getD 0x3C) := rfl
@[simp] theorem ResetInput.toCfg_regCmd : r.toCfg.regCmd = r.regCmd.getD 0x00#8 := rfl
@[simp] theorem ResetInput.toCfg_regData : r.toCfg.regData = r.regData.getD 0x40#8 := rfl
@[simp] theorem ResetInput.toCfg_pageBase : r.toCfg.pageBase = r.pageBase.getD 0xB0#8 := rfl
@[simp] theorem ResetInput.toCfg_colFraming : r.toCfg.colFraming = r.colFraming.getD .split := rfl
@[simp] theorem ResetInput.toCfg_dirtyPolicy : r.toCfg.dirtyPolicy = r.dirtyPolicy.getD .global := rfl

/-- The default sequence is built from the page base the same reset latches (R201, E12). -/
@[simp] theorem ResetInput.toCfg_initSeq :
    r.toCfg.initSeq = r.initSeq.getD (defaultInitSeq defaultBytes r.toCfg.pageBase) := rfl

end

/-- An omitted parameter stands for its default. -/
theorem getD_of_omitted {α : Type} {o : Option α} (d : α) (h : o = none) : o.getD d = d := by
  rw [h, Option.getD_none]

/-- A given parameter stands for itself, whatever its default. -/
theorem getD_of_given {α : Type} {o : Option α} (d v : α) (h : o = some v) : o.getD d = v := by
  rw [h, Option.getD_some]

/-- An address in the range R281 asks for is latched unchanged: it fits the 7 bits of `DEV_ADDR`. -/
theorem ResetInput.toCfg_devAddr_toNat_of_given {r : ResetInput} {a : Nat} (h : r.devAddr = some a)
    (ha : a ≤ 0x7F) : r.toCfg.devAddr.toNat = a := by
  rw [r.toCfg_devAddr, getD_of_given _ a h, BitVec.toNat_ofNat]
  exact Nat.mod_eq_of_lt (by omega)

/-- Settles O36: parameter by parameter, a reset input's configuration takes the given value or its default. -/
theorem resetTakesDefaultsForOmittedParameters : Obligations.ResetTakesDefaultsForOmittedParameters := by
  intro r
  have devAddr_default (h : r.devAddr = none) : r.toCfg.devAddr = 0x3C#7 := by
    rw [r.toCfg_devAddr, getD_of_omitted _ h]
  have initSeq_default (h : r.initSeq = none) : ∃ b, r.toCfg.initSeq = defaultInitSeq b r.toCfg.pageBase :=
    ⟨defaultBytes, getD_of_omitted _ h⟩
  exact ⟨⟨r.toCfg_width, r.toCfg_height, r.toCfg_dataSize⟩,
    devAddr_default, fun _ => ResetInput.toCfg_devAddr_toNat_of_given,
    getD_of_omitted _, getD_of_given _,
    getD_of_omitted _, getD_of_given _,
    getD_of_omitted _, getD_of_given _,
    getD_of_omitted _, getD_of_given _,
    getD_of_omitted _, getD_of_given _,
    initSeq_default, getD_of_given _⟩

end Sys2Proof
end

section
/-! PROOFS. What a step of the whole machine can do, in one place: one case per event of spec/00_scope.md R8. The rules
of the state's fields (spec/10_state.md) are read off these cases. -/

namespace Sys2Proof.Machine

/-- The host drives act `a` in the next step (R150): its next event is a `present`, or a `call` at an idle sequencer;
`rest` is what it still has to do. -/
def State.hostDrives (s : State) (a : HostAct) (rest : List HostEvent) : Prop :=
  s.host = .present a :: rest ∨ (s.host = .call a :: rest ∧ s.seq = .idle)

/-- A due host event is the step (R150). -/
theorem step_hostDrives {s : State} {a : HostAct} {rest : List HostEvent} (hr : s.refused = none)
    (hd : s.hostDrives a rest) : step s = hostAct a (s.setHost rest) := by
  rcases hd with hh | ⟨hh, hs⟩
  · simp [step, advance, State.isRefused, hr, hh]
  · simp [step, advance, State.isRefused, State.isBusy, hr, hh, hs]

/-- The busy sequencer of an operation just accepted (R141). -/
def Busy.start (op : Op) (plan : List Action) : Busy :=
  { op := op.code, plan := plan, pc := 0, pending := false, nwr := 0, ret := .empty }

/-- Acceptance starts the plan and writes nothing else (R141). -/
theorem acceptPlan_eq (op : Op) (plan : List Action) (s : State) :
    acceptPlan op plan s = .next (s.setSeq (.busy (Busy.start op plan))) := rfl

/-- The effect of one step from `s` (R141 to R148, R282, R283). Where the block or the transport steps, `h` is what the
host has left: its events, or those behind a pause. -/
inductive StepEffect (s : State) : State → Prop where
  | waits (h : List HostEvent) (hacts : hostActs h = hostActs s.host) : StepEffect s (s.setHost h)
  | issues (h : List HostEvent) (hacts : hostActs h = hostActs s.host) (b : Busy) (hs : s.seq = .busy b)
      (hp : b.pending = false) (reg : Byte) (payload : List Byte) (tag : Tag)
      (ha : b.action = some (.wr reg payload tag)) : StepEffect s (issue reg payload tag b (s.setHost h))
  | takesLocal (h : List HostEvent) (hacts : hostActs h = hostActs s.host) (b : Busy) (hs : s.seq = .busy b)
      (hp : b.pending = false) (a : Action) (ha : b.action = some a) (hw : a.isWrite = false) :
      StepEffect s (localStep a b (s.setHost h))
  | ends (h : List HostEvent) (hacts : hostActs h = hostActs s.host) (b : Busy) (hs : s.seq = .busy b)
      (hp : b.pending = false) : StepEffect s (done b (s.setHost h))
  | answeredOk (h : List HostEvent) (hacts : hostActs h = hostActs s.host) (b : Busy) (hs : s.seq = .busy b)
      (hp : b.pending = true) (rest : List Answer) (hn : s.answers = .ok :: rest) :
      StepEffect s (txOk b ((s.setHost h).setAnswers rest))
  | answeredFail (h : List HostEvent) (hacts : hostActs h = hostActs s.host) (b : Busy) (hs : s.seq = .busy b)
      (hp : b.pending = true) (tag : Tag) (rest : List Answer) (hn : s.answers = .fail :: rest) :
      StepEffect s (txFail tag b ((s.setHost h).setAnswers rest))
  | refuses (a : HostAct) (rest : List HostEvent) (hd : s.hostDrives a rest) (r : Reason) :
      StepEffect s ((s.setHost rest).setRefused (some r))
  | resets (r : ResetInput) (rest : List HostEvent) (hd : s.hostDrives (.reset r) rest) (hv : r.valid = true) :
      StepEffect s (resetTo r.toCfg (s.setHost rest))
  | accepts (w : ReqWord) (p : List Byte) (rest : List HostEvent) (hd : s.hostDrives (.request w p) rest)
      (hs : s.seq = .idle) (op : Op) (plan : List Action) (hplan : AcceptedPlan (s.setHost rest) op plan) :
      StepEffect s ((s.setHost rest).setSeq (.busy (Busy.start op plan)))
  | completes (w : ReqWord) (p : List Byte) (rest : List HostEvent) (hd : s.hostDrives (.request w p) rest)
      (hs : s.seq = .idle) (i : Instr) (hi : decodeRequest w p = .ok i) (op : Op) (a : Action)
      (ha : ImmediateAction (s.setHost rest) i op a) :
      StepEffect s (respondOk op.code (localValue a .empty) (localEffect a (s.setHost rest)))

/-- A step of the block or the transport is one of the first six effects. -/
theorem stepEffect_of_blockStep {s t : State} {h : List HostEvent} (hacts : hostActs h = hostActs s.host)
    (hb : blockStep (s.setHost h) = .next t) : StepEffect s t := by
  rcases blockStep_cases hb with rfl | ⟨b, hs, hissue | hlocal | hdone | hok | hfail⟩
  · exact .waits h hacts
  · obtain ⟨hp, reg, payload, tag, ha, rfl⟩ := hissue
    exact .issues h hacts b hs hp reg payload tag ha
  · obtain ⟨hp, a, ha, hw, rfl⟩ := hlocal
    exact .takesLocal h hacts b hs hp a ha hw
  · obtain ⟨hp, -, -, rfl⟩ := hdone
    exact .ends h hacts b hs hp
  · obtain ⟨hp, -, -, -, rest, -, -, hn, rfl⟩ := hok
    exact .answeredOk h hacts b hs hp rest hn
  · obtain ⟨hp, -, -, tag, rest, -, -, hn, rfl⟩ := hfail
    exact .answeredFail h hacts b hs hp tag rest hn

/-- A host action is one of the last four effects. -/
theorem stepEffect_of_hostAct {s t : State} {a : HostAct} {rest : List HostEvent} (hd : s.hostDrives a rest)
    (ht : hostAct a (s.setHost rest) = .next t) : StepEffect s t := by
  cases a with
  | request w p =>
    obtain ⟨-, ⟨r, rfl⟩ | ⟨i, hi, ⟨hs, op, plan, hplan, rfl⟩ | ⟨hs, -, op, a, ha, rfl⟩⟩⟩ := accept_cases ht
    · exact .refuses _ rest hd r
    · exact .accepts w p rest hd hs op plan hplan
    · exact .completes w p rest hd hs i hi op a ha
  | reset r =>
    obtain ⟨-, ⟨hv, rfl⟩ | ⟨-, rfl⟩⟩ := resetInput_cases ht
    · exact .resets r rest hd hv
    · exact .refuses _ rest hd _

/-- Every step that answers a next state has one of the effects. -/
theorem step_effect {s t : State} (h : step s = .next t) : StepEffect s t := by
  obtain ⟨-, ⟨-, hb⟩ | ⟨rest, hh, hb⟩ | ⟨-, -, -, -, -, hb⟩ | ⟨a, rest, hd, ha⟩⟩ := step_cases h
  · exact stepEffect_of_blockStep (h := s.host) rfl hb
  · exact stepEffect_of_blockStep (h := rest) (by rw [hh]; rfl) hb
  · exact stepEffect_of_blockStep (h := s.host) rfl hb
  · exact stepEffect_of_hostAct hd ha

/-- The acts still to come before the host drives one: that one, then the rest. -/
theorem State.hostDrives.acts {s : State} {a : HostAct} {rest : List HostEvent} (hd : s.hostDrives a rest) :
    hostActs s.host = a :: hostActs rest := by
  rcases hd with hh | ⟨hh, -⟩ <;> rw [hh] <;> rfl

/-- A driven act stands first in the host's list, under either schedule. -/
theorem State.hostDrives.host {s : State} {a : HostAct} {rest : List HostEvent} (hd : s.hostDrives a rest) :
    s.host = .present a :: rest ∨ s.host = .call a :: rest := hd.imp_right And.left

/-- An act driven while the sequencer is busy is a `present`. -/
theorem State.hostDrives.present_of_busy {s : State} {a : HostAct} {rest : List HostEvent} {b : Busy}
    (hd : s.hostDrives a rest) (hs : s.seq = .busy b) : s.host = .present a :: rest := by
  rcases hd with hh | ⟨-, hidle⟩
  · exact hh
  · cases hs.symm.trans hidle

/-! ### The frame of the effects that are more than one update -/

/-- The abort effect leaves the configuration, the logs and the host alone. -/
theorem abortEffect_frame (op : Byte) (s : State) :
    (abortEffect op s).cfg = s.cfg ∧ (abortEffect op s).txlog = s.txlog ∧ (abortEffect op s).rsplog = s.rsplog ∧
    (abortEffect op s).host = s.host := by
  unfold abortEffect
  split <;> exact ⟨rfl, rfl, rfl, rfl⟩

/-- A failed write settles its event, responds, and goes idle; `CFG` and the host stay. -/
theorem txFail_frame (tag : Tag) (b : Busy) (s : State) :
    (txFail tag b s).cfg = s.cfg ∧ (txFail tag b s).seq = .idle ∧
    (txFail tag b s).txlog = setLastResult .fail s.txlog ∧
    (txFail tag b s).rsplog = s.rsplog ++
      [{ op := b.op, status := .transportFail, value := .empty,
         fail := some { op := b.op, wrIndex := b.nwr, tag := tag } }] ∧
    (txFail tag b s).host = s.host := by
  obtain ⟨hcfg, htx, hrsp, hhost⟩ := abortEffect_frame b.op ((s.setTxlog (setLastResult .fail s.txlog)).setRsplog
    (s.rsplog ++ [{ op := b.op, status := .transportFail, value := .empty,
                    fail := some { op := b.op, wrIndex := b.nwr, tag := tag } }]))
  exact ⟨hcfg, rfl, htx, hrsp, hhost⟩

/-- The abort effect clears `INIT` where the operation is INITIALIZE, and there only (R205). -/
theorem abortEffect_init (op : Byte) (s : State) :
    (abortEffect op s).init = if op = 0x20#8 then false else s.init := by
  unfold abortEffect
  rw [apply_ite State.init]
  rfl

/-- So does a failed write. -/
theorem txFail_init (tag : Tag) (b : Busy) (s : State) :
    (txFail tag b s).init = if b.op = 0x20#8 then false else s.init := abortEffect_init b.op _

/-- Only SET_INIT writes `INIT` (R142). -/
theorem localEffect_init {a : Action} (h : a ≠ .setInit) (s : State) : (localEffect a s).init = s.init := by
  cases a
  case setInit => exact absurd rfl h
  all_goals rfl

/-- No immediate operation sets `INIT`. -/
theorem ImmediateAction.ne_setInit {s : State} {i : Instr} {op : Op} {a : Action} (h : ImmediateAction s i op a) :
    a ≠ .setInit := by
  rintro rfl
  cases h

end Sys2Proof.Machine
end

section
/-! PROOFS. The invariant (spec/10_state.md R36, R44; spec/20_memory.md R84): every operation that a step is made of keeps
it, and so does every step. -/

namespace Sys2Proof.Machine

/-! ### The invariant of an idle and of a busy state -/

/-- The two memories are in order whatever the sequencer, the logs and the agents are. -/
theorem MemoryOk.of_fields_eq {s t : State} (hm : MemoryOk s) (hcfg : t.cfg = s.cfg) (hbuf : t.buf = s.buf)
    (hdirty : t.dirty = s.dirty) (hinit : t.init = s.init) : MemoryOk t := by
  constructor <;> simp only [hcfg, hbuf, hdirty, hinit]
  exacts [hm.cfgValid, hm.bufWf, hm.bufInRange, hm.dirtyLength, hm.initDefined]

/-- Memories that hold no value are in order while `INIT = 0` (R44). -/
theorem memoryOk_of_unspecified {t : State} (hcfg : t.cfg.valid = true) (hbuf : t.buf = [])
    (hdirty : t.dirty = List.replicate t.cfg.npages none) (hinit : t.init = false) : MemoryOk t := by
  constructor <;> simp [hcfg, hbuf, hdirty, hinit, Memory.wf]

/-- An idle state with memories in order and no write outstanding meets the invariant. -/
theorem MemoryOk.invariant_of_idle {t : State} (hm : MemoryOk t) (hs : t.seq = .idle)
    (hn : ∀ x ∈ t.txlog, x.result ≠ .pending) : Invariant t :=
  ⟨hm.cfgValid, hm.bufWf, hm.bufInRange, hm.dirtyLength, hm.initDefined,
    fun _ hb => (nomatch hs.symm.trans hb), onePending_of_none hn⟩

/-- A busy state in order that waits for no answer, with no write outstanding, meets the invariant. -/
theorem MemoryOk.invariant_of_busy {t : State} {b : Busy} (hm : MemoryOk t) (hs : t.seq = .busy b) (hb : BusyOk t b)
    (hn : ∀ x ∈ t.txlog, x.result ≠ .pending) : Invariant t := by
  refine ⟨hm.cfgValid, hm.bufWf, hm.bufInRange, hm.dirtyLength, hm.initDefined, ?_, onePending_of_none hn⟩
  intro b' hb'
  cases hs.symm.trans hb'
  exact hb

/-- The invariant speaks of `CFG`, the memories, `INIT`, `SEQ` and `TXLOG` only. -/
theorem Invariant.of_fields_eq {s t : State} (hi : Invariant s) (hcfg : t.cfg = s.cfg) (hbuf : t.buf = s.buf)
    (hdirty : t.dirty = s.dirty) (hinit : t.init = s.init) (hseq : t.seq = s.seq) (htx : t.txlog = s.txlog) :
    Invariant t := by
  obtain ⟨cfg, buf, dirty, init, seq, txlog⟩ := t
  cases hcfg; cases hbuf; cases hdirty; cases hinit; cases hseq; cases htx
  refine ⟨hi.cfgValid, hi.bufWf, hi.bufInRange, hi.dirtyLength, hi.initDefined, fun b hs => ?_, hi.onePending⟩
  obtain ⟨hpc, hnwr, hact, hg, hlog, hpend⟩ := hi.busyOk b hs
  exact ⟨hpc, hnwr, hact, hg, hlog, hpend⟩

/-- So the host's events may be any. -/
theorem Invariant.setHost {s : State} (hi : Invariant s) (h : List HostEvent) : Invariant (s.setHost h) :=
  hi.of_fields_eq rfl rfl rfl rfl rfl rfl

/-- So the transport's answers may be any. -/
theorem Invariant.setAnswers {s : State} (hi : Invariant s) (a : List Answer) : Invariant (s.setAnswers a) :=
  hi.of_fields_eq rfl rfl rfl rfl rfl rfl

/-- A refusal keeps the invariant: it writes the mark only (R253). -/
theorem Invariant.setRefused {s : State} (hi : Invariant s) (r : Option Reason) : Invariant (s.setRefused r) :=
  hi.of_fields_eq rfl rfl rfl rfl rfl rfl

/-! ### The log -/

/-- While the sequencer waits for no answer, no write is outstanding. -/
theorem Invariant.noPending_of_busy {s : State} {b : Busy} (hi : Invariant s) (hs : s.seq = .busy b)
    (hp : b.pending = false) : ∀ x ∈ s.txlog, x.result ≠ .pending := by
  apply hi.noPending
  intro b' hb'
  cases hs.symm.trans hb'
  exact hp

/-- While the sequencer is idle, no write is outstanding. -/
theorem Invariant.noPending_of_idle {s : State} (hi : Invariant s) (hs : s.seq = .idle) :
    ∀ x ∈ s.txlog, x.result ≠ .pending :=
  hi.noPending fun _ hb => nomatch hs.symm.trans hb

/-- Settling the pending write leaves no write outstanding. -/
theorem Invariant.settled_noPending {s : State} {b : Busy} (hi : Invariant s) (hs : s.seq = .busy b)
    (hp : b.pending = true) {r : TxResult} (hr : r ≠ .pending) :
    ∀ x ∈ setLastResult r s.txlog, x.result ≠ .pending := by
  obtain ⟨reg, payload, tag, before, -, hlog, hbefore, -⟩ := hi.pendingLast hs hp
  rw [hlog, setLastResult_append]
  intro x hx
  rcases List.mem_append.mp hx with h | h
  · exact hbefore x h
  · rw [List.mem_singleton.mp h]
    exact hr

/-- Behind events that are all settled, a pending event is the last of the log. -/
theorem pending_last_of_append {log l r : List TxEvent} {e new : TxEvent} (hn : ∀ x ∈ log, x.result ≠ .pending)
    (hl : log ++ [new] = l ++ e :: r) (he : e.result = .pending) : r = [] := by
  rcases List.eq_nil_or_concat' r with rfl | ⟨r', x, rfl⟩
  · rfl
  · have hold : log = l ++ e :: r' :=
      (List.append_inj' (hl.trans (List.append_assoc l (e :: r') [x]).symm) rfl).1
    exact absurd he (hn e (by simp [hold]))

/-- A local action logs no write. -/
theorem planEvents_of_local {a : Action} (hw : a.isWrite = false) (addr : DevAddr) (r : TxResult) :
    planEvents addr r [a] = [] := by
  cases a
  case wr => cases hw
  all_goals rfl

/-- The action at the program counter lies inside the plan. -/
theorem Busy.pc_lt_of_action {b : Busy} {a : Action} (ha : b.action = some a) : b.pc < b.plan.length :=
  (List.getElem?_eq_some_iff.mp ha).1

theorem Busy.take_succ {b : Busy} {a : Action} (ha : b.action = some a) :
    b.plan.take (b.pc + 1) = b.plan.take b.pc ++ [a] := take_succ_of_get ha

theorem Busy.drop_pc {b : Busy} {a : Action} (ha : b.action = some a) :
    b.plan.drop b.pc = a :: b.plan.drop (b.pc + 1) := drop_of_get ha

theorem Busy.mem_plan_of_action {b : Busy} {a : Action} (ha : b.action = some a) : a ∈ b.plan :=
  List.mem_of_getElem? ha

/-! ### The steps of a running plan -/

/-- ISSUE keeps the invariant: the new pending event is the only one, and the last. -/
theorem issue_invariant {s : State} {b : Busy} {reg : Byte} {payload : List Byte} {tag : Tag} (hi : Invariant s)
    (hs : s.seq = .busy b) (hp : b.pending = false) (ha : b.action = some (.wr reg payload tag)) :
    Invariant (issue reg payload tag b s) := by
  obtain ⟨hpc, hnwr, hact, hg, ⟨before, hlog⟩, -⟩ := hi.busyOk b hs
  have hn := hi.noPending_of_busy hs hp
  refine ⟨hi.cfgValid, hi.bufWf, hi.bufInRange, hi.dirtyLength, hi.initDefined, ?_, ?_⟩
  · rintro b' ⟨⟩
    refine ⟨hpc, hnwr, hact, hg, ⟨before, ?_⟩, fun _ => ⟨reg, payload, tag, ha⟩⟩
    show s.txlog ++ _ = before ++ planEvents s.cfg.devAddr .ok (b.plan.take b.pc) ++
      planEvents s.cfg.devAddr .pending b.action.toList
    rw [hlog, hp, ha]
    simp [planEvents]
  · intro l e r hl he
    exact ⟨pending_last_of_append hn hl he, _, rfl, rfl⟩

/-- LOCAL keeps the invariant: its effect keeps the memories, and the plan's order rule of `INIT` moves on. -/
theorem localStep_invariant {s : State} {b : Busy} {a : Action} (hi : Invariant s) (hs : s.seq = .busy b)
    (hp : b.pending = false) (ha : b.action = some a) (hw : a.isWrite = false) : Invariant (localStep a b s) := by
  obtain ⟨-, hnwr, hact, hg, ⟨before, hlog⟩, -⟩ := hi.busyOk b hs
  obtain ⟨hcfg, -, htx, -, -, -, -⟩ := localEffect_frame a s
  rw [Busy.drop_pc ha] at hg
  have hdefined : a = .setInit → bufDefined s.cfg s.buf ∧ dirtyDefined s.dirty := by
    rintro rfl
    exact ⟨hg.1, hg.2.1⟩
  have hm := localEffect_memoryOk hi.memoryOk (hact a (Busy.mem_plan_of_action ha)) hw hdefined
  have hm' : MemoryOk (localStep a b s) := hm.of_fields_eq rfl rfl rfl rfl
  refine hm'.invariant_of_busy rfl ?_ ?_
  · refine ⟨Busy.pc_lt_of_action ha, ?_, ?_, ?_, ⟨before, ?_⟩, fun h => by rw [hp] at h; cases h⟩
    · show b.nwr = writeCount (b.plan.take (b.pc + 1))
      rw [Busy.take_succ ha, writeCount_append, hnwr]
      simp [writeCount, hw]
    · show ∀ x ∈ b.plan, actionOk (localEffect a s).cfg x
      rwa [hcfg]
    · show initGuarded (localEffect a s).cfg.npages (bufDefined (localEffect a s).cfg _) _ _
      rw [hcfg]
      exact localEffect_guarded hi.dirtyLength hw hg
    · show (localEffect a s).txlog = before ++ planEvents (localEffect a s).cfg.devAddr .ok (b.plan.take (b.pc + 1)) ++
        if b.pending then _ else []
      rw [htx, hcfg, hlog, hp, Busy.take_succ ha, planEvents_append, planEvents_of_local hw]
      simp
  · show ∀ x ∈ (localEffect a s).txlog, x.result ≠ .pending
    rw [htx]
    exact hi.noPending_of_busy hs hp

/-- DONE keeps the invariant. -/
theorem done_invariant {s : State} {b : Busy} (hi : Invariant s) (hs : s.seq = .busy b) (hp : b.pending = false) :
    Invariant (done b s) :=
  have hm : MemoryOk (done b s) := hi.memoryOk.of_fields_eq rfl rfl rfl rfl
  hm.invariant_of_idle rfl (hi.noPending_of_busy hs hp)

/-- TX_OK keeps the invariant: the pending event becomes the answered event of the write just passed. -/
theorem txOk_invariant {s : State} {b : Busy} (hi : Invariant s) (hs : s.seq = .busy b) (hp : b.pending = true) :
    Invariant (txOk b s) := by
  obtain ⟨-, hnwr, hact, hg, -, -⟩ := hi.busyOk b hs
  obtain ⟨reg, payload, tag, before, ha, hlog, -, earlier, hbefore⟩ := hi.pendingLast hs hp
  have hm : MemoryOk (txOk b s) := hi.memoryOk.of_fields_eq rfl rfl rfl rfl
  refine hm.invariant_of_busy rfl ?_ (hi.settled_noPending hs hp (by decide))
  rw [Busy.drop_pc ha] at hg
  refine ⟨Busy.pc_lt_of_action ha, ?_, hact, hg, ⟨earlier, ?_⟩, nofun⟩
  · show b.nwr + 1 = writeCount (b.plan.take (b.pc + 1))
    rw [Busy.take_succ ha, writeCount_append, hnwr]
    rfl
  · show setLastResult .ok s.txlog = earlier ++ planEvents s.cfg.devAddr .ok (b.plan.take (b.pc + 1)) ++ []
    rw [hlog, setLastResult_append, hbefore, Busy.take_succ ha, planEvents_append]
    simp [planEvents]

/-- A failed write keeps the memories in order, whether or not its abort effect empties them (R44, R205). -/
theorem txFail_memoryOk {s : State} (hm : MemoryOk s) (tag : Tag) (b : Busy) : MemoryOk (txFail tag b s) := by
  unfold txFail raiseTransportFailure abortEffect
  split
  · exact memoryOk_of_unspecified hm.cfgValid rfl rfl rfl
  · exact hm.of_fields_eq rfl rfl rfl rfl

/-- TX_FAIL keeps the invariant. -/
theorem txFail_invariant {s : State} {b : Busy} (tag : Tag) (hi : Invariant s) (hs : s.seq = .busy b)
    (hp : b.pending = true) : Invariant (txFail tag b s) := by
  obtain ⟨-, hidle, htx, -⟩ := txFail_frame tag b s
  refine (txFail_memoryOk hi.memoryOk tag b).invariant_of_idle hidle ?_
  rw [htx]
  exact hi.settled_noPending hs hp (by decide)

/-! ### What the host does -/

/-- A valid reset input stands for a valid configuration (R281). -/
theorem toCfg_valid {r : ResetInput} (hv : r.valid = true) : r.toCfg.valid = true :=
  ((Bool.and_eq_true _ _).mp hv).2

/-- A valid reset keeps the invariant; it abandons the one write that may be outstanding (R283). -/
theorem resetTo_invariant {s : State} {c : Cfg} (hi : Invariant s) (hv : c.valid = true) : Invariant (resetTo c s) := by
  refine (memoryOk_of_unspecified hv rfl rfl rfl).invariant_of_idle rfl ?_
  show ∀ x ∈ abandonPending s, x.result ≠ .pending
  unfold abandonPending
  split
  · next hs => exact hi.noPending_of_idle hs
  · next b hs =>
    split
    · next hp => exact hi.settled_noPending hs hp (by decide)
    · next hp => exact hi.noPending_of_busy hs (by simpa using hp)

/-- Accepting a plan keeps the invariant. -/
theorem accepted_invariant {s : State} {op : Op} {plan : List Action} (hi : Invariant s) (hs : s.seq = .idle)
    (hplan : AcceptedPlan s op plan) :
    Invariant (s.setSeq (.busy (Busy.start op plan))) := by
  have hm : MemoryOk (s.setSeq (.busy (Busy.start op plan))) := hi.memoryOk.of_fields_eq rfl rfl rfl rfl
  refine hm.invariant_of_busy rfl ?_ (hi.noPending_of_idle hs)
  exact ⟨Nat.zero_le _, rfl, hplan.actionOk hi.cfgValid, hplan.initGuarded _ _,
    ⟨s.txlog, by simp [planEvents, Busy.start]⟩, nofun⟩

/-- An immediate operation keeps the invariant. -/
theorem completed_invariant {s : State} {i : Instr} {op : Op} {a : Action} (hi : Invariant s) (hs : s.seq = .idle)
    (ha : ImmediateAction s i op a) (v : RspValue) : Invariant (respondOk op.code v (localEffect a s)) := by
  obtain ⟨-, hseq, htx, -, -, -, -⟩ := localEffect_frame a s
  obtain ⟨-, ⟨-, -, hheight⟩, -⟩ := (Cfg_valid_iff s.cfg).mp hi.cfgValid
  have hm := localEffect_memoryOk hi.memoryOk (ha.actionOk hheight) ha.isWrite (absurd · ha.ne_setInit)
  have hm' : MemoryOk (respondOk op.code v (localEffect a s)) := hm.of_fields_eq rfl rfl rfl rfl
  refine hm'.invariant_of_idle (hseq.trans hs) ?_
  show ∀ x ∈ (localEffect a s).txlog, x.result ≠ .pending
  rw [htx]
  exact hi.noPending_of_idle hs

/-- Settles O41, by the effects of a step: each keeps the invariant. -/
theorem everyStepKeepsTheInvariant : Obligations.EveryStepKeepsTheInvariant := by
  intro s t hi hstep
  cases step_effect hstep with
  | waits h => exact hi.setHost h
  | issues h _ b hs hp reg payload tag ha => exact issue_invariant (hi.setHost h) hs hp ha
  | takesLocal h _ b hs hp a ha hw => exact localStep_invariant (hi.setHost h) hs hp ha hw
  | ends h _ b hs hp => exact done_invariant (hi.setHost h) hs hp
  | answeredOk h _ b hs hp rest _ => exact txOk_invariant ((hi.setHost h).setAnswers rest) hs hp
  | answeredFail h _ b hs hp tag rest _ => exact txFail_invariant tag ((hi.setHost h).setAnswers rest) hs hp
  | refuses _ rest _ r => exact (hi.setHost rest).setRefused (some r)
  | resets r rest _ hv => exact resetTo_invariant (hi.setHost rest) (toCfg_valid hv)
  | accepts _ _ rest _ hs op plan hplan => exact accepted_invariant (hi.setHost rest) hs hplan
  | completes _ _ rest _ hs i _ op a ha => exact completed_invariant (hi.setHost rest) hs ha _

end Sys2Proof.Machine
end

section
/-! PROOFS. No ⊥ cell is read and no ill-formed sequencer steps (spec/00_scope.md R12, spec/10_state.md R44): the faults
of the requests, one by one, and why the invariant rules each out. -/

namespace Sys2Proof.Machine

/-- Admission itself never faults: a fault is the admitted operation's. -/
theorem whenAdmitted_fault {needsInit : Bool} {s : State} {k : Out} {f : Fault}
    (h : whenAdmitted needsInit s k = .fault f) : (needsInit = true → s.init = true) ∧ k = .fault f := by
  rw [whenAdmitted_eq] at h
  split at h
  · cases h
  · split at h
    · cases h
    · split at h
      · cases h
      · next hi => exact ⟨fun hn => by simpa [hn] using hi, h⟩

/-- A controller command row never faults: it is issued or refused. -/
theorem emitCommand_ne_fault (bytes : List Byte) (s : State) (f : Fault) : emitCommand bytes s ≠ .fault f := by
  unfold emitCommand
  split
  · nofun
  · split
    · nofun
    · split
      · split <;> nofun
      · nofun

/-- The ⊥ cell that a faulting request would read (R12): a page of UPDATE, the byte of BUF_READ or SET_PIXEL, or a bit of
DIRTY_STATUS. -/
inductive ReadsUnspecified (s : State) : Prop where
  | flush (a b : Byte) (hb : b.toNat < s.cfg.npages) (hf : flush s.cfg s.buf a.toNat b.toNat = none)
  | cell (i : Nat) (hi : s.cfg.height % 8 = 0 → i < s.cfg.nbytes) (hr : s.buf.read i = none)
  | bits (hd : dirtyBits s.dirty = none)

/-- A request faults only where `INIT = 1` and a ⊥ cell would be read. -/
theorem exec_fault {i : Instr} {s : State} {f : Fault} (h : exec i s = .fault f) :
    s.init = true ∧ ReadsUnspecified s := by
  cases hc : i.commandBytes s.cfg.pageBase with
  | some bytes => exact absurd (exec_command hc ▸ h) (emitCommand_ne_fault _ _ _)
  | none =>
    cases i
    case update a b =>
      obtain ⟨hi, hk⟩ := whenAdmitted_fault h
      refine ⟨hi rfl, ?_⟩
      split at hk
      · cases hk
      · split at hk
        · cases hk
        · next hb =>
          split at hk
          · next hf => exact .flush a b (by omega) hf
          · cases hk
    case bufRead k =>
      obtain ⟨hi, hk⟩ := whenAdmitted_fault h
      refine ⟨hi rfl, ?_⟩
      split at hk
      · cases hk
      · next hlt =>
        split at hk
        · next hr => exact .cell _ (fun _ => by omega) hr
        · cases hk
    case setPixel x y on =>
      obtain ⟨hi, hk⟩ := whenAdmitted_fault h
      refine ⟨hi rfl, ?_⟩
      split at hk
      · cases hk
      · next hlt =>
        split at hk
        · next hr => exact .cell _ (fun hv => pixelIndex_lt hv (by omega) (by omega)) hr
        · cases hk
    case dirtyStatus =>
      obtain ⟨hi, hk⟩ := whenAdmitted_fault h
      refine ⟨hi rfl, ?_⟩
      split at hk
      · next hd => exact .bits hd
      · cases hk
    case sendData | setColumn | initializeDisplay => cases (whenAdmitted_fault h).2
    case setPage | setPosition | bufWrite => have hk := (whenAdmitted_fault h).2; split at hk <;> cases hk
    case sendCommand p =>
      have hk := (whenAdmitted_fault h).2
      split at hk
      · cases hk
      · split at hk <;> cases hk
    all_goals cases hc

/-- Where `INIT = 1`, the invariant leaves no ⊥ cell to read (R44). -/
theorem Invariant.not_readsUnspecified {s : State} (hi : Invariant s) (hinit : s.init = true) :
    ¬ ReadsUnspecified s := by
  obtain ⟨hbuf, hdirty⟩ := hi.initDefined hinit
  rintro (⟨a, b, hb, hf⟩ | ⟨i, hlt, hr⟩ | hd)
  · obtain ⟨bytes, hbytes⟩ := bufDefined_bytes hbuf
    have hpages : ∀ p ∈ pagesFromTo a.toNat b.toNat, p < s.cfg.npages := by
      intro p hp
      have := mem_pagesFromTo.mp hp
      omega
    cases (flushPages_eq s.cfg s.buf bytes _ hpages hbytes).symm.trans hf
  · obtain ⟨-, ⟨-, -, hheight⟩, -⟩ := (Cfg_valid_iff s.cfg).mp hi.cfgValid
    exact hbuf i (hlt hheight) hr
  · obtain ⟨bits, hbits⟩ := dirtyBits_defined hdirty
    cases hbits.symm.trans hd

/-- ACCEPT never faults under the invariant. -/
theorem Invariant.accept_ne_fault {s : State} (hi : Invariant s) (w : ReqWord) (p : List Byte) (f : Fault) :
    accept w p s ≠ .fault f := by
  intro h
  unfold accept at h
  split at h
  · cases h
  · split at h
    · obtain ⟨hinit, hread⟩ := exec_fault h
      exact hi.not_readsUnspecified hinit hread
    · cases h
    · split at h <;> cases h

/-- The reset input never faults. -/
theorem resetInput_ne_fault (r : ResetInput) (s : State) (f : Fault) : resetInput r s ≠ .fault f := by
  unfold resetInput
  split
  · nofun
  · split <;> nofun

/-- No host action faults under the invariant. -/
theorem Invariant.hostAct_ne_fault {s : State} (hi : Invariant s) (a : HostAct) (f : Fault) :
    hostAct a s ≠ .fault f := by
  cases a with
  | request w p => exact hi.accept_ne_fault w p f
  | reset r => exact resetInput_ne_fault r s f

/-- No step of the block or the transport faults under the invariant: `pc` is within the plan, and a pending write has
its action and its event (R36). -/
theorem Invariant.blockStep_ne_fault {s : State} (hi : Invariant s) (f : Fault) : blockStep s ≠ .fault f := by
  intro h
  unfold blockStep at h
  split at h
  · cases h
  · next b hs =>
    split at h
    · next hp =>
      obtain ⟨reg, payload, tag, before, ha, hlog, -⟩ := hi.pendingLast hs hp
      split at h
      · cases h
      · unfold answerWrite at h
        split at h
        · split at h <;> cases h
        · next hno =>
          cases before with
          | nil => exact hno _ _ _ _ _ ha hlog
          | cons e tail => exact hno _ _ _ _ _ ha hlog
    · unfold sequencerStep at h
      split at h
      · cases h
      · cases h
      · next ha =>
        have hpc : b.pc = b.plan.length :=
          Nat.le_antisymm (hi.busyOk b hs).pcInPlan (List.getElem?_eq_none_iff.mp ha)
        rw [if_pos hpc] at h
        cases h

/-- Settles O42: neither the host's acts nor the steps of the block fault under the invariant. -/
theorem noStepFaultsUnderTheInvariant : Obligations.NoStepFaultsUnderTheInvariant := by
  intro s f hi h
  unfold step advance at h
  split at h
  · cases h
  · split at h
    · exact hi.blockStep_ne_fault f h
    · exact (hi.setHost _).blockStep_ne_fault f h
    · exact (hi.setHost _).hostAct_ne_fault _ f h
    · split at h
      · exact hi.blockStep_ne_fault f h
      · exact (hi.setHost _).hostAct_ne_fault _ f h

end Sys2Proof.Machine
end

section
/-! PROOFS. The writers of CFG and INIT (spec/10_state.md R32, R35), the mark REFUSED (R39), the values after reset and
the register widths (R41, R44). -/

namespace Sys2Proof.Machine

/-! ### CFG (R32) -/

/-- A valid reset that is admitted takes effect (R280, R281). -/
theorem resetInput_of_valid {r : ResetInput} {s : State} (hr : s.refused = none) (hv : r.valid = true) :
    resetInput r s = .next (resetTo r.toCfg s) := by
  simp [resetInput, hr, hv]

/-- A step leaves `CFG` as it is, or is that of a valid reset. -/
theorem StepEffect.cfg {s t : State} (h : StepEffect s t) :
    t.cfg = s.cfg ∨ ∃ r rest, s.hostDrives (.reset r) rest ∧ r.valid = true ∧ t.cfg = r.toCfg := by
  cases h with
  | resets r rest hd hv => exact .inr ⟨r, rest, hd, hv, rfl⟩
  | takesLocal h _ b _ _ a => exact .inl (localEffect_frame a (s.setHost h)).1
  | completes _ _ rest _ _ _ _ _ a => exact .inl (localEffect_frame a (s.setHost rest)).1
  | answeredFail h _ b _ _ tag rest => exact .inl (txFail_frame tag b ((s.setHost h).setAnswers rest)).1
  | waits | issues | ends | answeredOk | refuses | accepts => exact .inl rfl

/-- Settles O43: a due host event is the step, and a valid reset is the only effect that writes `CFG`. -/
theorem onlyAResetWritesTheConfiguration : Obligations.OnlyAResetWritesTheConfiguration := by
  refine ⟨fun s r rest hr hv hd => ?_, fun s t h => (step_effect h).cfg⟩
  have hreset : resetInput r (s.setHost rest) = .next (resetTo r.toCfg (s.setHost rest)) :=
    resetInput_of_valid hr hv
  exact ⟨_, (step_hostDrives hr hd).trans hreset, hreset, rfl⟩

/-! ### INIT (R35) -/

/-- A step leaves `INIT` as it is, or sets it by SET_INIT, or clears it by a reset or a failed INITIALIZE. -/
theorem StepEffect.init {s t : State} (h : StepEffect s t) :
    t.init = s.init ∨
    (t.init = true ∧ ∃ b, s.seq = .busy b ∧ b.pending = false ∧ b.action = some .setInit) ∨
    (t.init = false ∧
      ((∃ r rest, s.hostDrives (.reset r) rest ∧ r.valid = true) ∨
       ∃ b rest, s.seq = .busy b ∧ b.pending = true ∧ b.op = 0x20#8 ∧ s.answers = .fail :: rest)) := by
  cases h with
  | takesLocal h _ b hs hp a ha =>
    by_cases hset : a = .setInit
    · subst hset
      exact .inr (.inl ⟨rfl, b, hs, hp, ha⟩)
    · exact .inl (localEffect_init hset (s.setHost h))
  | answeredFail h _ b hs hp tag rest hn =>
    have hinit := txFail_init tag b ((s.setHost h).setAnswers rest)
    by_cases hop : b.op = 0x20#8
    · rw [if_pos hop] at hinit
      exact .inr (.inr ⟨hinit, .inr ⟨b, rest, hs, hp, hop, hn⟩⟩)
    · rw [if_neg hop] at hinit
      exact .inl hinit
  | resets r rest hd hv => exact .inr (.inr ⟨rfl, .inl ⟨r, rest, hd, hv⟩⟩)
  | completes _ _ rest _ _ _ _ _ a ha => exact .inl (localEffect_init ha.ne_setInit (s.setHost rest))
  | waits | issues | ends | answeredOk | refuses | accepts => exact .inl rfl

/-- Settles O44, from the three effects that write `INIT`. -/
theorem initIsWrittenOnlyBySetInitFailureAndReset : Obligations.InitIsWrittenOnlyBySetInitFailureAndReset := by
  intro s t h
  rcases (step_effect h).init with hsame | ⟨ht, hset⟩ | ⟨ht, hclear⟩
  · exact ⟨fun h0 h1 => by simp [hsame, h0] at h1, fun h1 h0 => by simp [hsame, h1] at h0⟩
  · exact ⟨fun _ _ => hset, fun _ h0 => by simp [ht] at h0⟩
  · refine ⟨fun _ h1 => by simp [ht] at h1, fun _ _ => hclear.imp_left ?_⟩
    rintro ⟨r, rest, hd, hv⟩
    exact ⟨r, rest, hd.host, hv⟩

/-! ### REFUSED (R39) -/

/-- Behind the mark no operation is admitted. -/
theorem whenAdmitted_refused {needsInit : Bool} {s : State} (k : Out) (hr : s.refused.isSome = true) :
    whenAdmitted needsInit s k = .refused .afterRefusal := by
  rw [whenAdmitted_eq, if_pos hr]

/-- Behind the mark no controller command is issued. -/
theorem emitCommand_refused (bytes : List Byte) {s : State} (hr : s.refused.isSome = true) :
    emitCommand bytes s = .refused .afterRefusal := by
  rw [emitCommand, if_pos hr]

/-- The meaning of every host request stands behind admission (R141). -/
theorem exec_eq_whenAdmitted {i : Instr} {s : State} (hc : i.commandBytes s.cfg.pageBase = none) :
    ∃ needsInit k, exec i s = whenAdmitted needsInit s k := by
  cases i
  case sendCommand | sendData | setPage | setColumn | setPosition | initializeDisplay | update | bufWrite | bufRead
    | setPixel | dirtyStatus => exact ⟨_, _, rfl⟩
  all_goals cases hc

/-- Behind the mark no meaning runs. -/
theorem exec_refused (i : Instr) {s : State} (hr : s.refused.isSome = true) :
    exec i s = .refused .afterRefusal := by
  cases hc : i.commandBytes s.cfg.pageBase with
  | some bytes => rw [exec_command hc, emitCommand_refused bytes hr]
  | none =>
    obtain ⟨needsInit, k, hk⟩ := exec_eq_whenAdmitted hc
    rw [hk, whenAdmitted_refused k hr]

/-- Settles O32: the step, every meaning, ACCEPT and the reset input look at the mark first. -/
theorem nothingRunsAfterARefusal : Obligations.NothingRunsAfterARefusal := by
  intro s r hr
  have hmark : s.refused.isSome = true := by rw [hr]; rfl
  refine ⟨?_, fun i => exec_refused i hmark, fun w p => ?_, fun input => ?_⟩
  · exact if_pos hmark
  · exact if_pos hmark
  · exact if_pos hmark

/-! ### The values after reset and the register widths (R41, R44) -/

/-- Settles O38: the fields of `State.reset` one by one; its `BUF` lists no cell, so every read is ⊥. -/
theorem resetStateHasTheResetValues : Obligations.ResetStateHasTheResetValues :=
  ⟨rfl, rfl, Memory.read_nil, rfl, rfl, rfl, rfl, rfl, rfl, rfl, rfl, rfl, rfl⟩

/-- Settles O39, from the ranges of R281: at most 256 columns and 32 pages. -/
theorem validConfigurationFitsTheRegisterWidths : Obligations.ValidConfigurationFitsTheRegisterWidths := by
  intro c hv
  obtain ⟨⟨-, hwidth⟩, ⟨-, hheight, hmod⟩, ⟨-, hdata⟩, -, hbase, -⟩ := (Cfg_valid_iff c).mp hv
  have hpages : c.npages ≤ 32 := Nat.div_le_of_le_mul hheight
  have hbytes : c.nbytes ≤ 256 * 32 := Nat.mul_le_mul hwidth hpages
  have hexact : c.npages * 8 = c.height := Nat.div_mul_cancel (Nat.dvd_of_mod_eq_zero hmod)
  exact ⟨by omega, by omega, by omega, by omega, hexact, by omega,
    fun p hp => pageByte_toNat c p (by omega)⟩

end Sys2Proof.Machine
end

section
/-! PROOFS. The two logs (spec/10_state.md R37, R38; spec/20_memory.md R84) and the end of a program's run
(spec/40_sequencer.md R151): every request is answered once. -/

namespace Sys2Proof.Machine

/-! ### TXLOG -/

/-- What a step may do to `TXLOG` (R37, R84): nothing, append a pending event, or settle the last one. -/
def TxLogGrows (s t : State) : Prop :=
  t.txlog = s.txlog ∨
  (∃ e, e.result = .pending ∧ e.addr = s.cfg.devAddr ∧ t.txlog = s.txlog ++ [e] ∧
    ∀ x ∈ s.txlog, x.result ≠ .pending) ∨
  (∃ before e r, s.txlog = before ++ [e] ∧ e.result = .pending ∧ r ≠ .pending ∧
    t.txlog = before ++ [{ e with result := r }])

/-- A result set while a write is pending settles that write's event. -/
theorem Invariant.txLogGrows_of_settled {s t : State} {b : Busy} (hi : Invariant s) (hs : s.seq = .busy b)
    (hp : b.pending = true) {r : TxResult} (hr : r ≠ .pending) (ht : t.txlog = setLastResult r s.txlog) :
    TxLogGrows s t := by
  obtain ⟨reg, payload, tag, before, -, hlog, -⟩ := hi.pendingLast hs hp
  rw [hlog, setLastResult_append] at ht
  exact .inr (.inr ⟨before, _, r, hlog, rfl, hr, ht⟩)

/-- A reset abandons the pending write, or leaves the log as it is (R283). -/
theorem Invariant.txLogGrows_of_reset {s t : State} (hi : Invariant s) (ht : t.txlog = abandonPending s) :
    TxLogGrows s t := by
  unfold abandonPending at ht
  split at ht
  · exact .inl ht
  · next b hs =>
    split at ht
    · next hp => exact hi.txLogGrows_of_settled hs hp (by decide) ht
    · exact .inl ht

/-- Every effect of a step does to `TXLOG` what it may. -/
theorem StepEffect.txLogGrows {s t : State} (hi : Invariant s) (h : StepEffect s t) : TxLogGrows s t := by
  cases h with
  | issues h _ b hs hp reg payload tag _ =>
    exact .inr (.inl ⟨_, rfl, rfl, rfl, hi.noPending_of_busy hs hp⟩)
  | takesLocal h _ b _ _ a =>
    obtain ⟨-, -, htx, -⟩ := localEffect_frame a (s.setHost h)
    exact .inl htx
  | answeredOk h _ b hs hp rest => exact hi.txLogGrows_of_settled hs hp (by decide) rfl
  | answeredFail h _ b hs hp tag rest =>
    obtain ⟨-, -, htx, -⟩ := txFail_frame tag b ((s.setHost h).setAnswers rest)
    exact hi.txLogGrows_of_settled hs hp (by decide) htx
  | resets r rest => exact hi.txLogGrows_of_reset rfl
  | completes _ _ rest _ _ _ _ _ a =>
    obtain ⟨-, -, htx, -⟩ := localEffect_frame a (s.setHost rest)
    exact .inl htx
  | waits | ends | refuses | accepts => exact .inl rfl

/-! ### RSPLOG -/

/-- What a step may append to `RSPLOG` (R38): the response of the running operation as it ends, or that of an immediate
operation as it is accepted. -/
def RspLogGrows (s t : State) : Prop :=
  t.rsplog = s.rsplog ∨
  ∃ r, t.rsplog = s.rsplog ++ [r] ∧ t.seq = .idle ∧
    ((∃ b, s.seq = .busy b ∧ r.op = b.op) ∨
     (s.seq = .idle ∧ r.status = .ok ∧ ∃ w p rest,
      (s.host = .present (.request w p) :: rest ∨ s.host = .call (.request w p) :: rest) ∧
      r.op = w.extractLsb' 24 8 ∧ r.op ∈ [0x40#8, 0x41#8, 0x42#8, 0x50#8]))

/-- The opcodes of the immediate operations (R104, R149). -/
theorem ImmediateAction.code_mem {s : State} {i : Instr} {op : Op} {a : Action} (h : ImmediateAction s i op a) :
    op.code ∈ [0x40#8, 0x41#8, 0x42#8, 0x50#8] := by
  cases h <;> simp [Op.code]

/-- An immediate operation appends its OK response to `RSPLOG` and leaves the sequencer and the host as they are. -/
theorem respondOk_localEffect (op : Byte) (v : RspValue) (a : Action) (s : State) :
    (respondOk op v (localEffect a s)).rsplog =
      s.rsplog ++ [{ op := op, status := .ok, value := v, fail := none }] ∧
    (respondOk op v (localEffect a s)).seq = s.seq ∧ (respondOk op v (localEffect a s)).host = s.host := by
  obtain ⟨-, hseq, -, hrsp, -, hhost, -⟩ := localEffect_frame a s
  exact ⟨by simp [respondOk, hrsp], hseq, hhost⟩

/-- Every effect of a step does to `RSPLOG` what it may. -/
theorem StepEffect.rspLogGrows {s t : State} (h : StepEffect s t) : RspLogGrows s t := by
  cases h with
  | takesLocal h _ b _ _ a =>
    obtain ⟨-, -, -, hrsp, -⟩ := localEffect_frame a (s.setHost h)
    exact .inl hrsp
  | ends h _ b hs => exact .inr ⟨_, rfl, rfl, .inl ⟨b, hs, rfl⟩⟩
  | answeredFail h _ b hs _ tag rest =>
    obtain ⟨-, hidle, -, hrsp, -⟩ := txFail_frame tag b ((s.setHost h).setAnswers rest)
    exact .inr ⟨_, hrsp, hidle, .inl ⟨b, hs, rfl⟩⟩
  | completes w p rest hd hs i hi op a ha =>
    obtain ⟨hrsp, hseq, -⟩ := respondOk_localEffect op.code (localValue a .empty) a (s.setHost rest)
    exact .inr ⟨_, hrsp, hseq.trans hs, .inr ⟨hs, rfl, w, p, rest, hd.host, ha.opcode hi, ha.code_mem⟩⟩
  | waits | issues | answeredOk | refuses | resets | accepts => exact .inl rfl

/-- An operation that ends has its response, but where a reset abandons it (R38, R283). -/
theorem StepEffect.responds_at_end {s t : State} (h : StepEffect s t) {b : Busy} (hs : s.seq = .busy b)
    (ht : t.seq = .idle) :
    (∃ r, t.rsplog = s.rsplog ++ [r] ∧ r.op = b.op) ∨
    ∃ i rest, s.host = .present (.reset i) :: rest ∧ i.valid = true := by
  cases h with
  | waits => exact nomatch hs.symm.trans ht
  | refuses => exact nomatch hs.symm.trans ht
  | issues => cases ht
  | takesLocal => cases ht
  | answeredOk => cases ht
  | ends h _ b' hs' =>
    cases hs.symm.trans hs'
    exact .inl ⟨_, rfl, rfl⟩
  | answeredFail h _ b' hs' _ tag rest =>
    cases hs.symm.trans hs'
    obtain ⟨-, -, -, hrsp, -⟩ := txFail_frame tag b ((s.setHost h).setAnswers rest)
    exact .inl ⟨_, hrsp, rfl⟩
  | resets r rest hd hv => exact .inr ⟨r, rest, hd.present_of_busy hs, hv⟩
  | accepts _ _ _ _ hidle => exact nomatch hs.symm.trans hidle
  | completes _ _ _ _ hidle => exact nomatch hs.symm.trans hidle

/-! ### The end of a program's run (R151) -/

/-- Whether a host act is a request. -/
def HostAct.isRequest : HostAct → Bool
  | .request _ _ => true
  | .reset _ => false

/-- The requests among the acts that the host has left. -/
def State.requestsLeft (s : State) : Nat := (hostActs s.host).countP HostAct.isRequest

/-- The responses still to come: one for each request the host has left, one for an operation that runs. -/
def State.responsesDue (s : State) : Nat :=
  match s.seq with
  | .idle => s.requestsLeft
  | .busy _ => s.requestsLeft + 1

theorem responsesDue_of_idle {s : State} (hs : s.seq = .idle) : s.responsesDue = s.requestsLeft := by
  simp [State.responsesDue, hs]

theorem responsesDue_of_busy {s : State} {b : Busy} (hs : s.seq = .busy b) :
    s.responsesDue = s.requestsLeft + 1 := by
  simp [State.responsesDue, hs]

/-- The responses due depend on the sequencer and the host's acts only. -/
theorem responsesDue_congr {s t : State} (hs : t.seq = s.seq) (hacts : hostActs t.host = hostActs s.host) :
    t.responsesDue = s.responsesDue := by
  simp only [State.responsesDue, State.requestsLeft, hs, hacts]

/-- The same acts are the same requests. -/
theorem requestsLeft_congr {s t : State} (hacts : hostActs t.host = hostActs s.host) :
    t.requestsLeft = s.requestsLeft := by
  rw [State.requestsLeft, hacts, State.requestsLeft]

/-- A request that the host drives is one of those it had left. -/
theorem State.hostDrives.requestsLeft_of_request {s t : State} {w : ReqWord} {p : List Byte} {rest : List HostEvent}
    (hd : s.hostDrives (.request w p) rest) (ht : t.host = rest) : s.requestsLeft = t.requestsLeft + 1 := by
  rw [State.requestsLeft, hd.acts, State.requestsLeft, ht]
  exact List.countP_cons_of_pos rfl

/-- A reset that the host drives is none of them. -/
theorem State.hostDrives.requestsLeft_of_reset {s t : State} {r : ResetInput} {rest : List HostEvent}
    (hd : s.hostDrives (.reset r) rest) (ht : t.host = rest) : s.requestsLeft = t.requestsLeft := by
  rw [State.requestsLeft, hd.acts, State.requestsLeft, ht]
  exact List.countP_cons_of_neg (by simp [HostAct.isRequest])

/-- No reset can abandon an operation: a reset is the host's first act or none, and comes first only at an idle
sequencer. -/
structure Uninterrupted (s : State) : Prop where
  laterRequests : ∀ a ∈ (hostActs s.host).tail, a.isRequest = true
  idleOrRequests : s.seq = .idle ∨ ∀ a ∈ hostActs s.host, a.isRequest = true

/-- A reset of an uninterrupted run finds the sequencer idle. -/
theorem Uninterrupted.idle_of_reset {s : State} (hu : Uninterrupted s) {r : ResetInput} {rest : List HostEvent}
    (hd : s.hostDrives (.reset r) rest) : s.seq = .idle := by
  rcases hu.idleOrRequests with hs | hall
  · exact hs
  · cases hall (.reset r) (by simp [hd.acts])

/-- Once the host has driven its first act, only requests are left. -/
theorem Uninterrupted.of_hostDrives {s t : State} (hu : Uninterrupted s) {a : HostAct} {rest : List HostEvent}
    (hd : s.hostDrives a rest) (ht : t.host = rest) : Uninterrupted t := by
  have hlater : ∀ a ∈ hostActs t.host, a.isRequest = true := by
    have h := hu.laterRequests
    rwa [hd.acts, List.tail_cons, ← ht] at h
  exact ⟨fun a ha => hlater a (List.mem_of_mem_tail ha), .inr hlater⟩

/-- A step that leaves the host's acts and starts no operation leaves a run uninterrupted. -/
theorem Uninterrupted.of_acts_eq {s t : State} (hu : Uninterrupted s) (hacts : hostActs t.host = hostActs s.host)
    (hidle : s.seq = .idle → t.seq = .idle) : Uninterrupted t := by
  refine ⟨?_, hu.idleOrRequests.imp hidle ?_⟩ <;> rw [hacts]
  · exact hu.laterRequests
  · exact id

/-- A step keeps a run uninterrupted. -/
theorem StepEffect.uninterrupted {s t : State} (h : StepEffect s t) (hu : Uninterrupted s) : Uninterrupted t := by
  cases h with
  | waits h hacts => exact hu.of_acts_eq hacts id
  | issues h hacts b hs => exact hu.of_acts_eq hacts fun hidle => nomatch hs.symm.trans hidle
  | takesLocal h hacts b hs _ a =>
    obtain ⟨-, -, -, -, -, hhost, -⟩ := localEffect_frame a (s.setHost h)
    exact hu.of_acts_eq ((congrArg hostActs hhost).trans hacts) fun hidle => nomatch hs.symm.trans hidle
  | ends h hacts => exact hu.of_acts_eq hacts fun _ => rfl
  | answeredOk h hacts b hs => exact hu.of_acts_eq hacts fun hidle => nomatch hs.symm.trans hidle
  | answeredFail h hacts b _ _ tag rest =>
    obtain ⟨-, hidle, -, -, hhost⟩ := txFail_frame tag b ((s.setHost h).setAnswers rest)
    exact hu.of_acts_eq ((congrArg hostActs hhost).trans hacts) fun _ => hidle
  | refuses _ _ hd => exact hu.of_hostDrives hd rfl
  | resets _ _ hd => exact hu.of_hostDrives hd rfl
  | accepts _ _ _ hd => exact hu.of_hostDrives hd rfl
  | completes _ _ rest hd _ _ _ op a =>
    obtain ⟨-, -, hhost⟩ := respondOk_localEffect op.code (localValue a .empty) a (s.setHost rest)
    exact hu.of_hostDrives hd hhost

/-- Where no reset abandons an operation and nothing is refused, a step answers as many requests as it takes off those
that are due. -/
theorem StepEffect.responses_conserved {s t : State} (h : StepEffect s t) (hu : Uninterrupted s)
    (ht : t.refused = none) : t.rsplog.length + t.responsesDue = s.rsplog.length + s.responsesDue := by
  cases h with
  | waits h hacts => exact congrArg (s.rsplog.length + ·) (responsesDue_congr rfl hacts)
  | issues h hacts b hs _ reg payload tag =>
    have hleft : (issue reg payload tag b (s.setHost h)).requestsLeft = s.requestsLeft := requestsLeft_congr hacts
    rw [responsesDue_of_busy hs, responsesDue_of_busy rfl, hleft]
    rfl
  | takesLocal h hacts b hs _ a =>
    obtain ⟨-, -, -, hrsp, -, hhost, -⟩ := localEffect_frame a (s.setHost h)
    have hleft : (localStep a b (s.setHost h)).requestsLeft = s.requestsLeft :=
      requestsLeft_congr ((congrArg hostActs hhost).trans hacts)
    rw [responsesDue_of_busy hs, responsesDue_of_busy rfl, hleft]
    exact congrArg (·.length + _) hrsp
  | ends h hacts b hs =>
    have hleft : (done b (s.setHost h)).requestsLeft = s.requestsLeft := requestsLeft_congr hacts
    rw [responsesDue_of_busy hs, responsesDue_of_idle rfl, hleft]
    simp [done, respondOk]
    omega
  | answeredOk h hacts b hs _ rest =>
    have hleft : (txOk b ((s.setHost h).setAnswers rest)).requestsLeft = s.requestsLeft := requestsLeft_congr hacts
    rw [responsesDue_of_busy hs, responsesDue_of_busy rfl, hleft]
    rfl
  | answeredFail h hacts b hs _ tag rest =>
    obtain ⟨-, hidle, -, hrsp, hhost⟩ := txFail_frame tag b ((s.setHost h).setAnswers rest)
    rw [responsesDue_of_busy hs, responsesDue_of_idle hidle,
      requestsLeft_congr ((congrArg hostActs hhost).trans hacts), hrsp]
    simp
    omega
  | refuses => cases ht
  | resets r rest hd =>
    have hleft : s.requestsLeft = (resetTo r.toCfg (s.setHost rest)).requestsLeft := hd.requestsLeft_of_reset rfl
    rw [responsesDue_of_idle (hu.idle_of_reset hd), responsesDue_of_idle rfl, hleft]
    rfl
  | accepts w p rest hd hs op plan =>
    have hleft : s.requestsLeft = ((s.setHost rest).setSeq (.busy (Busy.start op plan))).requestsLeft + 1 :=
      hd.requestsLeft_of_request rfl
    rw [responsesDue_of_idle hs, responsesDue_of_busy rfl, hleft]
    rfl
  | completes w p rest hd hs i _ op a =>
    obtain ⟨hrsp, hseq, hhost⟩ := respondOk_localEffect op.code (localValue a .empty) a (s.setHost rest)
    rw [responsesDue_of_idle hs, responsesDue_of_idle (hseq.trans hs), hd.requestsLeft_of_request hhost, hrsp]
    simp
    omega

/-- A run that ends without a refusal met none: from a marked state there is no step (R39). -/
theorem notRefused_of_run {n : Nat} {s t : State} (h : run n s = .next t) (ht : t.refused = none) :
    s.refused = none := by
  cases n with
  | zero => cases h; exact ht
  | succ n =>
    rw [run] at h
    split at h
    · next u hu => exact (step_cases hu).1
    · cases h
    · cases h

/-- Along an uninterrupted run without a refusal, what is answered and what is due adds up to the same. -/
theorem run_responses_conserved {n : Nat} {s t : State} (h : run n s = .next t) (hu : Uninterrupted s)
    (ht : t.refused = none) : t.rsplog.length + t.responsesDue = s.rsplog.length + s.responsesDue := by
  induction n generalizing s with
  | zero => cases h; rfl
  | succ n ih =>
    rw [run] at h
    split at h
    · next u hstep =>
      have he := step_effect hstep
      rw [ih h (he.uninterrupted hu)]
      exact he.responses_conserved hu (notRefused_of_run h ht)
    · cases h
    · cases h

/-- A program's requests among its acts. -/
theorem Program.countP_acts (p : Program) : p.acts.countP HostAct.isRequest = p.requests.length := by
  obtain ⟨_ | r, requests⟩ := p <;>
    simp [Program.acts, List.countP_map, Function.comp_def, HostAct.isRequest]

/-- Behind a program's first act there are requests only. -/
theorem Program.isRequest_of_mem_tail (p : Program) : ∀ a ∈ p.acts.tail, a.isRequest = true := by
  have hreq : ∀ a ∈ p.requests.map (fun r => HostAct.request r.1 r.2), a.isRequest = true := by
    intro a ha
    obtain ⟨r, -, rfl⟩ := List.mem_map.mp ha
    rfl
  obtain ⟨_ | r, requests⟩ := p
  · exact fun a ha => hreq a (List.mem_of_mem_tail ha)
  · exact hreq

/-- A program that starts at an idle sequencer has, at its end, one response for each request. -/
theorem responses_of_run_from_idle {p : Program} {n : Nat} {start s : State} (hacts : hostActs start.host = p.acts)
    (hidle : start.seq = .idle) (hrun : run n start = .next s) (hhost : s.host = []) (hs : s.seq = .idle)
    (hr : s.refused = none) : s.rsplog.length = start.rsplog.length + p.requests.length := by
  have hu : Uninterrupted start := ⟨hacts ▸ p.isRequest_of_mem_tail, .inl hidle⟩
  have h := run_responses_conserved hrun hu hr
  rw [responsesDue_of_idle hs, responsesDue_of_idle hidle, State.requestsLeft, State.requestsLeft, hhost, hacts,
    p.countP_acts] at h
  exact h

/-- A run whose first step is a reset of the host, and that met no refusal, goes on from the state after the reset. -/
theorem run_of_present_reset {n : Nat} {start s : State} {r : ResetInput} {rest : List HostEvent}
    (hh : start.host = .present (.reset r) :: rest) (hrun : run n start = .next s) (hhost : s.host = [])
    (hr : s.refused = none) : ∃ m, run m (resetTo r.toCfg (start.setHost rest)) = .next s := by
  cases n with
  | zero =>
    cases hrun
    cases hh.symm.trans hhost
  | succ m =>
    have hstep := step_hostDrives (notRefused_of_run hrun hr) (.inl hh)
    rw [run, hstep] at hrun
    split at hrun
    · next u hu =>
      obtain ⟨-, ⟨-, rfl⟩ | ⟨-, rfl⟩⟩ := resetInput_cases hu
      · exact ⟨m, hrun⟩
      · cases notRefused_of_run hrun hr
    · cases hrun
    · cases hrun

/-- A program whose acts begin with a reset has its requests behind it. -/
theorem Program.acts_behind_reset {p : Program} {r : ResetInput} {acts : List HostAct}
    (h : .reset r :: acts = p.acts) : acts = Program.acts { reset := none, requests := p.requests } := by
  obtain ⟨_ | r', requests⟩ := p
  · cases requests <;> cases h
  · exact (List.cons.inj h).2

/-- A program's run that is left with nothing to do has a response for each of its requests, from an idle start or from
one that its reset recovers at once (R151, R283). -/
theorem Program.StartsIn.responses_of_run {p : Program} {n : Nat} {start s : State} (hstart : p.StartsIn start)
    (hrun : run n start = .next s) (hhost : s.host = []) (hs : s.seq = .idle) (hr : s.refused = none) :
    s.rsplog.length = start.rsplog.length + p.requests.length := by
  obtain ⟨hacts, hidle | ⟨r, rest, hh⟩⟩ := hstart
  · exact responses_of_run_from_idle hacts hidle hrun hhost hs hr
  · have hrest : hostActs rest = Program.acts { reset := none, requests := p.requests } :=
      Program.acts_behind_reset (r := r) (by rw [← hacts, hh]; rfl)
    obtain ⟨m, hm⟩ := run_of_present_reset hh hrun hhost hr
    exact responses_of_run_from_idle (start := resetTo r.toCfg (start.setHost rest))
      (p := { reset := none, requests := p.requests }) hrest rfl hm hhost hs hr

/-- Settles O46: the effects of a step on the two logs, and the count of responses along a run. -/
theorem txLogAndRspLogOnlyGrow : Obligations.TxLogAndRspLogOnlyGrow := by
  refine ⟨?_, ?_, ?_⟩
  · intro s t hi h
    exact (step_effect h).txLogGrows hi
  · intro s t h
    exact ⟨(step_effect h).rspLogGrows, fun _ => (step_effect h).responds_at_end⟩
  · intro p n start s hstart hrun hhost hs hr
    exact ⟨hstart, ⟨n, hrun⟩, hhost, hstart.responses_of_run hrun hhost hs hr, hs, hr⟩

end Sys2Proof.Machine
end

section
/-! PROOFS. The writers of BUF and DIRTY (spec/20_memory.md R81, R85; spec/10_state.md R34, R42), read off the effects of
a step. -/

namespace Sys2Proof.Machine

/-! ### What the operations of a step do to BUF and DIRTY -/

/-- Only ZERO_BUF and BUF_SET write `BUF` (R142). -/
theorem writesBuf_of_localEffect {a : Action} {s : State} (hne : (localEffect a s).buf ≠ s.buf) :
    a = .zeroBuf ∨ ∃ i v, a = .bufSet i v := by
  cases a with
  | zeroBuf => exact .inl rfl
  | bufSet i v => exact .inr ⟨i, v, rfl⟩
  | wr | clearDirty | setInit | ret => exact absurd rfl hne

/-- Only CLEAR_DIRTY and BUF_SET write `DIRTY`: they clear the listed pages, or set the page of the written cell (R142). -/
theorem writesDirty_of_localEffect {a : Action} {s : State} (hne : (localEffect a s).dirty ≠ s.dirty) :
    (∃ pages, a = .clearDirty pages ∧ (localEffect a s).dirty = clearPages pages s.dirty) ∨
    ∃ i v, a = .bufSet i v ∧ (localEffect a s).dirty = s.dirty.set (i / s.cfg.width) (some true) := by
  cases a with
  | clearDirty pages => exact .inl ⟨pages, rfl, rfl⟩
  | bufSet i v => exact .inr ⟨i, v, rfl, rfl⟩
  | wr | zeroBuf | setInit | ret => exact absurd rfl hne

/-- A failed write leaves both memories alone, or is INITIALIZE's and leaves `DIRTY` without a value (R205). -/
theorem txFail_memories (tag : Tag) (b : Busy) (s : State) :
    ((txFail tag b s).buf = s.buf ∧ (txFail tag b s).dirty = s.dirty) ∨
    (b.op = 0x20#8 ∧ (txFail tag b s).dirty = List.replicate s.cfg.npages none) := by
  unfold txFail raiseTransportFailure abortEffect
  split
  · next hop => exact .inr ⟨hop, rfl⟩
  · exact .inl ⟨rfl, rfl⟩

/-! ### The writers -/

/-- What a step that changes a cell of `BUF` is (R81, R85). -/
def BufWriter (s : State) : Prop :=
  (s.seq = .idle ∧ ∃ w p rest i, (s.host = .present (.request w p) :: rest ∨ s.host = .call (.request w p) :: rest) ∧
    decode (.request w p) = .ok i ∧ ((∃ k v, i = .bufWrite k v) ∨ (∃ x y on, i = .setPixel x y on))) ∨
  (∃ b, s.seq = .busy b ∧ b.pending = false ∧
    (b.plan[b.pc]? = some .zeroBuf ∨ ∃ i v, b.plan[b.pc]? = some (.bufSet i v))) ∨
  (∃ b rest, s.seq = .busy b ∧ b.pending = true ∧ b.op = 0x20#8 ∧ s.answers = .fail :: rest) ∨
  (∃ r rest, (s.host = .present (.reset r) :: rest ∨ s.host = .call (.reset r) :: rest) ∧ r.valid = true)

/-- What a step to `t` that changes a cell of `DIRTY` is, and what it writes there (R34, R42). -/
def DirtyWriter (s t : State) : Prop :=
  (s.seq = .idle ∧ ∃ w p rest, (s.host = .present (.request w p) :: rest ∨ s.host = .call (.request w p) :: rest) ∧
    ((∃ (k : BufIndex) (v : Byte), decode (.request w p) = .ok (.bufWrite k v) ∧
        t.dirty = s.dirty.set (k.toNat / s.cfg.width) (some true)) ∨
     (∃ (x y : Byte) (on : Bool), decode (.request w p) = .ok (.setPixel x y on) ∧
        t.dirty = s.dirty.set (y.toNat / 8) (some true)))) ∨
  (∃ b, s.seq = .busy b ∧ b.pending = false ∧
    ((∃ pages, b.plan[b.pc]? = some (.clearDirty pages) ∧ t.dirty.length = s.dirty.length ∧
        ∀ p, p < s.dirty.length → t.dirty[p]? = if p ∈ pages then some (some false) else s.dirty[p]?) ∨
     (∃ i v, b.plan[b.pc]? = some (.bufSet i v) ∧ t.dirty = s.dirty.set (i / s.cfg.width) (some true)))) ∨
  (∃ b rest, s.seq = .busy b ∧ b.pending = true ∧ b.op = 0x20#8 ∧ s.answers = .fail :: rest ∧
    t.dirty = List.replicate (s.cfg.height / 8) none) ∨
  (∃ r rest, (s.host = .present (.reset r) :: rest ∨ s.host = .call (.reset r) :: rest) ∧ r.valid = true ∧
    t.dirty = List.replicate (r.height / 8) none)

/-- An effect that changes `BUF` is one of its writers'. -/
theorem StepEffect.bufWriter {s t : State} (h : StepEffect s t) (hne : t.buf ≠ s.buf) : BufWriter s := by
  cases h with
  | takesLocal h _ b hs hp a ha =>
    refine .inr (.inl ⟨b, hs, hp, ?_⟩)
    obtain rfl | ⟨i, v, rfl⟩ := writesBuf_of_localEffect (s := s.setHost h) hne
    · exact .inl ha
    · exact .inr ⟨i, v, ha⟩
  | answeredFail h _ b hs hp tag rest hn =>
    obtain ⟨hsame, -⟩ | ⟨hop, -⟩ := txFail_memories tag b ((s.setHost h).setAnswers rest)
    · exact absurd hsame hne
    · exact .inr (.inr (.inl ⟨b, rest, hs, hp, hop, hn⟩))
  | resets r rest hd hv => exact .inr (.inr (.inr ⟨r, rest, hd.host, hv⟩))
  | completes w p rest hd hs i hi op a ha =>
    refine .inl ⟨hs, w, p, rest, i, hd.host, hi, ?_⟩
    cases ha with
    | bufWrite k v => exact .inl ⟨k, v, rfl⟩
    | setPixel x y on => exact .inr ⟨x, y, on, rfl⟩
    | bufRead | dirtyStatus => exact absurd rfl hne
  | waits | issues | ends | answeredOk | refuses | accepts => exact absurd rfl hne

/-- An effect that changes `DIRTY` is one of its writers', and writes what that one says. -/
theorem StepEffect.dirtyWriter {s t : State} (h : StepEffect s t) (hne : t.dirty ≠ s.dirty) : DirtyWriter s t := by
  cases h with
  | takesLocal h _ b hs hp a ha =>
    refine .inr (.inl ⟨b, hs, hp, ?_⟩)
    obtain ⟨pages, rfl, ht⟩ | ⟨i, v, rfl, ht⟩ := writesDirty_of_localEffect (s := s.setHost h) hne
    · exact .inl ⟨pages, ha, clearPages_length pages s.dirty, clearPages_get pages s.dirty⟩
    · exact .inr ⟨i, v, ha, ht⟩
  | answeredFail h _ b hs hp tag rest hn =>
    obtain ⟨-, hsame⟩ | ⟨hop, ht⟩ := txFail_memories tag b ((s.setHost h).setAnswers rest)
    · exact absurd hsame hne
    · exact .inr (.inr (.inl ⟨b, rest, hs, hp, hop, hn, ht⟩))
  | resets r rest hd hv => exact .inr (.inr (.inr ⟨r, rest, hd.host, hv, rfl⟩))
  | completes w p rest hd hs i hi op a ha =>
    refine .inl ⟨hs, w, p, rest, hd.host, ?_⟩
    cases ha with
    | bufWrite k v => exact .inl ⟨k, v, hi, rfl⟩
    | setPixel x y on old hx =>
      exact .inr ⟨x, y, on, hi, congrArg (s.dirty.set · (some true)) (pixelIndex_page hx)⟩
    | bufRead | dirtyStatus => exact absurd rfl hne
  | waits | issues | ends | answeredOk | refuses | accepts => exact absurd rfl hne

/-- Settles O45, from the effects of a step that change `BUF` or `DIRTY`. -/
theorem bufAndDirtyChangeOnlyByTheirWriters : Obligations.BufAndDirtyChangeOnlyByTheirWriters :=
  ⟨fun _ _ h => (step_effect h).bufWriter, fun _ _ h => (step_effect h).dirtyWriter⟩

end Sys2Proof.Machine
end

section
/-! PROOFS. The pixels of the display (spec/20_memory.md R71 to R73, spec/45_buffer_access.md R242): each has a bit of its
own, and SET_PIXEL writes that bit only. -/

namespace Sys2Proof.Machine

/-- A pixel is told by its cell and its bit: the page, the column and the bit of two pixels never coincide (R73). -/
theorem pixel_eq_iff {c : Cfg} {x y x' y' : Nat} (hx : x < c.width) (hx' : x' < c.width) :
    (x' = x ∧ y' = y) ↔ (pixelIndex c x' y' = pixelIndex c x y ∧ y' % 8 = y % 8) := by
  constructor
  · rintro ⟨rfl, rfl⟩
    exact ⟨rfl, rfl⟩
  · rintro ⟨hcell, hbit⟩
    have hpage : y' / 8 = y / 8 := by rw [← pixelIndex_page hx', hcell, pixelIndex_page hx]
    rw [pixelIndex, pixelIndex, hpage] at hcell
    exact ⟨Nat.add_left_cancel hcell, by omega⟩

/-- Writing a pixel's byte back with its bit set or cleared changes that pixel and no other. -/
theorem Memory.read_write_pixel {c : Cfg} {m : Memory} {x y x' y' : Nat} {old before : Byte} (on : Bool)
    (hx : x < c.width) (hx' : x' < c.width) (hold : m.read (pixelIndex c x y) = some old)
    (hbefore : m.read (pixelIndex c x' y') = some before) :
    ∃ after, (m.write (pixelIndex c x y) (pixelByte old y on)).read (pixelIndex c x' y') = some after ∧
      after.getLsbD (y' % 8) = if x' = x ∧ y' = y then on else before.getLsbD (y' % 8) := by
  simp only [pixel_eq_iff hx hx', Memory.read_write]
  by_cases hcell : pixelIndex c x' y' = pixelIndex c x y
  · obtain rfl : old = before := Option.some.inj (by rw [← hold, ← hbefore, hcell])
    refine ⟨pixelByte old y on, if_pos hcell, ?_⟩
    rw [pixelByte_bit _ _ _ _ (Nat.mod_lt _ (by decide))]
    simp only [hcell, true_and]
  · exact ⟨before, by rw [if_neg hcell, hbefore], by rw [if_neg fun h => hcell h.1]⟩

/-- An accepted SET_PIXEL is its one local action and its response (R242). -/
theorem exec_setPixel {s : State} {x y old : Byte} (on : Bool) (hr : s.refused = none) (hs : s.seq = .idle)
    (hi : s.init = true) (hx : x.toNat < s.cfg.width) (hy : y.toNat < s.cfg.height)
    (hold : s.buf.read (pixelIndex s.cfg x.toNat y.toNat) = some old) :
    exec (.setPixel x y on) s = runImmediate .setPixel
      [.bufSet (pixelIndex s.cfg x.toNat y.toNat) (pixelByte old y.toNat on)] s := by
  show execSetPixel x y on s = _
  rw [execSetPixel, whenAdmitted_ready _ hr hs fun _ => hi, if_neg (by omega), hold]

/-- Settles O52: the written cell and bit are the pixel's own. -/
theorem setPixelChangesOnePixel : Obligations.SetPixelChangesOnePixel := by
  intro s x y x' y' on hr hs hi hv hdef hx hy hx' hy'
  obtain ⟨-, ⟨-, -, hheight⟩, -⟩ := (Cfg_valid_iff s.cfg).mp hv
  obtain ⟨old, hold⟩ := Option.ne_none_iff_exists'.mp (hdef _ (pixelIndex_lt hheight hx hy))
  obtain ⟨before, hbefore⟩ := Option.ne_none_iff_exists'.mp (hdef _ (pixelIndex_lt hheight hx' hy'))
  obtain ⟨after, hafter, hbit⟩ := Memory.read_write_pixel on hx hx' hold hbefore
  simp only [BitVec.toNat_inj] at hbit
  exact ⟨_, before, after, exec_setPixel on hr hs hi hx hy hold, hbefore, hafter, hbit⟩

end Sys2Proof.Machine
end

section
/-! PROOFS. The refusal checks of ACCEPT (spec/40_sequencer.md R141, spec/60_exceptions.md R256): what a request is
answered with, from its opcode, the busy sequencer, its reserved bits, its payload length and `INIT`, in that order. -/

namespace Sys2Proof

/-- The assigned opcodes are the eleven of R104. -/
theorem Op.code_mem_assigned (op : Op) :
    op.code ∈ [0x01#8, 0x02#8, 0x10#8, 0x11#8, 0x12#8, 0x20#8, 0x30#8, 0x40#8, 0x41#8, 0x42#8, 0x50#8] := by
  cases op <;> decide

/-- A word without an assigned opcode does not decode (R105). -/
theorem decodeRequest_of_unassigned {w : ReqWord} (p : List Byte) (h : Op.ofCode (opcodeField w) = none) :
    decodeRequest w p = .error .unknownOp := by
  rw [decodeRequest, h]

/-- Behind an assigned opcode, the reserved bits are checked before the payload length (R103, R256). -/
theorem decodeRequest_of_assigned {w : ReqWord} {op : Op} (p : List Byte) (h : Op.ofCode (opcodeField w) = some op) :
    decodeRequest w p =
      if w &&& op.format.reserved ≠ 0#32 then .error .reservedBits
      else if p.length ≠ payloadCount op.format w then .error .lengthMismatch
      else .ok (op.build w p) := by
  rw [decodeRequest, h]

/-- Only format HN carries a payload (R102). -/
theorem payloadCount_eq (f : Format) (w : ReqWord) : payloadCount f w = if f = .hn then countField w else 0 := by
  cases f <;> rfl

/-- The operations that need `INIT = 1` (R221, R240 to R243). -/
def Op.needsInit : Op → Bool
  | .update | .bufWrite | .bufRead | .setPixel | .dirtyStatus => true
  | .sendCommand | .sendData | .setPage | .setColumn | .setPosition | .initializeDisplay => false

/-- What the refusal checks of an operation look at: its opcode, the reserved bits of its format, whether the format
carries a payload, and whether it needs `INIT = 1`. -/
def Op.checks (op : Op) : Byte × ReqWord × Bool × Bool :=
  (op.code, op.format.reserved, decide (op.format = .hn), op.needsInit)

namespace Machine

/-- A host request presented to a busy sequencer is refused, whatever it asks for (R141, R285). -/
theorem exec_request_busy {i : Instr} {s : State} {b : Busy} (hc : i.commandBytes s.cfg.pageBase = none)
    (hr : s.refused = none) (hs : s.seq = .busy b) : exec i s = refuse .busy s := by
  obtain ⟨needsInit, k, hk⟩ := exec_eq_whenAdmitted hc
  rw [hk, whenAdmitted_busy k hr hs]

/-- The operations that need `INIT = 1` are refused without it (R256). -/
theorem exec_build_uninit {op : Op} {s : State} (w : ReqWord) (p : List Byte) (hneeds : op.needsInit = true)
    (hr : s.refused = none) (hs : s.seq = .idle) (hi : s.init = false) :
    exec (op.build w p) s = refuse .uninit s := by
  cases op
  case update | bufWrite | bufRead | setPixel | dirtyStatus => exact whenAdmitted_uninit _ hr hs hi
  all_goals cases hneeds

/-- A word without an assigned opcode is refused, whatever the sequencer does (R105, R256). -/
theorem accept_of_unassigned {w : ReqWord} {s : State} (p : List Byte) (hr : s.refused = none)
    (h : Op.ofCode (opcodeField w) = none) : accept w p s = refuse .unknownOp s := by
  simp [accept, State.isRefused, hr, decodeRequest_of_unassigned p h]

/-- A word with an assigned opcode is refused by a busy sequencer, whether it decodes or not (R256). -/
theorem accept_of_busy {w : ReqWord} {op : Op} {s : State} {b : Busy} (p : List Byte) (hr : s.refused = none)
    (h : Op.ofCode (opcodeField w) = some op) (hs : s.seq = .busy b) : accept w p s = refuse .busy s := by
  have hadmits : ¬ s.isRefused = true := by simp [State.isRefused, hr]
  have hbusy : s.isBusy = true := by simp [State.isBusy, hs]
  rw [accept, if_neg hadmits, decodeRequest_of_assigned p h]
  split_ifs
  · rfl
  · rfl
  · exact exec_request_busy (by cases op <;> rfl) hr hs

/-- An idle sequencer answers a word with an assigned opcode by the decoder's checks, then by the operation's own (R141,
R256). -/
theorem accept_of_idle {w : ReqWord} {op : Op} {s : State} (p : List Byte) (hr : s.refused = none)
    (h : Op.ofCode (opcodeField w) = some op) (hs : s.seq = .idle) :
    accept w p s =
      if w &&& op.format.reserved ≠ 0#32 then refuse .reservedBits s
      else if p.length ≠ payloadCount op.format w then refuse .lengthMismatch s
      else exec (op.build w p) s := by
  have hadmits : ¬ s.isRefused = true := by simp [State.isRefused, hr]
  have hidle : ¬ s.isBusy = true := by simp [State.isBusy, hs]
  rw [accept, if_neg hadmits, decodeRequest_of_assigned p h]
  split_ifs
  · rfl
  · rfl
  · rfl

/-- Settles O4: an opcode outside the list names no operation. -/
theorem unassignedOpcodesAreRefused : Obligations.UnassignedOpcodesAreRefused := by
  intro s w p hr hw
  refine accept_of_unassigned p hr ?_
  cases hop : Op.ofCode (opcodeField w) with
  | none => rfl
  | some op =>
    have hcode : op.code = w.extractLsb' 24 8 := Op.code_of_ofCode hop
    exact absurd (hcode ▸ op.code_mem_assigned) hw

/-- Settles O5: each row is the checks of its operation, and ACCEPT makes them in that order. -/
theorem requestChecksComeInPriorityOrder : Obligations.RequestChecksComeInPriorityOrder := by
  intro row hrow s w p hr hw
  have hmem : row ∈ [Op.sendCommand, .sendData, .setPage, .setColumn, .setPosition, .initializeDisplay, .update,
    .bufWrite, .bufRead, .setPixel, .dirtyStatus].map Op.checks := hrow
  obtain ⟨op, -, rfl⟩ := List.mem_map.mp hmem
  have hop : Op.ofCode (opcodeField w) = some op := by
    rw [show opcodeField w = op.code from hw, Op.ofCode_code]
  have hcount : payloadCount op.format w = if op.checks.2.2.1 then (w.extractLsb' 0 16).toNat else 0 := by
    simp [payloadCount_eq, Op.checks, countField]
  rw [← hcount]
  refine ⟨fun ⟨b, hb⟩ => accept_of_busy p hr hop hb, fun hs hbits => ?_, fun hs hbits hlen => ?_,
    fun hs hbits hlen hneeds hi => ?_⟩
  · exact (accept_of_idle p hr hop hs).trans (if_pos hbits)
  · exact (accept_of_idle p hr hop hs).trans ((if_neg (not_not.mpr hbits)).trans (if_pos hlen))
  · calc accept w p s
        _ = exec (op.build w p) s := (accept_of_idle p hr hop hs).trans
            ((if_neg (not_not.mpr hbits)).trans (if_neg (not_not.mpr hlen)))
        _ = _ := exec_build_uninit w p hneeds hr hs hi

end Machine
end Sys2Proof
end

section
/-! PROOFS. The controller command rows on their way out (spec/30_encoding.md R100 (c), R109 to R112): exec of a row is
the ISSUE step of its bytes where they are the plan's next command write (log 9). -/

namespace Sys2Proof.Machine

/-- A controller command row whose bytes are the plan's next command write is issued (R143). -/
theorem exec_command_issues {i : Instr} {bytes : List Byte} {s : State} {b : Busy} {tag : Tag}
    (hi : i.commandBytes s.cfg.pageBase = some bytes) (hr : s.refused = none) (hs : s.seq = .busy b)
    (hp : b.pending = false) (ha : b.action = some (.wr s.cfg.regCmd bytes tag)) :
    exec i s = .next (issue s.cfg.regCmd bytes tag b s) := by
  rw [exec_command hi, emitCommand_next hr hs hp ha]

/-- While the host waits, the step that issues a row's bytes is exec of the row, behind the pause it takes off. -/
theorem step_eq_exec_command {i : Instr} {bytes : List Byte} {s : State} {b : Busy} {tag : Tag}
    (hi : i.commandBytes s.cfg.pageBase = some bytes) (hr : s.refused = none) (hs : s.seq = .busy b)
    (hp : b.pending = false) (ha : b.action = some (.wr s.cfg.regCmd bytes tag)) (hh : hostWaits 1 s.host) :
    step s = exec i { s with host := hostAfter 1 s.host } := by
  rw [step_issue hr hh hs hp ha]
  exact (exec_command_issues (s := s.setHost (hostAfter 1 s.host)) hi hr hs hp ha).symm

/-- Settles O7: each of the three hosts waits, and `hostAfter` says what it has left. -/
theorem stepIssuesAPlannedCommandAsItsRow : Obligations.StepIssuesAPlannedCommandAsItsRow := by
  intro s b bytes tag i hr hs hp ha hi
  have hstep := step_eq_exec_command hi hr hs hp ha
  have hkept (h : hostAfter 1 s.host = s.host) : ({ s with host := hostAfter 1 s.host } : State) = s := by rw [h]
  refine ⟨fun hh => ?_, fun rest hh => ?_, fun a rest hh => ?_⟩
  · rw [hstep (by rw [hh]; trivial), hkept (by rw [hh]; rfl)]
  · rw [hstep (by rw [hh]; trivial), hh]; rfl
  · rw [hstep (by rw [hh]; trivial), hkept (by rw [hh]; rfl)]

/-- The low column byte `0000 llll` is the nibble as a byte (R110). -/
theorem columnLow_byte (n : BitVec 4) : 0x0#4 ++ n = n.setWidth 8 := by revert n; decide

/-- The high column byte `0001 hhhh` is the nibble under the mark 0x10 (R111). -/
theorem columnHigh_byte (n : BitVec 4) : 0x1#4 ++ n = 0x10#8 ||| n.setWidth 8 := by revert n; decide

/-- Settles O23: the listed bytes are those of the rows. -/
theorem addressingCommandRowsAreIssued : Obligations.AddressingCommandRowsAreIssued := by
  intro s b tag n page hr hs hp row hrow ha
  have hbytes : row.1.commandBytes s.cfg.pageBase = some row.2 := by
    simp only [List.mem_cons, List.not_mem_nil, or_false] at hrow
    rcases hrow with rfl | rfl | rfl
    · simp only [Instr.commandBytes, columnLow_byte]
    · simp only [Instr.commandBytes, columnHigh_byte]
    · rfl
  exact exec_command_issues hbytes hr hs hp ha

end Sys2Proof.Machine
end

section
/-! PROOFS. The assembler (spec/30_encoding.md R115, R116): the checks of a line's operands become one check of the
line, and each form of a line that passes it is the request word written as a number (R102). -/

namespace Sys2Proof

/-! ### Request words as numbers (R102) -/

/-- A word of one or two operand bytes (formats HP, HC, HPC and HR). -/
theorem requestWord_ofNat (op : Op) {b c : Nat} (hb : b ≤ 255) (hc : c ≤ 255) :
    requestWord op 0#8 (BitVec.ofNat 8 b) (BitVec.ofNat 8 c) =
      BitVec.ofNat 32 (op.code.toNat * 2 ^ 24 + b * 256 + c) := by
  have hcode := op.code.isLt
  apply BitVec.eq_of_toNat_eq
  rw [requestWord_toNat]
  simp only [BitVec.toNat_ofNat]
  omega

/-- A word of a payload byte count (format HN). -/
theorem countWord_ofNat (op : Op) {n : Nat} (hn : n ≤ 65535) :
    op.code ++ 0#8 ++ BitVec.ofNat 16 n = BitVec.ofNat 32 (op.code.toNat * 2 ^ 24 + n) := by
  have hcode := op.code.isLt
  apply BitVec.eq_of_toNat_eq
  simp only [append_toNat, BitVec.toNat_ofNat]
  omega

/-- A word of a buffer index and a byte (formats HW and HI). -/
theorem indexWord_ofNat (op : Op) {i v : Nat} (hi : i ≤ 0xFFFF) (hv : v ≤ 255) :
    op.code ++ BitVec.ofNat 16 i ++ BitVec.ofNat 8 v = BitVec.ofNat 32 (op.code.toNat * 2 ^ 24 + i * 256 + v) := by
  have hcode := op.code.isLt
  apply BitVec.eq_of_toNat_eq
  simp only [append_toNat, BitVec.toNat_ofNat]
  omega

/-- The word of a pixel (format HX). -/
theorem pixelWord_ofNat (op : Op) {x y on : Nat} (hx : x ≤ 255) (hy : y ≤ 255) (hon : on ≤ 1) :
    op.code ++ 0#7 ++ BitVec.ofBool (decide (on = 1)) ++ BitVec.ofNat 8 y ++ BitVec.ofNat 8 x =
      BitVec.ofNat 32 (op.code.toNat * 2 ^ 24 + on * 65536 + y * 256 + x) := by
  have hcode := op.code.isLt
  have hbit : (BitVec.ofBool (decide (on = 1))).toNat = on := by interval_cases on <;> rfl
  apply BitVec.eq_of_toNat_eq
  simp only [append_toNat, BitVec.toNat_ofNat, hbit]
  omega

namespace Machine

/-! ### Operands (R115) -/

/-- The `on` operand is a bit. -/
theorem onOperand_eq (n : Nat) : onOperand n = if n ≤ 1 then .ok (decide (n = 1)) else .error .fieldRange := by
  match n with
  | 0 | 1 => rfl
  | n + 2 => simp [onOperand]

/-- One checked operand is one check. -/
theorem withOperand_ite {α : Type} (f : α → Instr) (p : Prop) [Decidable p] (v : α) (r : Reason) :
    withOperand f (if p then .ok v else .error r) = if p then .ok (f v) else .error r := by
  split_ifs <;> rfl

/-- Two checked operands are one check of both: each refuses with the same reason. -/
theorem withOperands_ite {α β : Type} (f : α → β → Instr) (p q : Prop) [Decidable p] [Decidable q] (v : α) (w : β)
    (r : Reason) :
    withOperands f (if p then .ok v else .error r) (if q then .ok w else .error r) =
      if p ∧ q then .ok (f v w) else .error r := by
  by_cases hp : p <;> by_cases hq : q <;> simp [hp, hq, withOperands]

/-- A byte list is checked as a whole. -/
theorem bytesOperand_eq (ns : List Nat) :
    bytesOperand ns =
      if (∀ n ∈ ns, n ≤ 255) ∧ ns.length ≤ 65535 then .ok (ns.map (BitVec.ofNat 8)) else .error .fieldRange := by
  simp [bytesOperand]

/-! ### Lines: one equation per form (R115) -/

/-- Requests of one payload are told apart by their words only. -/
theorem okRequest_congr {w w' : ReqWord} (p : List Byte) (h : w = w') :
    (.ok (.request w p) : Except Reason HostAct) = .ok (.request w' p) := by rw [h]

theorem assemble_sendCommand (npages : Nat) (bs : List Nat) :
    assemble npages (.sendCommand bs) =
      if (∀ b ∈ bs, b ≤ 255) ∧ bs.length ≤ 65535
      then .ok (.request (BitVec.ofNat 32 (0x01000000 + bs.length)) (bs.map (BitVec.ofNat 8)))
      else .error .fieldRange := by
  simp only [assemble, bytesOperand_eq, withOperand_ite]
  split_ifs with h
  · exact okRequest_congr _ (by rw [List.length_map]; exact countWord_ofNat .sendCommand h.2)
  · rfl

theorem assemble_sendData (npages : Nat) (bs : List Nat) :
    assemble npages (.sendData bs) =
      if (∀ b ∈ bs, b ≤ 255) ∧ bs.length ≤ 65535
      then .ok (.request (BitVec.ofNat 32 (0x02000000 + bs.length)) (bs.map (BitVec.ofNat 8)))
      else .error .fieldRange := by
  simp only [assemble, bytesOperand_eq, withOperand_ite]
  split_ifs with h
  · exact okRequest_congr _ (by rw [List.length_map]; exact countWord_ofNat .sendData h.2)
  · rfl

theorem assemble_setPage (npages p : Nat) :
    assemble npages (.setPage p) =
      if p ≤ 255 then .ok (.request (BitVec.ofNat 32 (0x10000000 + p)) []) else .error .fieldRange := by
  simp only [assemble, byteOperand, withOperand_ite]
  split_ifs with h
  · exact okRequest_congr _ (requestWord_ofNat .setPage (b := 0) (by decide) h)
  · rfl

theorem assemble_setColumn (npages x : Nat) :
    assemble npages (.setColumn x) =
      if x ≤ 255 then .ok (.request (BitVec.ofNat 32 (0x11000000 + x)) []) else .error .fieldRange := by
  simp only [assemble, byteOperand, withOperand_ite]
  split_ifs with h
  · exact okRequest_congr _ (requestWord_ofNat .setColumn (b := 0) (by decide) h)
  · rfl

theorem assemble_setPosition (npages x p : Nat) :
    assemble npages (.setPosition x p) =
      if x ≤ 255 ∧ p ≤ 255 then .ok (.request (BitVec.ofNat 32 (0x12000000 + p * 256 + x)) [])
      else .error .fieldRange := by
  simp only [assemble, byteOperand, withOperands_ite]
  split_ifs with h
  · exact okRequest_congr _ (requestWord_ofNat .setPosition h.2 h.1)
  · rfl

theorem assemble_update (npages a b : Nat) :
    assemble npages (.update a b) =
      if a ≤ 255 ∧ b ≤ 255 then .ok (.request (BitVec.ofNat 32 (0x30000000 + b * 256 + a)) [])
      else .error .fieldRange := by
  simp only [assemble, byteOperand, withOperands_ite]
  split_ifs with h
  · exact okRequest_congr _ (requestWord_ofNat .update h.2 h.1)
  · rfl

theorem assemble_bufWrite (npages i v : Nat) :
    assemble npages (.bufWrite i v) =
      if i ≤ 0xFFFF ∧ v ≤ 255 then .ok (.request (BitVec.ofNat 32 (0x40000000 + i * 256 + v)) [])
      else .error .fieldRange := by
  simp only [assemble, indexOperand, byteOperand, withOperands_ite]
  split_ifs with h
  · exact okRequest_congr _ (indexWord_ofNat .bufWrite h.1 h.2)
  · rfl

theorem assemble_bufRead (npages i : Nat) :
    assemble npages (.bufRead i) =
      if i ≤ 0xFFFF then .ok (.request (BitVec.ofNat 32 (0x41000000 + i * 256)) []) else .error .fieldRange := by
  simp only [assemble, indexOperand, withOperand_ite]
  split_ifs with h
  · exact okRequest_congr _ (indexWord_ofNat .bufRead (v := 0) h (by decide))
  · rfl

theorem assemble_setPixel (npages x y on : Nat) :
    assemble npages (.setPixel x y on) =
      if x ≤ 255 ∧ y ≤ 255 ∧ on ≤ 1
      then .ok (.request (BitVec.ofNat 32 (0x42000000 + on * 65536 + y * 256 + x)) [])
      else .error .fieldRange := by
  by_cases hx : x ≤ 255
  · simp only [assemble, byteOperand, onOperand_eq, withOperands_ite, hx, if_true, true_and]
    split_ifs with h
    · exact okRequest_congr _ (pixelWord_ofNat .setPixel hx h.1 h.2)
    · rfl
  · simp only [assemble, byteOperand, hx, if_false, false_and]

/-! ### Submitting a line (R253) -/

/-- A line that assembles is the host action it stands for. -/
theorem submitLine_of_ok {line : AsmLine} {s : State} {a : HostAct} (hr : s.refused = none)
    (h : assemble s.cfg.npages line = .ok a) : submitLine line s = hostAct a s := by
  simp [submitLine, State.isRefused, hr, h]

/-- A line that does not assemble is refused with the assembler's reason. -/
theorem submitLine_of_error {line : AsmLine} {s : State} {e : Reason} (hr : s.refused = none)
    (h : assemble s.cfg.npages line = .error e) : submitLine line s = refuse e s := by
  simp [submitLine, State.isRefused, hr, h]

/-- Settles O60, clause by clause from the equation of each form; the short forms unfold to the forms they stand for. -/
theorem assemblerChecksFieldsAndExpandsShortForms : Obligations.AssemblerChecksFieldsAndExpandsShortForms := by
  intro n npages a b
  refine ⟨fun bs hlen hbytes => ?_, fun hn => ?_, fun ha hb => ?_, fun hn => ?_, rfl, rfl, fun r => rfl,
    fun hn line hline => ?_, fun hn line hline => ?_, fun hn => ?_, fun bs hbad => ?_, rfl, rfl, rfl,
    fun s line hr => ?_⟩
  · exact ⟨(assemble_sendCommand npages bs).trans (if_pos ⟨hbytes, hlen⟩),
      (assemble_sendData npages bs).trans (if_pos ⟨hbytes, hlen⟩)⟩
  · exact ⟨(assemble_setPage npages n).trans (if_pos hn), (assemble_setColumn npages n).trans (if_pos hn)⟩
  · exact ⟨(assemble_setPosition npages a b).trans (if_pos ⟨ha, hb⟩),
      (assemble_update npages a b).trans (if_pos ⟨ha, hb⟩),
      fun hon => (assemble_setPixel npages a b n).trans (if_pos ⟨ha, hb, hon⟩)⟩
  · exact ⟨(assemble_bufRead npages n).trans (if_pos hn),
      fun ha => (assemble_bufWrite npages n a).trans (if_pos ⟨hn, ha⟩)⟩
  · simp only [List.mem_cons, List.not_mem_nil, or_false] at hline
    rcases hline with rfl | rfl | rfl | rfl | rfl | rfl | rfl | rfl | rfl | rfl
    · exact (assemble_setPage npages n).trans (if_neg (by omega))
    · exact (assemble_setColumn npages n).trans (if_neg (by omega))
    · exact (assemble_setPosition npages n a).trans (if_neg (by omega))
    · exact (assemble_setPosition npages a n).trans (if_neg (by omega))
    · exact (assemble_update npages n a).trans (if_neg (by omega))
    · exact (assemble_update npages a n).trans (if_neg (by omega))
    · exact (assemble_update npages n (npages - 1)).trans (if_neg (by omega))
    · exact (assemble_bufWrite npages a n).trans (if_neg (by omega))
    · exact (assemble_setPixel npages n a b).trans (if_neg (by omega))
    · exact (assemble_setPixel npages a n b).trans (if_neg (by omega))
  · simp only [List.mem_cons, List.not_mem_nil, or_false] at hline
    rcases hline with rfl | rfl
    · exact (assemble_bufRead npages n).trans (if_neg (by omega))
    · exact (assemble_bufWrite npages n a).trans (if_neg (by omega))
  · exact (assemble_setPixel npages a b n).trans (if_neg (by omega))
  · have hnot : ¬ ((∀ x ∈ bs, x ≤ 255) ∧ bs.length ≤ 65535) := by
      rintro ⟨hbytes, hlen⟩
      rcases hbad with hlong | ⟨x, hx, hbig⟩
      · omega
      · exact absurd (hbytes x hx) (by omega)
    exact ⟨(assemble_sendCommand npages bs).trans (if_neg hnot), (assemble_sendData npages bs).trans (if_neg hnot)⟩
  · exact ⟨fun w p h => submitLine_of_ok hr h, fun r h => submitLine_of_ok hr h, fun e h => submitLine_of_error hr h⟩

end Machine
end Sys2Proof
end

section
/-! PROOFS. Which requests and command rows are executed (spec/40_sequencer.md R141, R143): ACCEPT of a
request that decodes is exec of its instruction; a command row that is not the plan's next write stops by name (log 9). -/

namespace Sys2Proof.Machine

/-- ACCEPT of a request that decodes is exec of its instruction (R141). -/
theorem accept_of_decoded {w : ReqWord} {p : List Byte} {i : Instr} {s : State} (hr : s.refused = none)
    (hd : decodeRequest w p = .ok i) : accept w p s = exec i s := by
  simp [accept, State.isRefused, hr, hd]

/-- Settles O6: the host drives the request, and ACCEPT executes it. -/
theorem stepRunsTheDecodedRequest : Obligations.StepRunsTheDecodedRequest := by
  intro s w p rest i hr hd hh
  have hdrives : s.hostDrives (.request w p) rest := hh
  calc step s
    _ = accept w p (s.setHost rest) := step_hostDrives hr hdrives
    _ = exec i (s.setHost rest) := accept_of_decoded hr hd

/-- A command write that is not the plan's next action is not issued as a row (log 9). -/
theorem emitCommand_of_not_next {bytes : List Byte} {s : State} (hr : s.refused = none)
    (hn : ∀ b, s.seq = .busy b → b.pending = true ∨ ∀ tag, b.action ≠ some (.wr s.cfg.regCmd bytes tag)) :
    emitCommand bytes s = .refused .commandNotEnabled := by
  rw [emitCommand, if_neg (by simp [hr])]
  split
  · rfl
  · next b hs =>
    split
    · next reg payload tag hp ha =>
      rw [if_neg]
      rintro ⟨rfl, rfl⟩
      rcases hn b hs with hpending | hother
      · cases hp.symm.trans hpending
      · exact hother tag ha
    · rfl

/-- Settles O25: a row is the issue of its bytes, which is not enabled there. -/
theorem commandRowsStopWhereTheyAreNotNext : Obligations.CommandRowsStopWhereTheyAreNotNext := by
  intro s i bytes hr hi hn
  rw [exec_command hi]
  refine emitCommand_of_not_next hr fun b hs => ?_
  rcases hn with hidle | ⟨b', hb', hnext⟩
  · cases hs.symm.trans hidle
  · cases hs.symm.trans hb'
    exact hnext

end Sys2Proof.Machine
end

section
/-! PROOFS. The execution steps of a busy sequencer while the host waits (spec/40_sequencer.md R143 to R148) and the abort
(spec/60_exceptions.md R254): each step as one update of the state. -/

namespace Sys2Proof.Machine

/-- Settles O26: ISSUE is this update. -/
theorem issueLogsThePendingWrite : Obligations.IssueLogsThePendingWrite :=
  fun _ _ _ _ _ hr hh hs hp ha => step_issue hr hh hs hp ha

/-- Settles O30: DONE is this update. -/
theorem doneAnswersOkAndGoesIdle : Obligations.DoneAnswersOkAndGoesIdle :=
  fun _ _ hr hh hs hp hpc => step_done hr hh hs hp hpc

/-- Settles O29, action by action: LOCAL applies what R142 says, and the two memories read as it says. -/
theorem localActionsHaveTheirEffect : Obligations.LocalActionsHaveTheirEffect := by
  intro s b hr hh hs hp
  have hstep {a : Action} (ha : b.action = some a) (hw : a.isWrite = false) :
      step s = .next (localStep a b (s.setHost (hostAfter 1 s.host))) := step_local hr hh hs hp ha hw
  refine ⟨fun ha => ?_, fun pages ha => ?_, fun ha => ?_, fun i v ha => ?_, fun r ha => ?_⟩
  · exact ⟨Memory.zeros s.cfg.nbytes, hstep ha rfl, Memory.read_zeros s.cfg.nbytes⟩
  · exact ⟨clearPages pages s.dirty, hstep ha rfl, clearPages_length pages s.dirty, clearPages_get pages s.dirty⟩
  · exact hstep ha rfl
  · exact ⟨s.buf.write i v, hstep ha rfl, s.buf.read_write_same i v, fun _ hj => s.buf.read_write_other v hj⟩
  · exact hstep ha rfl

/-- The abort effect field by field: it writes `INIT`, `BUF` and `DIRTY`, and only for INITIALIZE (R205, R254). -/
theorem abortEffect_eq (op : Byte) (s : State) : abortEffect op s = { s with
    init := if op = 0x20#8 then false else s.init
    buf := if op = 0x20#8 then [] else s.buf
    dirty := if op = 0x20#8 then List.replicate s.cfg.npages none else s.dirty } := by
  by_cases hop : op = 0x20#8
  · subst hop
    rfl
  · rw [if_neg hop, if_neg hop, if_neg hop]
    exact if_neg hop

/-- The abort has no effect for an operation other than INITIALIZE (R254). -/
theorem abortEffect_of_ne {op : Byte} (hop : op ≠ 0x20#8) (s : State) : abortEffect op s = s := if_neg hop

/-- The abort of INITIALIZE clears `INIT` and leaves no value in `BUF` and `DIRTY` (R205). -/
theorem abortEffect_initialize (s : State) : abortEffect 0x20#8 s =
    { s with init := false, buf := [], dirty := List.replicate (s.cfg.height / 8) none } := rfl

/-- The step at a write that the transport answers FAIL: over the abort effect of the operation, the last event of `TXLOG`
is settled, the failure record is the response, and the sequencer is idle (R145, R254). -/
theorem step_txFail {s : State} {b : Busy} {reg : Byte} {payload : List Byte} {tag : Tag} {before : List TxEvent}
    {e : TxEvent} {rest : List Answer} (hr : s.refused = none) (hh : hostWaits 1 s.host) (hs : s.seq = .busy b)
    (hp : b.pending = true) (ha : b.action = some (.wr reg payload tag)) (hl : s.txlog = before ++ [e])
    (hn : s.answers = .fail :: rest) :
    step s = .next { abortEffect b.op s with
      txlog := before ++ [{ e with result := .fail }]
      rsplog := s.rsplog ++ [{ op := b.op, status := .transportFail, value := .empty,
                               fail := some { op := b.op, wrIndex := b.nwr, tag := tag } }]
      seq := .idle
      host := hostAfter 1 s.host
      answers := rest } := by
  rw [(step_answer hr hh hs hp ha (by simp [hl]) hn).2 rfl]
  simp only [txFail, State.setAnswers_txlog, State.setHost_txlog, hl, setLastResult_append]
  rw [raiseTransportFailure, abortEffect_eq, abortEffect_eq]
  rfl

/-- Settles O27: the transport's answer is the step, and TX_OK settles the last event. -/
theorem okAnswerCompletesTheWrite : Obligations.OkAnswerCompletesTheWrite := by
  intro s b reg payload tag before e rest hr hh hs hp ha hl hn
  rw [(step_answer hr hh hs hp ha (by simp [hl]) hn).1 rfl]
  simp only [txOk, State.setAnswers_txlog, State.setHost_txlog, hl, setLastResult_append]
  rfl

/-- Settles O28, from the two abort effects. -/
theorem failAnswerAbortsTheOperation : Obligations.FailAnswerAbortsTheOperation := by
  intro s b reg payload tag before e rest hr hh hs hp ha hl hn
  have hstep := step_txFail hr hh hs hp ha hl hn
  refine ⟨fun hop => ?_, fun hop => ⟨[], _, ?_, Memory.read_nil, rfl⟩⟩
  · rwa [abortEffect_of_ne hop] at hstep
  · rwa [hop, abortEffect_initialize, ← hop] at hstep

/-! ### Waiting (R146, R153) -/

/-- Nothing happens in the next n steps: the sequencer is idle and the host only pauses, or a write is pending and
neither the transport answers nor the host acts. -/
def Stalled (n : Nat) (s : State) : Prop :=
  (s.seq = .idle ∧ ∀ e ∈ s.host, e = .pause) ∨
    (hostWaits n s.host ∧ ∃ b, s.seq = .busy b ∧ b.pending = true ∧ s.answers = [])

/-- A step of an idle block whose host only pauses takes a pause off, if there is one (R153). -/
theorem step_idle {s : State} (hr : s.refused = none) (hs : s.seq = .idle) (hh : ∀ e ∈ s.host, e = .pause) :
    step s = .next (s.setHost (hostAfter 1 s.host)) := by
  cases hhost : s.host with
  | nil =>
    have hsame : s.setHost [] = s := by rw [← hhost]; rfl
    simp [step, advance, State.isRefused, blockStep, hr, hs, hhost, hsame]
  | cons e rest =>
    obtain rfl : e = .pause := hh e (by simp [hhost])
    simp [step, advance, State.isRefused, blockStep, hr, hs, hhost, hostAfter]

/-- A pending write without an answer waits (R146). -/
theorem step_unanswered {s : State} {b : Busy} (hr : s.refused = none) (hh : hostWaits 1 s.host)
    (hs : s.seq = .busy b) (hp : b.pending = true) (hn : s.answers = []) :
    step s = .next (s.setHost (hostAfter 1 s.host)) := by
  rw [step_waits hr hh hs]
  simp [blockStep, hs, hp, hn]

/-- A stalled machine takes a pause of the host off, if there is one. -/
theorem Stalled.step {n : Nat} {s : State} (h : Stalled (n + 1) s) (hr : s.refused = none) :
    step s = .next (s.setHost (hostAfter 1 s.host)) := by
  rcases h with ⟨hs, hh⟩ | ⟨hh, b, hs, hp, hn⟩
  · exact step_idle hr hs hh
  · rw [Nat.add_comm] at hh
    exact step_unanswered hr ((hostWaits_add 1 n s.host).mp hh).1 hs hp hn

/-- It stays stalled for the steps that are left. -/
theorem Stalled.next {n : Nat} {s : State} (h : Stalled (n + 1) s) :
    Stalled n (s.setHost (hostAfter 1 s.host)) := by
  rcases h with ⟨hs, hh⟩ | ⟨hh, hbusy⟩
  · refine .inl ⟨hs, ?_⟩
    show ∀ e ∈ hostAfter 1 s.host, e = .pause
    cases hhost : s.host with
    | nil => nofun
    | cons e rest =>
      rw [hhost] at hh
      obtain rfl : e = .pause := hh e List.mem_cons_self
      rw [hostAfter, hostAfter_zero]
      exact fun x hx => hh x (List.mem_cons_of_mem _ hx)
  · rw [Nat.add_comm] at hh
    exact .inr ⟨((hostWaits_add 1 n s.host).mp hh).2, hbusy⟩

/-- Settles O31, by induction on the steps. -/
theorem anUnansweredWriteWaitsForEver : Obligations.AnUnansweredWriteWaitsForEver := by
  intro s n hr hstalled
  change Stalled n s at hstalled
  induction n generalizing s with
  | zero => rw [run_zero, hostAfter_zero]
  | succ n ih =>
    have hafter : hostAfter (n + 1) s.host = hostAfter n (hostAfter 1 s.host) := by
      rw [Nat.add_comm, hostAfter_add]
    rw [run_step (hstalled.step hr), ih (s := s.setHost (hostAfter 1 s.host)) hr hstalled.next, hafter]
    rfl

end Sys2Proof.Machine
end

section
/-! PROOFS. The run of one plan while the host waits (spec/40_sequencer.md R143 to R149): to its OK response, to its first
failed write, and the one-step form of an immediate operation. -/

namespace Sys2Proof.Machine

/-- Local actions write the two memories and `INIT` only (R142). -/
theorem runLocals_writes_only (plan : List Action) (s : State) :
    ∃ buf dirty init, runLocals plan s = { s with buf := buf, dirty := dirty, init := init } := by
  obtain ⟨hcfg, hseq, htx, hrsp, href, hhost, hans⟩ := runLocals_frame plan s
  exact ⟨(runLocals plan s).buf, (runLocals plan s).dirty, (runLocals plan s).init,
    State.eq_of_fields hcfg rfl rfl rfl hseq htx hrsp href hhost hans⟩

/-- The state of a plan behind its first actions `mid`, their writes answered OK; `after` is still to run, and the transport
has the answers `rest` left (R143, R144, R147). -/
def State.behind (s : State) (op : Byte) (mid after : List Action) (rest : List Answer) : State :=
  { runLocals mid s with
    txlog := s.txlog ++ planEvents s.cfg.devAddr .ok mid
    seq := .busy { op := op, plan := mid ++ after, pc := mid.length, pending := false, nwr := writeCount mid,
                   ret := planValue mid .empty }
    host := hostAfter (mid.length + writeCount mid) s.host
    answers := rest }

/-- A plan runs through its first actions. -/
theorem run_behind {s : State} {op : Byte} {mid after : List Action} {rest : List Answer} (hr : s.refused = none)
    (hh : hostWaits (mid.length + writeCount mid) s.host)
    (hs : s.seq = .busy { op := op, plan := mid ++ after, pc := 0, pending := false, nwr := 0, ret := .empty })
    (hn : s.answers = List.replicate (writeCount mid) .ok ++ rest) :
    run (mid.length + writeCount mid) s = .next (s.behind op mid after rest) := by
  simpa [State.behind] using run_actions (before := []) hr hh hs hn

/-- Nothing is refused on the way. -/
theorem State.behind_refused {s : State} (op : Byte) (mid after : List Action) (rest : List Answer)
    (hr : s.refused = none) : (s.behind op mid after rest).refused = none := by
  obtain ⟨-, -, -, -, href, -, -⟩ := runLocals_frame mid s
  exact href.trans hr

/-- Settles O53: the whole plan runs, and DONE follows. -/
theorem anAnsweredPlanRunsToDone : Obligations.AnAnsweredPlanRunsToDone := by
  intro s op plan rest hr hh hs hn
  rw [planSteps] at hh ⊢
  obtain ⟨hactions, hend⟩ := (hostWaits_add _ _ _).mp hh
  have hrun := run_behind (after := []) hr hactions (by rwa [List.append_nil]) hn
  have hdone := step_done (State.behind_refused op plan [] rest hr) hend rfl rfl (by simp)
  rw [run_append hrun, run_step hdone 0, hostAfter_add]
  obtain ⟨buf, dirty, init, hlocals⟩ := runLocals_writes_only plan s
  rw [State.behind, hlocals]
  rfl

/-- ISSUE of a write and its answer FAIL. -/
theorem run_issue_txFail {s : State} {b : Busy} {reg : Byte} {payload : List Byte} {tag : Tag} {rest : List Answer}
    (hr : s.refused = none) (hh : hostWaits 2 s.host) (hs : s.seq = .busy b) (hp : b.pending = false)
    (ha : b.action = some (.wr reg payload tag)) (hn : s.answers = .fail :: rest) :
    run 2 s = .next { abortEffect b.op s with
      txlog := s.txlog ++
        [{ addr := s.cfg.devAddr, reg := reg, payload := payload, tag := tag, result := .fail }]
      rsplog := s.rsplog ++ [{ op := b.op, status := .transportFail, value := .empty,
                               fail := some { op := b.op, wrIndex := b.nwr, tag := tag } }]
      seq := .idle
      host := hostAfter 2 s.host
      answers := rest } := by
  obtain ⟨hissue, hanswer⟩ := (hostWaits_add 1 1 _).mp hh
  have hfail := step_txFail (s := issue reg payload tag b (s.setHost (hostAfter 1 s.host)))
    (b := { b with pending := true }) hr hanswer rfl rfl ha rfl hn
  rw [run_step (step_issue hr hissue hs hp ha) 1, run_step hfail 0, hostAfter_add 1 1]
  rw [abortEffect_eq, abortEffect_eq]
  rfl

/-- A plan whose first failed write stands behind `before` ends there, under the abort effect of its operation (R145). -/
theorem run_to_failed_write {s : State} {op : Byte} {before after : List Action} {reg : Byte} {payload : List Byte}
    {tag : Tag} {rest : List Answer} (hr : s.refused = none)
    (hh : hostWaits (before.length + writeCount before + 2) s.host)
    (hs : s.seq = .busy { op := op, plan := before ++ .wr reg payload tag :: after, pc := 0, pending := false, nwr := 0,
                          ret := .empty })
    (hn : s.answers = List.replicate (writeCount before) .ok ++ .fail :: rest) :
    run (before.length + writeCount before + 2) s = .next { abortEffect op (runLocals before s) with
      txlog := s.txlog ++ planEvents s.cfg.devAddr .ok before ++
        [{ addr := s.cfg.devAddr, reg := reg, payload := payload, tag := tag, result := .fail }]
      rsplog := s.rsplog ++ [{ op := op, status := .transportFail, value := .empty,
                               fail := some { op := op, wrIndex := writeCount before, tag := tag } }]
      seq := .idle
      host := hostAfter (before.length + writeCount before + 2) s.host
      answers := rest } := by
  obtain ⟨hactions, hend⟩ := (hostWaits_add _ 2 _).mp hh
  have hnext : (before ++ Action.wr reg payload tag :: after)[before.length]? = some (.wr reg payload tag) := by simp
  have hfail := run_issue_txFail (State.behind_refused op before (.wr reg payload tag :: after) (.fail :: rest) hr)
    hend rfl rfl hnext rfl
  rw [run_append (run_behind hr hactions hs hn), hfail, hostAfter_add (before.length + writeCount before) 2]
  obtain ⟨buf, dirty, init, hlocals⟩ := runLocals_writes_only before s
  rw [State.behind, hlocals, abortEffect_eq, abortEffect_eq]

/-- Settles O54, from the run to the failed write and the two abort effects. -/
theorem aFailedWriteEndsThePlan : Obligations.AFailedWriteEndsThePlan := by
  intro s op before after reg payload tag rest hr hh hs hn
  have hrun := run_to_failed_write hr hh hs hn
  refine ⟨fun hop => ?_, fun hop => ⟨[], ?_, Memory.read_nil⟩⟩
  · rwa [abortEffect_of_ne hop] at hrun
  · obtain ⟨buf, dirty, init, hlocals⟩ := runLocals_writes_only before s
    subst hop
    rwa [hlocals, abortEffect_initialize] at hrun

/-! ### Immediate operations (R149) -/

/-- What a local action writes does not depend on the sequencer. -/
theorem localEffect_setSeq (a : Action) (s : State) (q : Seq) :
    localEffect a (s.setSeq q) = (localEffect a s).setSeq q := by cases a <;> rfl

/-- A plan of one local action runs to the state that the immediate operation answers in one step. -/
theorem run_split_immediate {s t : State} {op : Op} {a : Action} (hr : s.refused = none) (hs : s.seq = .idle)
    (hh : hostWaits 2 s.host) (hw : a.isWrite = false) (ht : runImmediate op [a] s = .next t) :
    run 2 (s.setSeq (.busy (Busy.start op [a]))) = .next { t with host := hostAfter 2 s.host } := by
  have hcount : writeCount [a] = 0 := by simp [writeCount, hw]
  have hsteps : planSteps [a] = 2 := by rw [planSteps, hcount]; rfl
  have hrun := anAnsweredPlanRunsToDone (s.setSeq (.busy (Busy.start op [a]))) op.code [a] s.answers hr
    (hsteps ▸ hh) rfl (by rw [hcount]; rfl)
  rw [hsteps, planEvents_of_local hw, List.append_nil] at hrun
  cases ht
  obtain ⟨buf, dirty, init, hlocal⟩ := runLocals_writes_only [a] s
  have hsplit : runLocals [a] (s.setSeq (.busy (Busy.start op [a]))) =
      (runLocals [a] s).setSeq (.busy (Busy.start op [a])) := localEffect_setSeq a s _
  rw [hrun, hsplit, hlocal, ← hs]
  rfl

/-- An operation that is admitted and refuses nothing is its own meaning. -/
theorem whenAdmitted_completed {needsInit : Bool} {s t : State} {k : Out} (h : whenAdmitted needsInit s k = .next t)
    (ht : t.refused = none) : k = .next t := by
  rcases whenAdmitted_next h with ⟨r, rfl⟩ | ⟨-, -, -, hk⟩
  · cases ht
  · exact hk

/-- An operation that refuses nothing passed its range check. -/
theorem unless_refused {c : Prop} [Decidable c] {r : Reason} {s t : State} {k : Out}
    (h : (if c then refuse r s else k) = .next t) (ht : t.refused = none) : k = .next t := by
  split at h
  · cases h
    cases ht
  · exact h

/-- Dirty bits that hold a value are read as they are. -/
theorem dirtyBits_map_some (d : List Bool) : dirtyBits (d.map some) = some d := by
  induction d with
  | nil => rfl
  | cons b rest ih => simp [dirtyBits, ih]

/-- Settles O21: each immediate operation, once admitted and in range, is the one local action of its split form. -/
theorem immediateOperationsEqualTheirSplitForm : Obligations.ImmediateOperationsEqualTheirSplitForm := by
  intro s hr hs hh
  refine ⟨fun k v t h ht => ?_, fun k b t h ht hb => ?_, fun x y on old t h ht hold => ?_, fun d t h ht hd => ?_⟩
  · exact run_split_immediate hr hs hh rfl (op := .bufWrite) (unless_refused (whenAdmitted_completed h ht) ht)
  · have hk := unless_refused (whenAdmitted_completed h ht) ht
    rw [hb] at hk
    exact run_split_immediate hr hs hh rfl (op := .bufRead) hk
  · have hk := unless_refused (whenAdmitted_completed h ht) ht
    rw [pixelIndex, hold] at hk
    exact run_split_immediate hr hs hh rfl (op := .setPixel) hk
  · have hk := whenAdmitted_completed h ht
    rw [hd, dirtyBits_map_some] at hk
    exact run_split_immediate hr hs hh rfl (op := .dirtyStatus) hk

end Sys2Proof.Machine
end

section
/-! PROOFS. The framer (spec/41_framer.md): the plans of SEND_COMMAND and SEND_DATA (R161, R164), the chunks of a payload
(R162, R165), and the size, selector and address of every issued write (R167, R108, R74). -/

namespace Sys2Proof.Machine

/-! ### SEND_COMMAND and SEND_DATA at an idle block -/

section
variable {s : State} (p : List Byte) (hr : s.refused = none) (hs : s.seq = .idle)
include hr hs

/-- An admitted SEND_COMMAND is its own length check and plan (R161). -/
theorem exec_sendCommand : exec (.sendCommand p) s =
    if p.length = 0 then refuse .emptyCmd s
    else if s.cfg.dataSize < p.length then refuse .cmdTooLong s
    else acceptPlan .sendCommand (cmdW s.cfg p cmdTag) s := whenAdmitted_ready _ hr hs nofun

/-- An admitted SEND_DATA is accepted, whatever its payload (R164). -/
theorem exec_sendData : exec (.sendData p) s = acceptPlan .sendData (dataW s.cfg p .data none) s :=
  whenAdmitted_ready _ hr hs nofun

end

/-- Settles O8: one case per outcome of the length check. -/
theorem sendCommandIsAcceptedAsOneWrite : Obligations.SendCommandIsAcceptedAsOneWrite := by
  intro s p hr hs
  rw [exec_sendCommand p hr hs]
  refine ⟨fun hpos hfits => ?_, fun hempty => ?_, fun hne hlong => ?_⟩
  · rw [if_neg (Nat.ne_of_gt hpos), if_neg (Nat.not_lt.mpr hfits)]
    rfl
  · rw [if_pos hempty]
    rfl
  · rw [if_neg hne, if_pos hlong]
    rfl

/-- Settles O9: the plan is DATAW of the payload, one write per slice. -/
theorem sendDataIsAcceptedAsItsChunks : Obligations.SendDataIsAcceptedAsItsChunks := by
  intro s p hr hs _
  rw [exec_sendData p hr hs, dataW_eq_map]
  rfl

/-! ### The chunks of a payload (R165) -/

/-- Chunk k is the payload's range from `k*size` to `min((k+1)*size, L)` (R162). -/
theorem chunks_getElem?_eq_range {size k : Nat} {bs : List Byte} (hk : k < (chunks size bs).length) :
    (chunks size bs)[k]? = some ((bs.take (min ((k + 1) * size) bs.length)).drop (k * size)) := by
  have hslice : (chunks size bs)[k]? = some ((bs.drop (k * size)).take size) := by
    rw [List.getElem?_eq_getElem hk]
    simp [chunks]
  rw [hslice, List.take_drop, ← Nat.succ_mul, List.take_eq_take_min]

/-- An empty payload has no chunk. -/
theorem chunks_nil {size : Nat} (h : 1 ≤ size) : chunks size [] = [] := by
  apply List.eq_nil_of_length_eq_zero
  rw [chunks_length]
  exact Nat.div_eq_of_lt (by simp; omega)

/-- Settles O48: the writes of the accepted plan carry the chunks of the payload. -/
theorem chunkingLaws : Obligations.ChunkingLaws := by
  intro s p hr hs hsize
  refine ⟨_, Busy.start .sendData (dataW s.cfg p .data none), chunks s.cfg.dataSize p,
    (exec_sendData p hr hs).trans (acceptPlan_eq _ _ s), rfl, dataW_eq s.cfg p .data none, chunks_length _ p, ?_,
    fun _ => chunk_length_of_mem hsize, chunks_flatten hsize p, fun _ => chunks_getElem?_eq_range⟩
  rintro rfl
  exact chunks_nil hsize

/-! ### The issued writes (R167) -/

/-- Setting the last result keeps the length of the log. -/
theorem setLastResult_length (r : TxResult) (log : List TxEvent) : (setLastResult r log).length = log.length := by
  rcases List.eq_nil_or_concat' log with rfl | ⟨before, e, rfl⟩
  · rfl
  · simp [setLastResult_append]

/-- So does abandoning the pending write at a reset (R283). -/
theorem abandonPending_length (s : State) : (abandonPending s).length = s.txlog.length := by
  unfold abandonPending
  split
  · rfl
  · split
    · exact setLastResult_length .abandoned s.txlog
    · rfl

/-- ISSUE of the plan's next write is the one effect that makes `TXLOG` longer (R37, R143). -/
theorem StepEffect.txlog_longer_only_by_issue {s t : State} (h : StepEffect s t) :
    t.txlog.length = s.txlog.length ∨
    ∃ b reg payload tag, s.seq = .busy b ∧ b.action = some (.wr reg payload tag) ∧ t.txlog = s.txlog ++
      [{ addr := s.cfg.devAddr, reg := reg, payload := payload, tag := tag, result := .pending }] := by
  cases h with
  | issues h _ b hs _ reg payload tag ha => exact .inr ⟨b, reg, payload, tag, hs, ha, rfl⟩
  | takesLocal h _ b _ _ a =>
    obtain ⟨-, -, htx, -⟩ := localEffect_frame a (s.setHost h)
    exact .inl (congrArg List.length htx)
  | answeredOk => exact .inl (setLastResult_length .ok s.txlog)
  | answeredFail h _ b _ _ tag rest =>
    obtain ⟨-, -, htx, -⟩ := txFail_frame tag b ((s.setHost h).setAnswers rest)
    exact .inl ((congrArg List.length htx).trans (setLastResult_length .fail s.txlog))
  | resets _ rest => exact .inl (abandonPending_length (s.setHost rest))
  | completes _ _ rest _ _ _ _ _ a =>
    obtain ⟨-, -, htx, -⟩ := localEffect_frame a (s.setHost rest)
    exact .inl (congrArg List.length htx)
  | waits | ends | refuses | accepts => exact .inl rfl

/-- Settles O47: an appended event is a write of the running plan, whose actions the invariant keeps in range. -/
theorem issuedWritesStayWithinTheChunkLimit : Obligations.IssuedWritesStayWithinTheChunkLimit := by
  intro s t e hi hstep happ
  rcases (step_effect hstep).txlog_longer_only_by_issue with hlen | ⟨b, reg, payload, tag, hs, ha, htx⟩
  · simp [happ] at hlen
  · have he := List.singleton_inj.mp (List.append_cancel_left (happ.symm.trans htx))
    obtain ⟨hreg, hpos, hfits⟩ := (hi.busyOk b hs).actions _ (Busy.mem_plan_of_action ha)
    subst he
    exact ⟨hpos, hfits, hreg, rfl⟩

end Sys2Proof.Machine
end

section
/-! PROOFS. The addressing encoder (spec/42_addressing.md): the actions of the column and the position command by framing
(R182, R184), the plans of SET_PAGE, SET_COLUMN and SET_POSITION (R181, R183, R185), and the encoder laws (R187). -/

namespace Sys2Proof.Machine

/-! ### The fragments by framing (R182, R184) -/

section
variable {c : Cfg} (x : Byte) (ph : Phase)

theorem colCmd_split (pg : Option Nat) (hf : c.colFraming = .split) : colCmd c x pg ph =
    [.wr c.regCmd [colLow x] (addrTag ph pg), .wr c.regCmd [colHigh x] (addrTag ph pg)] := by
  rw [colCmd, hf]
  rfl

theorem colCmd_joined (pg : Option Nat) (hf : c.colFraming = .joined) : colCmd c x pg ph =
    [.wr c.regCmd [colLow x, colHigh x] (addrTag ph pg)] := by
  rw [colCmd, hf]
  rfl

theorem posCmd_split (p : Nat) (hf : c.colFraming = .split) : posCmd c x p ph =
    [.wr c.regCmd [pageByte c p] (addrTag ph (some p)), .wr c.regCmd [colLow x] (addrTag ph (some p)),
     .wr c.regCmd [colHigh x] (addrTag ph (some p))] := by
  rw [posCmd, colCmd_split x ph _ hf]
  rfl

theorem posCmd_joined (p : Nat) (hf : c.colFraming = .joined) : posCmd c x p ph =
    [.wr c.regCmd [pageByte c p] (addrTag ph (some p)),
     .wr c.regCmd [colLow x, colHigh x] (addrTag ph (some p))] := by
  rw [posCmd, colCmd_joined x ph _ hf]
  rfl

end

/-- Settles O15: the position command in each framing, its bytes those of R109 to R111. -/
theorem positionCommandIsPageThenColumn : Obligations.PositionCommandIsPageThenColumn :=
  fun _ x p ph => ⟨posCmd_split x ph p, posCmd_joined x ph p⟩

/-! ### SET_PAGE, SET_COLUMN and SET_POSITION at an idle block -/

section
variable {s : State} (x page : Byte) (hr : s.refused = none) (hs : s.seq = .idle)
include hr hs

/-- An admitted SET_PAGE is its page check and plan (R181). -/
theorem exec_setPage : exec (.setPage page) s =
    if s.cfg.npages ≤ page.toNat then refuse .pageRange s
    else acceptPlan .setPage (pageCmd s.cfg page.toNat .addr) s := whenAdmitted_ready _ hr hs nofun

/-- An admitted SET_COLUMN is accepted, whatever its column (R183). -/
theorem exec_setColumn : exec (.setColumn x) s = acceptPlan .setColumn (colCmd s.cfg x none .addr) s :=
  whenAdmitted_ready _ hr hs nofun

/-- An admitted SET_POSITION is its page check and plan (R185). -/
theorem exec_setPosition : exec (.setPosition x page) s =
    if s.cfg.npages ≤ page.toNat then refuse .pageRange s
    else acceptPlan .setPosition (posCmd s.cfg x page.toNat .addr) s := whenAdmitted_ready _ hr hs nofun

end

/-- Settles O10: one case per outcome of the page check. -/
theorem setPageIsAcceptedAsOneByte : Obligations.SetPageIsAcceptedAsOneByte := by
  intro s page hr hs
  rw [exec_setPage page hr hs]
  refine ⟨fun (hpage : page.toNat < s.cfg.npages) => ?_, fun (hpage : s.cfg.npages ≤ page.toNat) => ?_⟩
  · rw [if_neg (Nat.not_le.mpr hpage), ← pageByte_ofByte]
    rfl
  · rw [if_pos hpage]
    rfl

/-- Settles O11: one case per framing. -/
theorem setColumnIsAcceptedLowByteFirst : Obligations.SetColumnIsAcceptedLowByteFirst := by
  intro s x hr hs
  rw [exec_setColumn x hr hs]
  cases hf : s.cfg.colFraming with
  | split => rw [colCmd_split x .addr none hf]; rfl
  | joined => rw [colCmd_joined x .addr none hf]; rfl

/-- Settles O12: one case per outcome of the page check, the plan by framing. -/
theorem setPositionIsAcceptedPageFirst : Obligations.SetPositionIsAcceptedPageFirst := by
  intro s x page hr hs
  rw [exec_setPosition x page hr hs]
  refine ⟨fun (hpage : page.toNat < s.cfg.npages) => ?_, fun (hpage : s.cfg.npages ≤ page.toNat) => ?_⟩
  · rw [if_neg (Nat.not_le.mpr hpage), ← pageByte_ofByte]
    cases hf : s.cfg.colFraming with
    | split => rw [posCmd_split x .addr page.toNat hf]; rfl
    | joined => rw [posCmd_joined x .addr page.toNat hf]; rfl
  · rw [if_pos hpage]
    rfl

/-! ### The encoder laws (R187) -/

/-- Under a valid configuration `PAGE_BASE + p` does not wrap (R281), so no two pages share a set-page byte. -/
theorem pageByte_injective {c : Cfg} {p q : Nat} (hv : c.valid = true) (hp : p < c.npages) (hq : q < c.npages)
    (h : pageByte c p = pageByte c q) : p = q := by
  obtain ⟨-, -, -, -, hbase, -⟩ := (Cfg_valid_iff c).mp hv
  have hsum := congrArg BitVec.toNat h
  rw [pageByte_toNat c p (by omega), pageByte_toNat c q (by omega)] at hsum
  exact Nat.add_left_cancel hsum

theorem colHigh_toNat (x : Byte) : (colHigh x).toNat = 16 + x.toNat / 16 := by
  rw [colHigh_eq, BitVec.toNat_add, BitVec.toNat_ofNat, BitVec.toNat_ofNat]
  omega

/-- The column is the low nibble of its high byte, then its low byte (R110, R111). -/
theorem column_eq_of_bytes (x : Byte) : x.toNat = (colLow (colHigh x)).toNat * 16 + (colLow x).toNat := by
  rw [colLow_toNat, colLow_toNat, colHigh_toNat]
  omega

/-- The low byte lies below `COL_HI_MARK`, the high byte in the 16 values from it on. -/
theorem columnBytes_disjoint (x : Byte) :
    (colLow x).toNat ≤ 0x0F ∧ 0x10 ≤ (colHigh x).toNat ∧ (colHigh x).toNat ≤ 0x1F := by
  rw [colLow_toNat, colHigh_toNat]
  omega

/-- Settles O49: its four laws in order; that COLCMD carries the same two bytes in either framing is a case on it. -/
theorem addressingEncoderLaws : Obligations.AddressingEncoderLaws := by
  refine ⟨fun _ _ _ => ⟨_, _, rfl⟩, fun _ _ _ => pageByte_injective, fun c x pg ph => ?_,
    fun x => ⟨column_eq_of_bytes x, columnBytes_disjoint x⟩⟩
  cases hf : c.colFraming with
  | split => rw [colCmd_split x ph pg hf]; rfl
  | joined => rw [colCmd_joined x ph pg hf]; rfl

end Sys2Proof.Machine
end

section
/-! PROOFS. The default initialization sequence (spec/43_initialization.md R201) and its rows of the opcode table
(spec/30_encoding.md R112). -/

namespace Sys2Proof.Machine

/-- Settles O37: the sequence is the listed one, whatever its named bytes are, and its counts are those of the list. -/
theorem defaultSequenceHasEighteenEntries : Obligations.DefaultSequenceHasEighteenEntries :=
  fun _ _ => ⟨rfl, rfl, rfl⟩

/-- The segment remap byte `1010 000r` is the bit above 0xA0 (R201, E6). -/
theorem segRemap_byte (r : BitVec 1) : 0b1010000#7 ++ r = 0xA0#8 ||| r.setWidth 8 := by revert r; decide

/-- The COM scan byte `1100 d000` is the bit, at place 3, above 0xC0 (R201, E13). -/
theorem comScan_byte (d : BitVec 1) : 0xC#4 ++ d ++ 0#3 = 0xC0#8 ||| (d.setWidth 8 <<< 3) := by revert d; decide

/-- Settles O24: the listed bytes are those of the rows; only the two rows with a free bit need an argument. -/
theorem sequenceCommandRowsAreIssued : Obligations.SequenceCommandRowsAreIssued := by
  intro s b tag v bit hr hs hp row hrow ha
  have hbytes : row.1.commandBytes s.cfg.pageBase = some row.2 := by
    simp only [List.mem_cons, List.not_mem_nil, or_false] at hrow
    rcases hrow with rfl | rfl | rfl | rfl | rfl | rfl | rfl | rfl | rfl | rfl | rfl | rfl | rfl | rfl | rfl <;>
      simp only [Instr.commandBytes, segRemap_byte, comScan_byte]
  exact exec_command_issues hbytes hr hs hp ha

end Sys2Proof.Machine
end

section
/-! PROOFS. The plan of INITIALIZE (spec/43_initialization.md R202 to R204, R206) and its write counts (R207). -/

namespace Sys2Proof.Machine

/-! ### Acceptance and plan (R202, R206) -/

/-- An admitted INITIALIZE is accepted with the plan of its configuration, whatever `INIT` is (R202). -/
theorem exec_initializeDisplay {s : State} (hr : s.refused = none) (hs : s.seq = .idle) :
    exec .initializeDisplay s = acceptPlan .initializeDisplay (initPlan s.cfg) s := whenAdmitted_ready _ hr hs nofun

/-- Settles O16: both states are accepted with the plan of the one configuration. -/
theorem initializePlanDependsOnTheConfigurationOnly : Obligations.InitializePlanDependsOnTheConfigurationOnly := by
  intro s s' hr hs hr' hs' hcfg
  refine ⟨.busy (Busy.start .initializeDisplay (initPlan s.cfg)), exec_initializeDisplay hr hs, ?_⟩
  rw [exec_initializeDisplay hr' hs', acceptPlan_eq, ← hcfg]
  rfl

/-- The data writes of one repeated byte: chunk k carries what is left of it, up to `DATA_SIZE` bytes (R162). -/
theorem dataW_replicate (c : Cfg) (n : Nat) (v : Byte) (ph : Phase) (page : Option Nat) :
    dataW c (List.replicate n v) ph page = (List.range (ceilDiv n c.dataSize)).map fun k =>
      .wr c.regData (List.replicate (min c.dataSize (n - k * c.dataSize)) v) (dataTag ph page k) := by
  rw [dataW_eq_map, List.length_replicate]
  simp only [List.drop_replicate, List.take_replicate]

/-- Settles O13: each phase of the plan as a list. -/
theorem initializeIsAcceptedWithItsPlan : Obligations.InitializeIsAcceptedWithItsPlan := by
  intro s hr hs _
  have hclear : clearPage s.cfg = fun p => posCmd s.cfg 0x00#8 p .clear ++ _ :=
    funext fun p => congrArg (posCmd s.cfg 0x00#8 p .clear ++ ·) (dataW_replicate s.cfg s.cfg.width 0x00#8 .clear p)
  rw [exec_initializeDisplay hr hs, initPlan, entryWritesFrom_eq, clearPageWrites_eq, hclear]
  simp only [Nat.zero_add]
  rfl

/-! ### Counting the writes to a selector (R207) -/

/-- A plan of writes to one selector counts as many writes to it as it has actions. -/
theorem writeCountTo_same {reg : Byte} {xs : List Action} (hw : ∀ a ∈ xs, a.isWrite = true)
    (hreg : ∀ reg' payload tag, Action.wr reg' payload tag ∈ xs → reg' = reg) : writeCountTo reg xs = xs.length := by
  refine List.countP_eq_length.mpr fun a ha => ?_
  cases a
  case wr reg' payload tag => exact decide_eq_true (hreg reg' payload tag ha)
  all_goals cases hw _ ha

/-- A plan without a write to a selector counts none. -/
theorem writeCountTo_other {reg : Byte} {xs : List Action}
    (hreg : ∀ reg' payload tag, Action.wr reg' payload tag ∈ xs → reg' ≠ reg) : writeCountTo reg xs = 0 := by
  refine List.countP_eq_zero.mpr fun a ha => ?_
  cases a
  case wr reg' payload tag => simpa [Action.isWriteTo] using hreg reg' payload tag ha
  all_goals exact Bool.false_ne_true

/-- The entries of `INIT_SEQ` are written to the command selector. -/
theorem entryWritesFrom_reg {c : Cfg} {e : Nat} {entries : List (List Byte)} {reg : Byte} {payload : List Byte}
    {tag : Tag} (h : .wr reg payload tag ∈ entryWritesFrom c e entries) : reg = c.regCmd := by
  rw [entryWritesFrom_eq] at h
  simp only [List.mem_mapIdx, Action.wr.injEq] at h
  obtain ⟨i, hi, rfl, -, -⟩ := h
  rfl

theorem entryWritesFrom_length (c : Cfg) (e : Nat) (entries : List (List Byte)) :
    (entryWritesFrom c e entries).length = entries.length := by
  rw [entryWritesFrom_eq, List.length_mapIdx]

/-- The command writes and the data writes of a position command with data behind it, where the two selectors differ. -/
theorem writeCountTo_positionedData {c : Cfg} (hne : c.regCmd ≠ c.regData) (x : Byte) (p : Nat) (ph ph' : Phase)
    (page : Option Nat) (bs : List Byte) :
    writeCountTo c.regCmd (posCmd c x p ph ++ dataW c bs ph' page) = positionWrites c ∧
    writeCountTo c.regData (posCmd c x p ph ++ dataW c bs ph' page) = ceilDiv bs.length c.dataSize := by
  have hpos : writeCountTo c.regCmd (posCmd c x p ph) = positionWrites c := by
    rw [writeCountTo_same (posCmd_isWrite c x p ph) fun _ _ _ h => (posCmd_reg h).1, posCmd_length]
  have hdata : writeCountTo c.regData (dataW c bs ph' page) = ceilDiv bs.length c.dataSize := by
    rw [writeCountTo_same (dataW_isWrite c bs ph' page) fun _ _ _ h => (dataW_reg h).1, dataW_length]
  have hpos0 : writeCountTo c.regData (posCmd c x p ph) = 0 := writeCountTo_other fun _ _ _ h => (posCmd_reg h).1 ▸ hne
  have hdata0 : writeCountTo c.regCmd (dataW c bs ph' page) = 0 :=
    writeCountTo_other fun _ _ _ h => (dataW_reg h).1 ▸ hne.symm
  rw [writeCountTo_append, writeCountTo_append, hpos, hdata, hpos0, hdata0]
  exact ⟨Nat.add_zero _, Nat.zero_add _⟩

/-- The writes of a position command with data behind it, to either selector. -/
theorem writeCount_positionedData (c : Cfg) (x : Byte) (p : Nat) (ph ph' : Phase) (page : Option Nat)
    (bs : List Byte) :
    writeCount (posCmd c x p ph ++ dataW c bs ph' page) = positionWrites c + ceilDiv bs.length c.dataSize := by
  rw [writeCount_append, writeCount_writes (posCmd_isWrite c x p ph), writeCount_writes (dataW_isWrite c bs ph' page),
    posCmd_length, dataW_length]

/-- A local action is no write to any selector. -/
theorem Action.isWriteTo_of_local {a : Action} (reg : Byte) (hw : a.isWrite = false) : a.isWriteTo reg = false := by
  cases a
  case wr => cases hw
  all_goals rfl

/-- A count of writes over the plan of INITIALIZE is that over the entries of `INIT_SEQ` and, `NPAGES` times, that over
the clear of a page. -/
theorem countP_initPlan {c : Cfg} {q : Action → Bool} {n : Nat} (hlocal : ∀ a : Action, a.isWrite = false → q a = false)
    (hpage : ∀ p, (clearPage c p).countP q = n) :
    (initPlan c).countP q = (entryWritesFrom c 0 c.initSeq).countP q + c.npages * n := by
  have hpages : (clearPageWrites c (List.range c.npages)).countP q = c.npages * n := by
    rw [clearPageWrites_eq, List.countP_flatMap, show List.countP q ∘ clearPage c = fun _ => n from funext hpage,
      List.map_const', List.sum_replicate, List.length_range, smul_eq_mul]
  simp only [initPlan, List.countP_append, List.countP_cons, List.countP_nil, hpages, hlocal .zeroBuf rfl,
    hlocal (.clearDirty _) rfl, hlocal .setInit rfl]
  rfl

/-- The writes of the plan of INITIALIZE (R207). -/
theorem writeCount_initPlan (c : Cfg) : writeCount (initPlan c) =
    c.initSeq.length + c.npages * (positionWrites c + ceilDiv c.width c.dataSize) := by
  have hentries : writeCount (entryWritesFrom c 0 c.initSeq) = c.initSeq.length := by
    rw [writeCount_writes (entryWritesFrom_isWrite _ _ _), entryWritesFrom_length]
  have hpage (p : Nat) := writeCount_positionedData c 0x00#8 p .clear .clear (some p) (List.replicate c.width 0x00#8)
  simp only [List.length_replicate] at hpage
  rw [← hentries]
  exact countP_initPlan (fun _ hw => hw) hpage

/-- Its command writes are the entries of `INIT_SEQ` and the position of each page, its data writes the zero bytes of
each page. -/
theorem writeCountTo_initPlan {c : Cfg} (hne : c.regCmd ≠ c.regData) :
    writeCountTo c.regCmd (initPlan c) = c.initSeq.length + c.npages * positionWrites c ∧
    writeCountTo c.regData (initPlan c) = c.npages * ceilDiv c.width c.dataSize := by
  have hentries : writeCountTo c.regCmd (entryWritesFrom c 0 c.initSeq) = c.initSeq.length := by
    rw [writeCountTo_same (entryWritesFrom_isWrite _ _ _) fun _ _ _ => entryWritesFrom_reg, entryWritesFrom_length]
  have hentries0 : writeCountTo c.regData (entryWritesFrom c 0 c.initSeq) = 0 :=
    writeCountTo_other fun _ _ _ h => entryWritesFrom_reg h ▸ hne
  have hpage (p : Nat) :=
    writeCountTo_positionedData hne 0x00#8 p .clear .clear (some p) (List.replicate c.width 0x00#8)
  simp only [List.length_replicate] at hpage
  have hcmd : writeCountTo c.regCmd (initPlan c) =
      writeCountTo c.regCmd (entryWritesFrom c 0 c.initSeq) + c.npages * positionWrites c :=
    countP_initPlan (fun _ => Action.isWriteTo_of_local c.regCmd) fun p => (hpage p).1
  have hdata : writeCountTo c.regData (initPlan c) =
      writeCountTo c.regData (entryWritesFrom c 0 c.initSeq) + c.npages * ceilDiv c.width c.dataSize :=
    countP_initPlan (fun _ => Action.isWriteTo_of_local c.regData) fun p => (hpage p).2
  rw [hcmd, hdata, hentries, hentries0, Nat.zero_add]
  exact ⟨rfl, rfl⟩

/-- Settles O50: the counts of the accepted plan. -/
theorem initializeWriteCount : Obligations.InitializeWriteCount := by
  intro s hr hs hv
  obtain ⟨-, -, -, hne, -⟩ := (Cfg_valid_iff s.cfg).mp hv
  exact ⟨_, Busy.start .initializeDisplay (initPlan s.cfg), exec_initializeDisplay hr hs, rfl,
    writeCount_initPlan s.cfg, writeCountTo_initPlan hne⟩

end Sys2Proof.Machine
end

section
/-! PROOFS. The run of INITIALIZE to an initialized, cleared display (spec/43_initialization.md R202 to R204). -/

namespace Sys2Proof.Machine

/-! ### What the plan of INITIALIZE leaves -/

/-- The local actions of the plan zero `BUF`, clear every page's dirty bit and set `INIT` (R202, R204). -/
theorem runLocals_initPlan (s : State) : runLocals (initPlan s.cfg) s =
    ((s.setBuf (Memory.zeros s.cfg.nbytes)).setDirty (clearPages (List.range s.cfg.npages) s.dirty)).setInit true := by
  rw [initPlan, List.append_assoc, List.append_assoc, runLocals_append,
    runLocals_writes (entryWritesFrom_isWrite _ _ _), runLocals_append, runLocals_append,
    runLocals_writes (clearPageWrites_isWrite _ _)]
  rfl

/-- The plan stores no response value. -/
theorem planValue_initPlan (c : Cfg) (v : RspValue) : planValue (initPlan c) v = v := by
  rw [initPlan, List.append_assoc, List.append_assoc, planValue_append,
    planValue_writes (entryWritesFrom_isWrite _ _ _), planValue_append, planValue_append,
    planValue_writes (clearPageWrites_isWrite _ _)]
  rfl

/-! ### What the data selector receives (R152) -/

/-- Page after page, the data delivered is what each page delivers, in order. -/
theorem deliveredTo_planEvents_flatMap {α : Type} (reg : Byte) (addr : DevAddr) (r : TxResult) (f : α → List Action)
    (xs : List α) :
    deliveredTo reg (planEvents addr r (xs.flatMap f)) =
      xs.flatMap fun x => deliveredTo reg (planEvents addr r (f x)) := by
  induction xs with
  | nil => rfl
  | cons x rest ih => rw [List.flatMap_cons, planEvents_append, deliveredTo_append, ih, List.flatMap_cons]

/-- A position command with data behind it delivers the data, where the two selectors differ. -/
theorem deliveredTo_positionedData {c : Cfg} (hsize : 1 ≤ c.dataSize) (hne : c.regCmd ≠ c.regData) (addr : DevAddr)
    (x : Byte) (p : Nat) (ph ph' : Phase) (page : Option Nat) (bs : List Byte) :
    deliveredTo c.regData (planEvents addr .ok (posCmd c x p ph ++ dataW c bs ph' page)) = bs := by
  rw [planEvents_append, deliveredTo_append, deliveredTo_other fun _ _ _ h => (posCmd_reg h).1 ▸ hne,
    deliveredTo_dataW hsize]
  rfl

/-- INITIALIZE delivers a zero byte for every cell of `BUF` (R203). -/
theorem deliveredTo_initPlan {c : Cfg} (hv : c.valid = true) (addr : DevAddr) :
    deliveredTo c.regData (planEvents addr .ok (initPlan c)) = List.replicate c.nbytes 0x00#8 := by
  obtain ⟨-, -, ⟨hsize, -⟩, hne, -⟩ := (Cfg_valid_iff c).mp hv
  have hpage (p : Nat) : deliveredTo c.regData (planEvents addr .ok (clearPage c p)) = List.replicate c.width 0x00#8 :=
    deliveredTo_positionedData hsize hne addr _ _ _ _ _ _
  have hpages : deliveredTo c.regData (planEvents addr .ok (clearPageWrites c (List.range c.npages))) =
      List.replicate c.nbytes 0x00#8 := by
    rw [clearPageWrites_eq, deliveredTo_planEvents_flatMap]
    simp only [hpage]
    rw [List.flatMap_def, List.map_const', List.length_range, List.flatten_replicate_replicate, Nat.mul_comm]
    rfl
  have hentries : deliveredTo c.regData (planEvents addr .ok (entryWritesFrom c 0 c.initSeq)) = [] :=
    deliveredTo_other fun _ _ _ h => entryWritesFrom_reg h ▸ hne
  simp only [initPlan, planEvents_append, deliveredTo_append, hentries, hpages]
  exact List.append_nil _

/-! ### The run -/

/-- The step at a host that presents or calls INITIALIZE to an idle block accepts its plan (R141, R202). -/
theorem step_initializeDisplay {s : State} {later : List HostEvent} (hr : s.refused = none) (hs : s.seq = .idle)
    (hd : s.hostDrives (.request 0x20000000#32 []) later) :
    step s = .next ((s.setHost later).setSeq (.busy (Busy.start .initializeDisplay (initPlan s.cfg)))) := by
  have hdecode : decodeRequest 0x20000000#32 [] = .ok .initializeDisplay := by decide
  calc step s
    _ = accept 0x20000000#32 [] (s.setHost later) := step_hostDrives hr hd
    _ = exec .initializeDisplay (s.setHost later) := accept_of_decoded hr hdecode
    _ = _ := exec_initializeDisplay hr hs

/-- The state behind a successful INITIALIZE: `BUF` zeroed, `DIRTY` cleared, `INIT` set, its writes logged OK and its OK
response appended (R202 to R204). -/
def State.initialized (s : State) (later : List HostEvent) (rest : List Answer) : State :=
  { s with
    buf := Memory.zeros s.cfg.nbytes
    dirty := clearPages (List.range s.cfg.npages) s.dirty
    init := true
    seq := .idle
    txlog := s.txlog ++ planEvents s.cfg.devAddr .ok (initPlan s.cfg)
    rsplog := s.rsplog ++ [{ op := 0x20#8, status := .ok, value := .empty, fail := none }]
    host := hostAfter (planSteps (initPlan s.cfg)) later
    answers := rest }

/-- The accepted plan, answered OK throughout, runs to that state. -/
theorem run_initializeDisplay {s : State} {later : List HostEvent} {rest : List Answer} (hr : s.refused = none)
    (hs : s.seq = .idle) (hd : s.hostDrives (.request 0x20000000#32 []) later)
    (hh : hostWaits (planSteps (initPlan s.cfg)) later)
    (hn : s.answers = List.replicate (writeCount (initPlan s.cfg)) .ok ++ rest) :
    run (1 + planSteps (initPlan s.cfg)) s = .next (s.initialized later rest) := by
  rw [Nat.add_comm, run_step (step_initializeDisplay hr hs hd)]
  have hlocals (q : Seq) : runLocals (initPlan s.cfg) ((s.setHost later).setSeq q) = _ :=
    runLocals_initPlan ((s.setHost later).setSeq q)
  have hdone := anAnsweredPlanRunsToDone
    ((s.setHost later).setSeq (.busy (Busy.start .initializeDisplay (initPlan s.cfg)))) _ _ rest hr hh rfl hn
  rw [hdone, hlocals, planValue_initPlan]
  rfl

/-- Settles O55: the run ends in the state above, whose memories and new events read as claimed. -/
theorem initializeRunsToAClearedDisplay : Obligations.InitializeRunsToAClearedDisplay := by
  intro s later rest hi hr hs hhost hh hn
  have hd : s.hostDrives (.request 0x20000000#32 []) later := hhost.imp_right fun h => ⟨h, hs⟩
  have hrun := run_initializeDisplay hr hs hd hh hn
  have hbuf (i : Nat) (hlt : i < s.cfg.nbytes) : (s.initialized later rest).buf.read i = some 0x00#8 :=
    (Memory.read_zeros _ i).trans (if_pos hlt)
  have hdirty : (s.initialized later rest).dirty = List.replicate s.cfg.npages (some false) := by
    rw [← hi.dirtyLength]
    exact clearPages_all_defined _ _ fun p hp => List.mem_range.mpr (hi.dirtyLength ▸ hp)
  have hevents (e : TxEvent) (he : e ∈ planEvents s.cfg.devAddr .ok (initPlan s.cfg)) :
      e.result = .ok ∧ e.addr = s.cfg.devAddr := by
    obtain ⟨haddr, hok, -⟩ := planEvents_mem he
    exact ⟨hok, haddr⟩
  refine ⟨_, _, hrun, rfl, hr, rfl, rfl, rfl, rfl, hbuf, hdirty, rfl, rfl, hevents,
    deliveredTo_initPlan hi.cfgValid _, ?_⟩
  rintro rfl
  exact ⟨⟨hd.acts, .inl hs⟩, ⟨_, hrun⟩, hostAfter_nil _, List.length_append, rfl, hr⟩

end Sys2Proof.Machine
end

section
/-! PROOFS. UPDATE (spec/44_update.md): its acceptance and plan (R220, R221) and its write counts (R226). -/

namespace Sys2Proof.Machine

/-! ### The plan (R220, R221) -/

/-- The plan of UPDATE a..b with the given page writes: they, then CLEAR_DIRTY of the pages of the policy (R221, R222). -/
def updatePlan (c : Cfg) (writes : List Action) (a b : Nat) : List Action :=
  writes ++ [.clearDirty (updateClears c a b)]

/-- The page writes of UPDATE a..b where `f` gives the bytes of the buffer: the flush of each page in order (R220). -/
def flushWrites (c : Cfg) (f : Nat → Byte) (a b : Nat) : List Action :=
  (pagesFromTo a b).flatMap fun p => flushPage c p ((List.range' (p * c.width) c.width).map f)

/-- A buffer without ⊥ is flushed as its bytes (R220). -/
theorem flush_eq {c : Cfg} {m : Memory} {f : Nat → Byte} {b : Nat} (a : Nat) (hb : b < c.npages)
    (hread : ∀ i, i < c.nbytes → m.read i = some (f i)) : flush c m a b = some (flushWrites c f a b) :=
  flushPages_eq c m f _ (fun _ hp => Nat.lt_of_le_of_lt (mem_pagesFromTo.mp hp).2 hb) hread

theorem flushWrites_isWrite (c : Cfg) (f : Nat → Byte) (a b : Nat) : ∀ x ∈ flushWrites c f a b, x.isWrite = true := by
  intro x hx
  obtain ⟨p, -, hmem⟩ := List.mem_flatMap.mp hx
  exact flushPage_isWrite c p _ x hmem

/-- The first n elements of a range are a range. -/
theorem take_range'_eq (n start len : Nat) : (List.range' start len).take n = List.range' start (min n len) :=
  List.ext_getElem (by simp) (by simp)

/-- The flush of one page: its position at column 0, then a data write per chunk of its bytes, chunk k from byte
k * `DATA_SIZE` of the page (R162, R220). -/
theorem flushPage_eq_map (c : Cfg) (f : Nat → Byte) (p : Nat) :
    flushPage c p ((List.range' (p * c.width) c.width).map f) = posCmd c 0x00#8 p .addr ++
      (List.range (ceilDiv c.width c.dataSize)).map fun k =>
        .wr c.regData ((List.range' (p * c.width + k * c.dataSize) (min c.dataSize (c.width - k * c.dataSize))).map f)
          (dataTag .data (some p) k) := by
  rw [flushPage, dataW_eq_map, List.length_map, List.length_range']
  simp only [← List.map_drop, ← List.map_take, List.drop_range', take_range'_eq, Nat.mul_one]

/-! ### Admission (R221) -/

section
variable {s : State} {first last : Byte} (hr : s.refused = none) (hs : s.seq = .idle)
include hr hs

/-- An UPDATE with a bound at or beyond `NPAGES` is refused. -/
theorem exec_update_pageRange (hi : s.init = true) (h : s.cfg.npages ≤ first.toNat ∨ s.cfg.npages ≤ last.toNat) :
    exec (.update first last) s = refuse .pageRange s := by
  refine (whenAdmitted_ready _ hr hs fun _ => hi).trans ?_
  by_cases hfirst : s.cfg.npages ≤ first.toNat
  · exact if_pos hfirst
  · rw [if_neg hfirst, if_pos (h.resolve_left hfirst)]

/-- An UPDATE of pages within the display is accepted with the flush of its pages. -/
theorem exec_update {writes : List Action} (hi : s.init = true) (ha : first.toNat < s.cfg.npages)
    (hb : last.toNat < s.cfg.npages) (hflush : flush s.cfg s.buf first.toNat last.toNat = some writes) :
    exec (.update first last) s =
      .next (s.setSeq (.busy (Busy.start .update (updatePlan s.cfg writes first.toNat last.toNat)))) := by
  refine (whenAdmitted_ready _ hr hs fun _ => hi).trans ?_
  rw [if_neg (Nat.not_le.mpr ha), if_neg (Nat.not_le.mpr hb), hflush]
  rfl

end

/-- Settles O14: one case per outcome of the admission checks, the accepted plan page by page. -/
theorem updateIsAcceptedWithItsPlan : Obligations.UpdateIsAcceptedWithItsPlan := by
  intro s first last hr hs _
  refine ⟨fun hi => whenAdmitted_uninit _ hr hs hi, fun hi hbound => exec_update_pageRange hr hs hi hbound,
    fun f hi ha hb hread => ?_⟩
  rw [exec_update hr hs hi ha hb (flush_eq _ hb hread)]
  simp only [updatePlan, flushWrites, flushPage_eq_map]
  cases hpolicy : s.cfg.dirtyPolicy <;> simp only [updateClears, hpolicy] <;> rfl

/-! ### The write counts (R226) -/

/-- A count over the page writes is, for each page of the range, the count over its flush. -/
theorem countP_flushWrites {c : Cfg} {f : Nat → Byte} {a b n : Nat} {q : Action → Bool} (hab : a ≤ b)
    (hpage : ∀ p, (flushPage c p ((List.range' (p * c.width) c.width).map f)).countP q = n) :
    (flushWrites c f a b).countP q = (b - a + 1) * n := by
  have hconst : List.countP q ∘ (fun p => flushPage c p ((List.range' (p * c.width) c.width).map f)) = fun _ => n :=
    funext hpage
  rw [flushWrites, List.countP_flatMap, hconst, List.map_const', List.sum_replicate, smul_eq_mul, pagesFromTo,
    List.length_range', Nat.sub_add_comm hab]

/-- The writes of a flush: those of a position command and of `WIDTH` data bytes for each page. -/
theorem flushWrites_length {c : Cfg} (f : Nat → Byte) {a b : Nat} (hab : a ≤ b) :
    (flushWrites c f a b).length = (b - a + 1) * (positionWrites c + ceilDiv c.width c.dataSize) := by
  rw [← writeCount_writes (flushWrites_isWrite c f a b)]
  refine countP_flushWrites hab fun p => (writeCount_positionedData c 0x00#8 p .addr .data (some p) _).trans ?_
  rw [List.length_map, List.length_range']

/-- Its command writes are the position of each page, its data writes the chunks of each page. -/
theorem writeCountTo_flushWrites {c : Cfg} (f : Nat → Byte) {a b : Nat} (hab : a ≤ b) (hne : c.regCmd ≠ c.regData) :
    writeCountTo c.regCmd (flushWrites c f a b) = (b - a + 1) * positionWrites c ∧
    writeCountTo c.regData (flushWrites c f a b) = (b - a + 1) * ceilDiv c.width c.dataSize := by
  have hpage (p : Nat) := writeCountTo_positionedData hne 0x00#8 p .addr .data (some p)
    ((List.range' (p * c.width) c.width).map f)
  simp only [List.length_map, List.length_range'] at hpage
  exact ⟨countP_flushWrites hab fun p => (hpage p).1, countP_flushWrites hab fun p => (hpage p).2⟩

/-- CLEAR_DIRTY adds no write to the plan. -/
theorem writeCount_updatePlan {writes : List Action} (hw : ∀ x ∈ writes, x.isWrite = true) (c : Cfg) (a b : Nat) :
    writeCount (updatePlan c writes a b) = writes.length := (writeCount_append _ _).trans (writeCount_writes hw)

theorem writeCountTo_updatePlan (reg : Byte) (c : Cfg) (writes : List Action) (a b : Nat) :
    writeCountTo reg (updatePlan c writes a b) = writeCountTo reg writes := writeCountTo_append reg _ _

/-- Settles O51: the counts of the accepted plan. -/
theorem updateWriteCount : Obligations.UpdateWriteCount := by
  intro s first last hr hs hv hi hbuf hab hb
  obtain ⟨-, -, -, hne, -⟩ := (Cfg_valid_iff s.cfg).mp hv
  obtain ⟨f, hread⟩ := bufDefined_bytes hbuf
  obtain ⟨hcmd, hdata⟩ := writeCountTo_flushWrites f hab hne
  exact ⟨_, _, exec_update hr hs hi (Nat.lt_of_le_of_lt hab hb) hb (flush_eq _ hb hread), rfl,
    (writeCount_updatePlan (flushWrites_isWrite _ _ _ _) _ _ _).trans (flushWrites_length f hab),
    (writeCountTo_updatePlan _ _ _ _ _).trans hcmd, (writeCountTo_updatePlan _ _ _ _ _).trans hdata⟩

end Sys2Proof.Machine
end

section
/-! PROOFS. The runs of UPDATE while the host waits (spec/44_update.md R222 to R225): to its OK response, over an empty
range, and to its first failed write. -/

namespace Sys2Proof.Machine

/-! ### The run to the OK response (R222) -/

/-- The state behind a successful UPDATE a..b with the given page writes: they are logged OK, the dirty bits of the policy
are cleared, and the OK response is appended. -/
def State.updated (s : State) (writes : List Action) (a b : Nat) (rest : List Answer) : State :=
  { s with
    dirty := clearPages (updateClears s.cfg a b) s.dirty
    seq := .idle
    txlog := s.txlog ++ planEvents s.cfg.devAddr .ok writes
    rsplog := s.rsplog ++ [{ op := 0x30#8, status := .ok, value := .empty, fail := none }]
    host := hostAfter (2 * writes.length + 2) s.host
    answers := rest }

/-- The plan of UPDATE takes two steps a write, one for CLEAR_DIRTY and one for DONE. -/
theorem planSteps_updatePlan {writes : List Action} (hw : ∀ x ∈ writes, x.isWrite = true) (c : Cfg) (a b : Nat) :
    planSteps (updatePlan c writes a b) = 2 * writes.length + 2 := by
  rw [planSteps, writeCount_updatePlan hw, updatePlan, List.length_append, List.length_singleton]
  omega

/-- The accepted plan, answered OK throughout, runs to that state. -/
theorem run_update_ok {s : State} {writes : List Action} {a b : Nat} {rest : List Answer}
    (hw : ∀ x ∈ writes, x.isWrite = true) (hr : s.refused = none) (hh : hostWaits (2 * writes.length + 2) s.host)
    (hn : s.answers = List.replicate writes.length .ok ++ rest) :
    run (2 * writes.length + 2) (s.setSeq (.busy (Busy.start .update (updatePlan s.cfg writes a b)))) =
      .next (s.updated writes a b rest) := by
  have hsteps := planSteps_updatePlan hw s.cfg a b
  have hlocals (t : State) : runLocals (updatePlan s.cfg writes a b) t =
      t.setDirty (clearPages (updateClears s.cfg a b) t.dirty) := by
    rw [updatePlan, runLocals_append, runLocals_writes hw]
    rfl
  have hvalue : planValue (updatePlan s.cfg writes a b) .empty = .empty := by
    rw [updatePlan, planValue_append, planValue_writes hw]
    rfl
  have hevents : planEvents s.cfg.devAddr .ok (updatePlan s.cfg writes a b) = planEvents s.cfg.devAddr .ok writes :=
    (planEvents_append _ _ _ _).trans (List.append_nil _)
  have hdone := anAnsweredPlanRunsToDone
    (s.setSeq (.busy (Busy.start .update (updatePlan s.cfg writes a b)))) _ _ rest hr
    (by rwa [hsteps]) rfl (by rwa [writeCount_updatePlan hw])
  rw [hsteps, hlocals, hvalue] at hdone
  rw [hdone, State.updated, ← hevents]
  rfl

/-! ### What it delivers and clears (R220, R222) -/

/-- Page after page, the cells of a page range are one run of cells (R72). -/
theorem flatMap_pageCells (w a n : Nat) :
    (List.range' a n).flatMap (fun p => List.range' (p * w) w) = List.range' (a * w) (n * w) := by
  induction n generalizing a with
  | zero => rw [Nat.zero_mul]; rfl
  | succ n ih =>
    rw [List.range'_succ, List.flatMap_cons, ih, Nat.succ_mul a, List.range'_append_1, Nat.succ_mul n, Nat.add_comm w]

/-- A flush delivers the bytes of its pages in order. -/
theorem deliveredTo_flushWrites {c : Cfg} (hv : c.valid = true) (addr : DevAddr) (f : Nat → Byte) {a b : Nat}
    (hab : a ≤ b) :
    deliveredTo c.regData (planEvents addr .ok (flushWrites c f a b)) =
      (List.range' (a * c.width) ((b - a + 1) * c.width)).map f := by
  obtain ⟨-, -, ⟨hsize, -⟩, hne, -⟩ := (Cfg_valid_iff c).mp hv
  have hpage (p : Nat) (bs : List Byte) : deliveredTo c.regData (planEvents addr .ok (flushPage c p bs)) = bs :=
    deliveredTo_positionedData hsize hne addr _ _ _ _ _ bs
  rw [flushWrites, deliveredTo_planEvents_flatMap]
  simp only [hpage]
  rw [← List.map_flatMap, pagesFromTo, flatMap_pageCells, Nat.sub_add_comm hab]

/-- The cells of a page range within the display lie in the buffer. -/
theorem pageCell_lt {c : Cfg} {a b i : Nat} (hab : a ≤ b) (hb : b < c.npages)
    (hi : i ∈ List.range' (a * c.width) ((b - a + 1) * c.width)) : i < c.nbytes := by
  obtain ⟨-, hlt⟩ := List.mem_range'_1.mp hi
  calc i < a * c.width + (b - a + 1) * c.width := hlt
    _ = (b + 1) * c.width := by rw [← Nat.add_mul]; congr 1; omega
    _ ≤ c.npages * c.width := Nat.mul_le_mul_right _ hb
    _ = c.nbytes := Nat.mul_comm _ _

/-- The pages that UPDATE a..b clears: every page under GLOBAL, the range's under RANGE (R222). -/
theorem mem_updateClears {c : Cfg} {a b p : Nat} (hp : p < c.npages) :
    p ∈ updateClears c a b ↔ c.dirtyPolicy = .global ∨ (a ≤ p ∧ p ≤ b) := by
  cases hpolicy : c.dirtyPolicy with
  | global => simp [updateClears, hpolicy, hp]
  | range => simp [updateClears, hpolicy, mem_pagesFromTo]

/-- Settles O56: the run ends in the state above, whose new events and dirty bits read as claimed. -/
theorem updateDeliversThePagesOfTheBuffer : Obligations.UpdateDeliversThePagesOfTheBuffer := by
  intro s first last rest hinv hr hs hi hab hb writes hh hn
  obtain ⟨f, hread⟩ := bufDefined_bytes (hinv.initDefined hi).1
  have hlength : (flushWrites s.cfg f first.toNat last.toNat).length = writes := flushWrites_length f hab
  rw [← hlength] at hh hn ⊢
  have hdata : (deliveredTo s.cfg.regData
        (planEvents s.cfg.devAddr .ok (flushWrites s.cfg f first.toNat last.toNat))).map some =
      (List.range' (first.toNat * s.cfg.width) ((last.toNat - first.toNat + 1) * s.cfg.width)).map s.buf.read := by
    rw [deliveredTo_flushWrites hinv.cfgValid _ f hab, List.map_map]
    exact List.map_congr_left fun i hmem => (hread i (pageCell_lt hab hb hmem)).symm
  refine ⟨_, _, _, exec_update hr hs hi (Nat.lt_of_le_of_lt hab hb) hb (flush_eq _ hb hread),
    run_update_ok (flushWrites_isWrite _ _ _ _) hr hh hn, rfl, hr, rfl, hi, rfl, rfl, rfl, rfl, rfl,
    fun e he => (planEvents_mem he).2.1, hdata, fun p hp => ?_⟩
  refine (clearPages_get _ _ p (by rwa [hinv.dirtyLength])).trans ?_
  simp only [mem_updateClears hp]

/-! ### An empty range (R224) -/

/-- Settles O59: the flush of no page, then CLEAR_DIRTY of every page or of none. -/
theorem anEmptyUpdateWritesNothing : Obligations.AnEmptyUpdateWritesNothing := by
  intro s first last hr hs hi hh hempty ha hlength
  have hflush : flush s.cfg s.buf first.toNat last.toNat = some [] := by
    rw [flush, pagesFromTo_empty hempty]
    rfl
  have hdirty : clearPages (updateClears s.cfg first.toNat last.toNat) s.dirty =
      match s.cfg.dirtyPolicy with
      | .global => List.replicate s.cfg.npages (some false)
      | .range => s.dirty := by
    cases hpolicy : s.cfg.dirtyPolicy with
    | global =>
      simp only [updateClears, hpolicy, ← hlength]
      exact clearPages_all_defined _ _ fun p hp => List.mem_range.mpr hp
    | range =>
      simp only [updateClears, hpolicy, pagesFromTo_empty hempty]
      rfl
  refine ⟨_, exec_update hr hs hi ha (Nat.lt_trans hempty ha) hflush,
    (run_update_ok (writes := []) nofun hr hh rfl).trans ?_⟩
  rw [State.updated, hdirty, ← hs, planEvents, List.append_nil]
  rfl

/-! ### The run to a failed write (R223) -/

/-- The state behind an UPDATE whose write `e` failed after the writes `before` answered OK: the writes are logged, the
failed response is appended, and `DIRTY`, `BUF` and `INIT` are as they were. -/
def State.updateFailed (s : State) (before : List Action) (e : TxEvent) (rest : List Answer) : State :=
  { s with
    seq := .idle
    txlog := s.txlog ++ (planEvents s.cfg.devAddr .ok before ++ [e])
    rsplog := s.rsplog ++ [{ op := 0x30#8, status := .transportFail, value := .empty,
                             fail := some { op := 0x30#8, wrIndex := before.length, tag := e.tag } }]
    host := hostAfter (2 * before.length + 2) s.host
    answers := rest }

/-- A plan of UPDATE that fails on a write behind the writes `before` runs to that state. -/
theorem run_update_fail {s : State} {before after : List Action} {reg : Byte} {payload : List Byte} {tag : Tag}
    {rest : List Answer} (hw : ∀ x ∈ before, x.isWrite = true) (hr : s.refused = none)
    (hh : hostWaits (2 * before.length + 2) s.host)
    (hn : s.answers = List.replicate before.length .ok ++ .fail :: rest) :
    run (2 * before.length + 2) (s.setSeq (.busy (Busy.start .update (before ++ .wr reg payload tag :: after)))) =
      .next (s.updateFailed before
        { addr := s.cfg.devAddr, reg := reg, payload := payload, tag := tag, result := .fail } rest) := by
  have hcount : writeCount before = before.length := writeCount_writes hw
  have hsteps : before.length + writeCount before + 2 = 2 * before.length + 2 := by omega
  have hfail := (aFailedWriteEndsThePlan
    (s.setSeq (.busy (Busy.start .update (before ++ .wr reg payload tag :: after)))) _ before after reg payload tag rest
    hr (by rwa [hsteps]) rfl (by rwa [hcount])).1 (by decide)
  rw [hsteps, hcount, runLocals_writes hw, List.append_assoc] at hfail
  exact hfail

/-! ### The page of a write (R223) -/

/-- Every write of a page's flush is tagged with the page. -/
theorem flushPage_tag {c : Cfg} {p : Nat} {bs : List Byte} {reg : Byte} {payload : List Byte} {tag : Tag}
    (h : .wr reg payload tag ∈ flushPage c p bs) : tag.page = some p :=
  (List.mem_append.mp h).elim (fun hpos => (posCmd_reg hpos).2) (fun hdata => (dataW_reg hdata).2)

/-- Among lists of n elements each, element k of their concatenation is in list k div n. -/
theorem mem_of_flatMap_getElem? {α β : Type} {g : α → List β} {n k : Nat} {xs : List α} {y : β} (hn : 0 < n)
    (hg : ∀ x, (g x).length = n) (hy : (xs.flatMap g)[k]? = some y) : ∃ x, xs[k / n]? = some x ∧ y ∈ g x := by
  induction xs generalizing k with
  | nil => cases hy
  | cons x rest ih =>
    rw [List.flatMap_cons, List.getElem?_append, hg] at hy
    split at hy
    · next hlt => exact ⟨x, by rw [Nat.div_eq_of_lt hlt]; rfl, List.mem_of_getElem? hy⟩
    · next hge =>
      obtain ⟨z, hz, hmem⟩ := ih hy
      rw [Nat.div_eq_sub_div hn (Nat.not_lt.mp hge)]
      exact ⟨z, hz, hmem⟩

/-- Write k of a flush is one of page start + k div the writes of a page. -/
theorem flushWrites_tag {c : Cfg} {f : Nat → Byte} {a b k : Nat} {reg : Byte} {payload : List Byte} {tag : Tag}
    (hpos : 0 < positionWrites c + ceilDiv c.width c.dataSize)
    (hk : (flushWrites c f a b)[k]? = some (.wr reg payload tag)) :
    tag.page = some (a + k / (positionWrites c + ceilDiv c.width c.dataSize)) := by
  obtain ⟨p, hp, hmem⟩ := mem_of_flatMap_getElem? hpos
    (fun p => by rw [flushPage_length, List.length_map, List.length_range']) hk
  obtain ⟨hlt, hpage⟩ := List.getElem?_eq_some_iff.mp hp
  rw [flushPage_tag hmem, ← hpage]
  simp only [pagesFromTo, List.getElem_range', Nat.one_mul]

/-- The writes of a flush, split at write k. -/
theorem flushWrites_split {c : Cfg} {f : Nat → Byte} {a b k : Nat} (hk : k < (flushWrites c f a b).length) :
    ∃ before reg payload tag after, flushWrites c f a b = before ++ .wr reg payload tag :: after ∧
      before.length = k ∧ (∀ x ∈ before, x.isWrite = true) := by
  have hsplit : flushWrites c f a b = (flushWrites c f a b).take k ++
      (flushWrites c f a b)[k] :: (flushWrites c f a b).drop (k + 1) := by
    rw [← List.drop_eq_getElem_cons hk, List.take_append_drop]
  have hwrite := flushWrites_isWrite c f a b _ (List.getElem_mem hk)
  cases hget : (flushWrites c f a b)[k]
  case wr reg payload tag =>
    rw [hget] at hsplit
    exact ⟨_, reg, payload, tag, _, hsplit, List.length_take_of_le (Nat.le_of_lt hk),
      fun x hx => flushWrites_isWrite c f a b x (List.mem_of_mem_take hx)⟩
  all_goals rw [hget] at hwrite; cases hwrite

/-- An UPDATE a..b under the invariant whose write k answers FAIL: the plan it is accepted with, and the state that plan
runs to (R223). -/
theorem run_failed_update {s : State} {first last : Byte} {k : Nat} {rest : List Answer} (hinv : Invariant s)
    (hr : s.refused = none) (hi : s.init = true) (hab : first.toNat ≤ last.toNat) (hb : last.toNat < s.cfg.npages)
    (hh : hostWaits (2 * k + 2) s.host)
    (hk : k < (last.toNat - first.toNat + 1) * (positionWrites s.cfg + ceilDiv s.cfg.width s.cfg.dataSize))
    (hn : s.answers = List.replicate k .ok ++ .fail :: rest) :
    ∃ writes before e, flush s.cfg s.buf first.toNat last.toNat = some writes ∧
      run (2 * k + 2) (s.setSeq (.busy (Busy.start .update (updatePlan s.cfg writes first.toNat last.toNat)))) =
        .next (s.updateFailed before e rest) ∧
      before.length = k ∧ (∀ x ∈ before, x.isWrite = true) ∧ e.result = .fail ∧
      e.tag.page = some (first.toNat + k / (positionWrites s.cfg + ceilDiv s.cfg.width s.cfg.dataSize)) := by
  obtain ⟨f, hread⟩ := bufDefined_bytes (hinv.initDefined hi).1
  obtain ⟨before, reg, payload, tag, after, hsplit, rfl, hw⟩ :=
    flushWrites_split (c := s.cfg) (f := f) (k := k) (by rwa [flushWrites_length f hab])
  have hget : (flushWrites s.cfg f first.toNat last.toNat)[before.length]? = some (.wr reg payload tag) := by
    simp [hsplit]
  have htag := flushWrites_tag (Nat.pos_of_lt_mul_left hk) hget
  refine ⟨_, before, { addr := s.cfg.devAddr, reg := reg, payload := payload, tag := tag, result := .fail },
    flush_eq _ hb hread, ?_, rfl, hw, rfl, htag⟩
  rw [updatePlan, hsplit, List.append_assoc]
  exact run_update_fail hw hr hh hn

/-- Settles O57: the failed state keeps the memories, and its events and record read as claimed. -/
theorem aFailedUpdateClearsNothing : Obligations.AFailedUpdateClearsNothing := by
  intro s first last k rest hinv hr hs hi hab hb hh perPage hk hn
  obtain ⟨writes, before, e, hflush, hrun, rfl, hw, hfail, htag⟩ := run_failed_update hinv hr hi hab hb hh hk hn
  have hlength : (planEvents s.cfg.devAddr .ok before ++ [e]).length = before.length + 1 := by
    rw [List.length_append, planEvents_length, writeCount_writes hw, List.length_singleton]
  exact ⟨_, _, _, e.tag, exec_update hr hs hi (Nat.lt_of_le_of_lt hab hb) hb hflush, hrun,
    rfl, hr, rfl, rfl, rfl, rfl, rfl, hi, rfl, hlength,
    ⟨_, e, rfl, hfail, rfl, fun x hx => (planEvents_mem hx).2.1⟩, rfl, htag⟩

/-! ### The retry (R225) -/

/-- Settles O58: the plan depends on `CFG` and `BUF` only, and the failed state keeps both. -/
theorem aFailedUpdateCanBeRetried : Obligations.AFailedUpdateCanBeRetried := by
  intro s first last k rest hinv hr hs hi hab hb hh hk hn
  obtain ⟨writes, before, e, hflush, hrun, -⟩ := run_failed_update hinv hr hi hab hb hh hk hn
  have haccept (u : State) (hur : u.refused = none) (hus : u.seq = .idle) (hui : u.init = true) (hcfg : u.cfg = s.cfg)
      (hbuf : u.buf = s.buf) : exec (.update first last) u =
        .next (u.setSeq (.busy (Busy.start .update (updatePlan s.cfg writes first.toNat last.toNat)))) := by
    rw [← hcfg, ← hbuf] at hflush
    rw [← hcfg] at hb ⊢
    exact exec_update hur hus hui (Nat.lt_of_le_of_lt hab hb) hb hflush
  exact ⟨_, _, _, _, haccept s hr hs hi rfl rfl, rfl, hrun, rfl, rfl, haccept _ hr rfl hi rfl rfl, haccept⟩

end Sys2Proof.Machine
end

section
/-! PROOFS. Buffer access (spec/45_buffer_access.md): BUF_WRITE, BUF_READ, SET_PIXEL and DIRTY_STATUS at an idle block,
their bounds and their effect (R240 to R243). -/

namespace Sys2Proof.Machine

/-! ### The immediate operations at an idle, initialized block -/

section
variable {s : State} (hr : s.refused = none) (hs : s.seq = .idle) (hi : s.init = true)
include hr hs hi

/-- A BUF_WRITE at or beyond `NBYTES` is refused (R240). -/
theorem exec_bufWrite_indexRange {index : BufIndex} (v : Byte) (h : s.cfg.nbytes ≤ index.toNat) :
    exec (.bufWrite index v) s = refuse .indexRange s :=
  (whenAdmitted_ready _ hr hs fun _ => hi).trans (if_pos h)

/-- A BUF_WRITE within the buffer is its one local action and its response (R240). -/
theorem exec_bufWrite {index : BufIndex} (v : Byte) (h : index.toNat < s.cfg.nbytes) :
    exec (.bufWrite index v) s = runImmediate .bufWrite [.bufSet index.toNat v] s :=
  (whenAdmitted_ready _ hr hs fun _ => hi).trans (if_neg (Nat.not_le.mpr h))

/-- A BUF_READ at or beyond `NBYTES` is refused (R241). -/
theorem exec_bufRead_indexRange {index : BufIndex} (h : s.cfg.nbytes ≤ index.toNat) :
    exec (.bufRead index) s = refuse .indexRange s :=
  (whenAdmitted_ready _ hr hs fun _ => hi).trans (if_pos h)

/-- A BUF_READ of a cell that holds a byte is that byte's response (R241). -/
theorem exec_bufRead {index : BufIndex} {b : Byte} (h : index.toNat < s.cfg.nbytes)
    (hb : s.buf.read index.toNat = some b) :
    exec (.bufRead index) s = runImmediate .bufRead [.ret (.byte b)] s := by
  refine (whenAdmitted_ready _ hr hs fun _ => hi).trans ?_
  rw [if_neg (Nat.not_le.mpr h), hb]

/-- A SET_PIXEL outside the display is refused (R242). -/
theorem exec_setPixel_pixelRange {x y : Byte} (on : Bool) (h : s.cfg.width ≤ x.toNat ∨ s.cfg.height ≤ y.toNat) :
    exec (.setPixel x y on) s = refuse .pixelRange s :=
  (whenAdmitted_ready _ hr hs fun _ => hi).trans (if_pos h)

/-- A DIRTY_STATUS of dirty bits that hold a value is their response (R243). -/
theorem exec_dirtyStatus {d : List Bool} (hd : s.dirty = d.map some) :
    exec .dirtyStatus s = runImmediate .dirtyStatus [.ret (.bits d)] s := by
  refine (whenAdmitted_ready _ hr hs fun _ => hi).trans ?_
  rw [hd, dirtyBits_map_some]

end

/-- An immediate write of one cell, all it does: the cell, the dirty bit of the cell's page and an OK response without
a value (R142, R148). -/
theorem runImmediate_bufSet (op : Op) (i : Nat) (v : Byte) (s : State) : runImmediate op [.bufSet i v] s =
    .next { s with
      buf := s.buf.write i v
      dirty := s.dirty.set (i / s.cfg.width) (some true)
      rsplog := s.rsplog ++ [{ op := op.code, status := .ok, value := .empty, fail := none }] } := rfl

/-- An immediate operation that only answers a value: all else stays (R147, R148). -/
theorem runImmediate_ret (op : Op) (r : RspValue) (s : State) : runImmediate op [.ret r] s =
    .next { s with rsplog := s.rsplog ++ [{ op := op.code, status := .ok, value := r, fail := none }] } := rfl

/-! ### SET_PIXEL (R242) -/

/-- Settles O19: the byte written back is the old one with the pixel's bit set or cleared (R73), and it lies in the
pixel's page. -/
theorem setPixelWritesOneBitAndMarksItsPage : Obligations.SetPixelWritesOneBitAndMarksItsPage := by
  intro s x y on hr hs
  refine ⟨whenAdmitted_uninit _ hr hs, fun hi => exec_setPixel_pixelRange hr hs hi on, fun old hi hx hy hold => ?_⟩
  refine ⟨s.buf.write (pixelIndex s.cfg x.toNat y.toNat) (pixelByte old y.toNat on), pixelByte old y.toNat on, ?_,
    s.buf.read_write_same _ _, pixelByte_bit old y.toNat on, fun j => s.buf.read_write_other _⟩
  rw [exec_setPixel on hr hs hi hx hy hold, runImmediate_bufSet, pixelIndex_page hx]
  rfl

/-! ### BUF_WRITE (R240) -/

/-- Settles O17: one case per outcome of admission and the index check. -/
theorem bufWriteWritesOneByteAndMarksItsPage : Obligations.BufWriteWritesOneByteAndMarksItsPage := by
  intro s index v hr hs
  refine ⟨whenAdmitted_uninit _ hr hs, fun hi => exec_bufWrite_indexRange hr hs hi v, fun hi hin => ?_⟩
  refine ⟨s.buf.write index.toNat v, ?_, s.buf.read_write_same _ _, fun j => s.buf.read_write_other _⟩
  rw [exec_bufWrite hr hs hi v hin, runImmediate_bufSet]
  rfl

/-! ### BUF_READ (R241) -/

/-- Settles O18: one case per outcome of admission and the index check. -/
theorem bufReadAnswersTheByte : Obligations.BufReadAnswersTheByte := by
  intro s index hr hs
  refine ⟨whenAdmitted_uninit _ hr hs, fun hi => exec_bufRead_indexRange hr hs hi, fun b hi hin hb => ?_⟩
  rw [exec_bufRead hr hs hi hin hb, runImmediate_ret]
  rfl

/-! ### DIRTY_STATUS (R243) -/

/-- Settles O20: one case per outcome of admission. -/
theorem dirtyStatusAnswersTheDirtyBits : Obligations.DirtyStatusAnswersTheDirtyBits := by
  intro s hr hs
  refine ⟨whenAdmitted_uninit _ hr hs, fun d hi hd => ?_⟩
  rw [exec_dirtyStatus hr hs hi hd, runImmediate_ret]
  rfl

end Sys2Proof.Machine
end

section
/-! PROOFS. Refusals (spec/60_exceptions.md R253): every effect of a step leaves the mark as it is, but the refusal itself,
which writes the mark and takes the host's event. -/

namespace Sys2Proof.Machine

/-- The abort effect never refuses (R254). -/
theorem abortEffect_refused (op : Byte) (s : State) : (abortEffect op s).refused = s.refused := by
  rw [abortEffect_eq]

/-- So neither does a failed write. -/
theorem txFail_refused (tag : Tag) (b : Busy) (s : State) : (txFail tag b s).refused = s.refused :=
  abortEffect_refused b.op _

/-- The local actions never refuse (R142). -/
theorem localEffect_refused (a : Action) (s : State) : (localEffect a s).refused = s.refused := by
  obtain ⟨-, -, -, -, hrefused, -, -⟩ := localEffect_frame a s
  exact hrefused

/-- A step leaves `REFUSED` as it is, or sets the mark and takes the host's event, and writes nothing else. -/
theorem StepEffect.refused {s t : State} (h : StepEffect s t) :
    t.refused = s.refused ∨
    ∃ r ev rest, s.host = ev :: rest ∧ t = { s with host := rest, refused := some r } := by
  cases h with
  | refuses a rest hd r =>
    obtain ⟨ev, hev⟩ : ∃ ev, s.host = ev :: rest := hd.host.elim (⟨_, ·⟩) (⟨_, ·⟩)
    exact .inr ⟨r, ev, rest, hev, rfl⟩
  | takesLocal h _ _ _ _ a => exact .inl (localEffect_refused a (s.setHost h))
  | completes _ _ rest _ _ _ _ _ a => exact .inl (localEffect_refused a (s.setHost rest))
  | answeredFail h _ b _ _ tag rest => exact .inl (txFail_refused tag b ((s.setHost h).setAnswers rest))
  | waits | issues | ends | answeredOk | resets | accepts => exact .inl rfl

/-- Settles O33: no step starts behind the mark (R39), so the mark a step ends with is the one its refusal set. -/
theorem aRefusalWritesOnlyTheMark : Obligations.ARefusalWritesOnlyTheMark := by
  intro s t r h ht
  have hs : s.refused = none := (step_cases h).1
  rcases (step_effect h).refused with hsame | ⟨r', ev, rest, hev, rfl⟩
  · cases hs.symm.trans (hsame.symm.trans ht)
  · cases ht
    exact ⟨ev, rest, hev, rfl⟩

end Sys2Proof.Machine
end

section
/-! PROOFS. The codec (spec/30_encoding.md R100 to R112): each layout of a request word is fixed by its fields, each
controller command byte by its free bits; so a request or a command decodes to exactly the instruction that encodes to
it. -/

namespace Sys2Proof

/-! ### Request words by their fields (R102) -/

/-- `w[23:16]`: reserved in every format but HW, HI and HX (R102). -/
def highByteField (w : ReqWord) : Byte := w.extractLsb' 16 8

theorem highByteField_toNat (w : ReqWord) : (highByteField w).toNat = w.toNat / 2 ^ 16 % 256 := by
  simp [highByteField, BitVec.extractLsb'_toNat, Nat.shiftRight_eq_div_pow]

section
variable {w : ReqWord} {op : Op}

/-- A word of three operand bytes. -/
theorem requestWord_eq_iff {a b c : Byte} :
    requestWord op a b c = w ↔
      opcodeField w = op.code ∧ highByteField w = a ∧ midByteField w = b ∧ lowByteField w = c := by
  simp only [← BitVec.toNat_inj, requestWord_toNat, opcodeField_toNat, highByteField_toNat, midByteField_toNat,
    lowByteField_toNat]
  omega

/-- A word of a payload byte count (format HN). -/
theorem countWord_eq_iff {n : BitVec 16} :
    op.code ++ 0#8 ++ n = w ↔ opcodeField w = op.code ∧ highByteField w = 0#8 ∧ countField w = n.toNat := by
  simp only [← BitVec.toNat_inj, append_toNat, opcodeField_toNat, highByteField_toNat, countField_eq,
    BitVec.toNat_ofNat]
  omega

/-- A word of a buffer index and a byte (formats HW and HI). -/
theorem indexWord_eq_iff {i : BufIndex} {v : Byte} :
    op.code ++ i ++ v = w ↔ opcodeField w = op.code ∧ indexField w = i ∧ lowByteField w = v := by
  simp only [← BitVec.toNat_inj, append_toNat, opcodeField_toNat, indexField_toNat, lowByteField_toNat]
  omega

/-- The word of a pixel (format HX). -/
theorem pixelWord_eq_iff {on : Bool} {y x : Byte} :
    op.code ++ 0#7 ++ BitVec.ofBool on ++ y ++ x = w ↔
      opcodeField w = op.code ∧ w.extractLsb' 17 7 = 0#7 ∧ onField w = on ∧ midByteField w = y ∧
        lowByteField w = x := by
  have hon : onField w = on ↔ w.toNat / 2 ^ 16 % 2 = on.toNat := by
    rw [← onField_toNat]
    cases onField w <;> cases on <;> decide
  rw [hon]
  have hreserved : (w.extractLsb' 17 7).toNat = w.toNat / 2 ^ 17 % 128 := by
    simp [BitVec.extractLsb'_toNat, Nat.shiftRight_eq_div_pow]
  have hlt := on.toNat_lt
  simp only [← BitVec.toNat_inj, append_toNat, opcodeField_toNat, midByteField_toNat, lowByteField_toNat, hreserved,
    BitVec.toNat_ofBool, BitVec.toNat_ofNat]
  omega

/-- The reserved bits of each format as the fields of the word that are zero. -/
theorem reserved_zero_iff_fields (w : ReqWord) (f : Format) :
    w &&& f.reserved = 0#32 ↔
      match f with
      | .h0 => highByteField w = 0#8 ∧ midByteField w = 0#8 ∧ lowByteField w = 0#8
      | .hn | .hpc | .hr => highByteField w = 0#8
      | .hp | .hc => highByteField w = 0#8 ∧ midByteField w = 0#8
      | .hw => True
      | .hi => lowByteField w = 0#8
      | .hx => w.extractLsb' 17 7 = 0#7 := by
  rw [reserved_zero_iff]
  cases f <;>
    simp only [← BitVec.toNat_inj, highByteField_toNat, midByteField_toNat, lowByteField_toNat,
      BitVec.extractLsb'_toNat, Nat.shiftRight_eq_div_pow, BitVec.toNat_ofNat] <;>
    omega

end

/-! ### Host requests -/

/-- An opcode names the operation it is assigned to, and no other (R104, R105). -/
theorem Op.ofCode_eq_some_iff {c : Byte} {op : Op} : Op.ofCode c = some op ↔ c = op.code :=
  ⟨fun h => (Op.code_of_ofCode h).symm, fun h => h ▸ Op.ofCode_code op⟩

/-- A payload that is no longer than its count can say has that count (R106). -/
theorem toNat_ofNat_length {p : List Byte} (h : p.length < 2 ^ 16) : (BitVec.ofNat 16 p.length).toNat = p.length :=
  Nat.mod_eq_of_lt h

section
variable {w : ReqWord} {p : List Byte} {i : Instr}

/-- A request that decodes is the word and payload of its instruction, and the payload is no longer than a count can
say. -/
theorem requestParts_of_decodeRequest (h : decodeRequest w p = .ok i) :
    i.requestParts = some (w, p) ∧ p.length < 2 ^ 16 := by
  obtain ⟨op, hop, hres, hlen, rfl⟩ := (decodeRequest_ok_iff w p i).mp h
  rw [Op.ofCode_eq_some_iff] at hop
  rw [reserved_zero_iff_fields] at hres
  cases op <;> simp only [Op.format, payloadCount, List.length_eq_zero_iff] at hres hlen
  case sendCommand | sendData =>
    have hlt : p.length < 2 ^ 16 := hlen ▸ (w.extractLsb' 0 16).isLt
    have hcount : countField w = (BitVec.ofNat 16 p.length).toNat := by rw [toNat_ofNat_length hlt, hlen]
    have hword := countWord_eq_iff.mpr ⟨hop, hres, hcount⟩
    exact ⟨congrArg (fun v => some (v, p)) hword, hlt⟩
  all_goals
    subst hlen
    refine ⟨congrArg (fun v => some (v, [])) ?_, by decide⟩
  case setPage | setColumn => exact requestWord_eq_iff.mpr ⟨hop, hres.1, hres.2, rfl⟩
  case setPosition | update => exact requestWord_eq_iff.mpr ⟨hop, hres, rfl, rfl⟩
  case initializeDisplay | dirtyStatus => exact requestWord_eq_iff.mpr ⟨hop, hres⟩
  case bufWrite => exact indexWord_eq_iff.mpr ⟨hop, rfl, rfl⟩
  case bufRead => exact indexWord_eq_iff.mpr ⟨hop, rfl, hres⟩
  case setPixel => exact pixelWord_eq_iff.mpr ⟨hop, hres, rfl, rfl, rfl⟩

/-- The word and payload of a request decode to it, where the payload is no longer than a count can say. -/
theorem decodeRequest_of_requestParts (h : i.requestParts = some (w, p)) (hlen : p.length < 2 ^ 16) :
    decodeRequest w p = .ok i := by
  simp only [decodeRequest_ok_iff, Op.ofCode_eq_some_iff, reserved_zero_iff_fields]
  cases i <;> simp only [Instr.requestParts, Option.some.injEq, Prod.mk.injEq, reduceCtorEq] at h <;>
    obtain ⟨hword, rfl⟩ := h
  case sendCommand | sendData =>
    obtain ⟨hop, hres, hcount⟩ := countWord_eq_iff.mp hword
    exact ⟨_, hop, hres, (hcount.trans (toNat_ofNat_length hlen)).symm, rfl⟩
  case setPage | setColumn =>
    obtain ⟨hop, hhigh, hmid, rfl⟩ := requestWord_eq_iff.mp hword
    exact ⟨_, hop, ⟨hhigh, hmid⟩, rfl, rfl⟩
  case setPosition | update =>
    obtain ⟨hop, hhigh, rfl, rfl⟩ := requestWord_eq_iff.mp hword
    exact ⟨_, hop, hhigh, rfl, rfl⟩
  case initializeDisplay | dirtyStatus =>
    obtain ⟨hop, hzero⟩ := requestWord_eq_iff.mp hword
    exact ⟨_, hop, hzero, rfl, rfl⟩
  case bufWrite =>
    obtain ⟨hop, rfl, rfl⟩ := indexWord_eq_iff.mp hword
    exact ⟨_, hop, trivial, rfl, rfl⟩
  case bufRead =>
    obtain ⟨hop, rfl, hlow⟩ := indexWord_eq_iff.mp hword
    exact ⟨_, hop, hlow, rfl, rfl⟩
  case setPixel =>
    obtain ⟨hop, hres, rfl, rfl, rfl⟩ := pixelWord_eq_iff.mp hword
    exact ⟨_, hop, hres, rfl, rfl⟩

end

/-! ### Controller commands -/

/-- A byte in the row of CTL_SET_COLUMN_LOW is `0000 llll` (R110). -/
theorem columnLow_of_row : ∀ b : Byte, b &&& 0xF0#8 = 0x00#8 → 0x0#4 ++ b.extractLsb' 0 4 = b := by decide

/-- A byte in the row of CTL_SET_COLUMN_HIGH is `0001 hhhh` (R111). -/
theorem columnHigh_of_row : ∀ b : Byte, b &&& 0xF0#8 = 0x10#8 → 0x1#4 ++ b.extractLsb' 0 4 = b := by decide

/-- A byte in the row of CTL_SET_PAGE is 0xB0 and a page (R109). -/
theorem page_of_row : ∀ b : Byte, b &&& 0xF0#8 = 0xB0#8 → 0xB0#8 + (b &&& 0x0F#8) = b := by decide

/-- The page of a CTL_SET_PAGE byte is one of the row's sixteen. -/
theorem pageOperand_lt : ∀ b : Byte, (b &&& 0x0F#8).toNat < 16 := by decide

/-- A byte in the row of CTL_SEG_REMAP is `1010 000r` (R201, E6). -/
theorem segRemap_of_row : ∀ b : Byte, b &&& 0xFE#8 = 0xA0#8 → 0b1010000#7 ++ b.extractLsb' 0 1 = b := by decide

/-- A byte in the row of CTL_COM_SCAN is `1100 d000` (R201, E13). -/
theorem comScan_of_row : ∀ b : Byte, b &&& 0xF7#8 = 0xC0#8 → 0xC#4 ++ b.extractLsb' 3 1 ++ 0#3 = b := by decide

section
variable {i : Instr}

/-- A row of a decoder is the one that answers, or the rows behind it do. -/
theorem row_or_later {c : Prop} [Decidable c] {j : Instr} {later : Except DecodeError Instr}
    (h : (if c then .ok j else later) = .ok i) : (c ∧ j = i) ∨ later = .ok i := by
  by_cases hc : c
  · exact .inl ⟨hc, Except.ok.inj ((if_pos hc).symm.trans h)⟩
  · exact .inr ((if_neg hc).symm.trans h)

/-- A byte that decodes is the one byte of its row, row by row. -/
theorem commandBytes_of_decodeCtl8 {b : Byte} (h : decodeCtl8 b = .ok i) :
    i.commandBytes 0xB0#8 = some [b] ∧ i.wellFormed = true := by
  unfold decodeCtl8 at h
  obtain ⟨hrow, rfl⟩ | h := row_or_later h
  · exact ⟨congrArg (some [·]) (columnLow_of_row b hrow), rfl⟩
  obtain ⟨hrow, rfl⟩ | h := row_or_later h
  · exact ⟨congrArg (some [·]) (columnHigh_of_row b hrow), rfl⟩
  obtain ⟨hrow, rfl⟩ | h := row_or_later h
  · exact ⟨congrArg (some [·]) (page_of_row b hrow), decide_eq_true (pageOperand_lt b)⟩
  iterate 3
    obtain ⟨rfl, rfl⟩ | h := row_or_later h
    · exact ⟨rfl, rfl⟩
  obtain ⟨hrow, rfl⟩ | h := row_or_later h
  · exact ⟨congrArg (some [·]) (segRemap_of_row b hrow), rfl⟩
  iterate 2
    obtain ⟨rfl, rfl⟩ | h := row_or_later h
    · exact ⟨rfl, rfl⟩
  obtain ⟨hrow, rfl⟩ | h := row_or_later h
  · exact ⟨congrArg (some [·]) (comScan_of_row b hrow), rfl⟩
  cases h

/-- A command byte and its parameter that decode are the two bytes of their row. -/
theorem commandBytes_of_decodeCtl16 {c p : Byte} (h : decodeCtl16 c p = .ok i) :
    i.commandBytes 0xB0#8 = some [c, p] ∧ i.wellFormed = true := by
  unfold decodeCtl16 at h
  obtain ⟨⟨rfl, rfl⟩, rfl⟩ | h := row_or_later h
  · exact ⟨rfl, rfl⟩
  iterate 7
    obtain ⟨rfl, rfl⟩ | h := row_or_later h
    · exact ⟨rfl, rfl⟩
  cases h

/-- A command payload that decodes is the bytes of its instruction's row, and the instruction is well formed. -/
theorem commandBytes_of_decodeCommand {bs : List Byte} (h : decodeCommand bs = .ok i) :
    i.commandBytes 0xB0#8 = some bs ∧ i.wellFormed = true := by
  match bs with
  | [b] => exact commandBytes_of_decodeCtl8 h
  | [c, p] => exact commandBytes_of_decodeCtl16 h
  | [] | _ :: _ :: _ :: _ => cases h

/-- The bytes of a controller command row decode to its instruction. -/
theorem decodeCommand_of_commandBytes {bs : List Byte} (h : i.commandBytes 0xB0#8 = some bs)
    (hwf : i.wellFormed = true) : decodeCommand bs = .ok i := by
  cases i <;> simp only [Instr.commandBytes, Option.some.injEq, reduceCtorEq] at h <;> subst h
  case ctlSetColumnLow l => revert l; decide
  case ctlSetColumnHigh n => revert n; decide
  case ctlSetPage p => revert p; decide
  case ctlSegRemap r => revert r; decide
  case ctlComScan d => revert d; decide
  all_goals rfl

end

/-! ### The encoder -/

/-- What the encoder makes of a host request is its word and payload. -/
theorem encode_eq_request_iff {i : Instr} {w : ReqWord} {p : List Byte} :
    encode i = .request w p ↔ i.requestParts = some (w, p) := by
  unfold encode
  cases i.requestParts <;> simp [Prod.ext_iff]

/-- What the encoder makes of a controller command row is its bytes. -/
theorem encode_eq_command_iff {i : Instr} {bs : List Byte} :
    encode i = .command bs ↔ i.commandBytes 0xB0#8 = some bs := by
  cases i <;> simp [encode, Instr.requestParts, Instr.commandBytes]

/-- The payload of a well-formed request is no longer than a count can say (R106). -/
theorem payload_length_lt {i : Instr} {w : ReqWord} {p : List Byte} (hwf : i.wellFormed = true)
    (h : i.requestParts = some (w, p)) : p.length < 2 ^ 16 := by
  cases i <;> simp only [Instr.requestParts, Option.some.injEq, Prod.mk.injEq, reduceCtorEq] at h <;>
    obtain ⟨-, rfl⟩ := h
  case sendCommand => exact Nat.lt_succ_of_le (of_decide_eq_true hwf).2
  case sendData => exact Nat.lt_succ_of_le (of_decide_eq_true hwf)
  all_goals decide

/-- Settles O2: a request decodes by the fields of its word, a controller command by its row. -/
theorem decodeOfEncodeIsTheInstruction : Obligations.DecodeOfEncodeIsTheInstruction := by
  intro i hwf
  cases he : encode i with
  | request w p =>
    have hparts := encode_eq_request_iff.mp he
    exact decodeRequest_of_requestParts hparts (payload_length_lt hwf hparts)
  | command bs => exact decodeCommand_of_commandBytes (encode_eq_command_iff.mp he) hwf

/-- Settles O3: a word is fixed by the fields its decoder reads and the reserved bits it checks, a command byte by its
row's fixed bits and its free ones. -/
theorem encodeOfDecodeIsTheWord : Obligations.EncodeOfDecodeIsTheWord := by
  intro e i h
  cases e with
  | request w p => exact encode_eq_request_iff.mpr (requestParts_of_decodeRequest h).1
  | command bs => exact encode_eq_command_iff.mpr (commandBytes_of_decodeCommand h).1

/-- Settles O1, by running the decoder on the sixteen words. -/
theorem wordsOfTheSpecDecodeToTheirOperations : Obligations.WordsOfTheSpecDecodeToTheirOperations := by
  unfold Obligations.WordsOfTheSpecDecodeToTheirOperations
  decide

end Sys2Proof
end

section
/-! PROOFS. The reset input (spec/70_reset_and_hazards.md R281 to R283), requests at a busy sequencer (R285), and the
invariant at reset. -/

namespace Sys2Proof.Machine

/-- The validity check of the reset input, condition by condition, `DEV_ADDR` among them (R281). -/
theorem resetInput_valid_iff (r : ResetInput) : r.valid = true ↔
    (1 ≤ r.width ∧ r.width ≤ 256) ∧ (8 ≤ r.height ∧ r.height ≤ 256 ∧ r.height % 8 = 0) ∧
    (1 ≤ r.dataSize ∧ r.dataSize ≤ 65535) ∧ r.devAddr.getD 0x3C ≤ 0x7F ∧ r.toCfg.regCmd ≠ r.toCfg.regData ∧
    r.toCfg.pageBase.toNat + r.height / 8 - 1 ≤ 0xFF ∧
    (∀ e ∈ r.toCfg.initSeq, 1 ≤ e.length ∧ e.length ≤ r.dataSize) ∧
    (r.toCfg.colFraming = .joined → 2 ≤ r.dataSize) := by
  rw [ResetInput.valid, Bool.and_eq_true, decide_eq_true_eq, Cfg_valid_iff]
  constructor
  · rintro ⟨haddr, hwidth, hheight, hsize, hrest⟩
    exact ⟨hwidth, hheight, hsize, haddr, hrest⟩
  · rintro ⟨hwidth, hheight, hsize, haddr, hrest⟩
    exact ⟨haddr, hwidth, hheight, hsize, hrest⟩

/-- A reset input that is not valid is refused (R281). -/
theorem resetInput_of_invalid {r : ResetInput} {s : State} (hr : s.refused = none) (hv : ¬ r.valid = true) :
    resetInput r s = refuse .badConfig s := by
  simp [resetInput, hr, hv]

/-- Settles O35: the eight conditions are the validity check. -/
theorem resetChecksTheConfiguration : Obligations.ResetChecksTheConfiguration := by
  intro s r hr
  rw [← resetInput_valid_iff]
  exact ⟨fun hv => ⟨_, resetInput_of_valid hr hv, hr, rfl⟩, fun hv => resetInput_of_invalid hr hv⟩

/-- A reset leaves `TXLOG` as it is where no write is pending (R283). -/
theorem abandonPending_of_settled {s : State} (h : s.seq = .idle ∨ ∃ b, s.seq = .busy b ∧ b.pending = false) :
    abandonPending s = s.txlog := by
  rcases h with hs | ⟨b, hs, hp⟩
  · simp [abandonPending, hs]
  · simp [abandonPending, hs, hp]

/-- A reset abandons the pending write, the last event of `TXLOG` (R283). -/
theorem abandonPending_of_pending {s : State} {b : Busy} {before : List TxEvent} {e : TxEvent} (hs : s.seq = .busy b)
    (hp : b.pending = true) (hlog : s.txlog = before ++ [e]) :
    abandonPending s = before ++ [{ e with result := .abandoned }] := by
  simp [abandonPending, hs, hp, hlog, setLastResult_append]

/-- Settles O34: the reset's effect field by field; its `BUF` lists no cell, so every read is ⊥. -/
theorem validResetAppliesTheResetValues : Obligations.ValidResetAppliesTheResetValues := by
  intro s r hr hv
  exact ⟨[], abandonPending s, resetInput_of_valid hr hv, Memory.read_nil, abandonPending_of_settled,
    fun _ _ _ hs hp hlog => abandonPending_of_pending hs hp hlog⟩

/-- Settles O22: none of the eleven is a controller command row. -/
theorem everyRequestIsRefusedWhileBusy : Obligations.EveryRequestIsRefusedWhileBusy := by
  intro s b p v1 v2 k on hr hs i hi
  refine exec_request_busy ?_ hr hs
  revert i
  simp [Instr.commandBytes]

/-- Settles O40: the reset state is idle, has logged nothing, and holds no value in its memories. -/
theorem invariantHoldsAtReset : Obligations.InvariantHoldsAtReset := by
  have hcfg : State.reset.cfg.valid = true := toCfg_valid (r := referenceInput) rfl
  exact (memoryOk_of_unspecified hcfg rfl rfl rfl).invariant_of_idle rfl (fun _ h => nomatch h)

end Sys2Proof.Machine
end
